-- ==== Sys2Proof/Word.lean ====
section
/-! DEFINITION. The word types of the block: a byte of memory and a 32-bit word (00_scope.md R9, R11). -/

namespace Sys2Proof

/-- A byte of memory (00_scope.md R11). -/
abbrev Byte := BitVec 8

/-- A 32-bit word: a word of a request descriptor, `C`, `RET`, `DLEN` (10_state.md R24, 30_encoding.md R81). -/
abbrev Word32 := BitVec 32

end Sys2Proof
end

