-- ==== Sys2Proof/Config.lean ====
section
/-! DEFINITION. What an implementation or platform fixes (00_scope.md R7), as plain data that State holds and no step changes,
and the free values: constants with no body, so that nothing can be proved of them (notes/assumptions 6 and 7). -/

namespace Sys2Proof

/-- `ADDR_W`, the width of a buffer address: OPEN, 32 or 64 (00_scope.md R7, D4). -/
inductive AddrWidth where
  | w32
  | w64
deriving DecidableEq, Repr

/-- The access kinds of `MemValid(a, k)` (00_scope.md R7, 40_call.md R103). -/
inductive AccessKind where
  | read
  | readWrite
deriving DecidableEq, Repr

/-- A range of bytes of ordinary memory the platform lets the block access: `readWrite` ranges may be read too (40_call.md R104). -/
structure Region where
  base   : Nat
  size   : Nat
  access : AccessKind
deriving DecidableEq, Repr

/-- The OPEN parameters of 00_scope.md R7. `W` is `2 ^ (beatLog + 1)` bytes, so that it is a power of two and at least 2. `MemValid` is
given by the list of the ranges where it holds: the address space is finite, so every predicate has such a list. -/
structure Config where
  addrWidth : AddrWidth
  beatLog   : Nat
  regions   : List Region
deriving DecidableEq, Repr

/-- FREE VALUE: `RET` of a call on which a fault was raised, by the number of the draw (60_exceptions.md R191 (b), S8). -/
opaque Config.freeWord : Nat → Word32

/-- FREE VALUE: a byte left, or loaded by another agent, with an unspecified value, by the number of the draw and the byte's
address (60_exceptions.md R191 (e), S9). -/
opaque Config.freeByte : Nat → Nat → Byte

/-- FREE VALUE: whether a byte of a REV16 buffer cut short by reset holds its old value, by the number of the draw and the byte's
address (70_reset_and_hazards.md R212 (c), S10). -/
opaque Config.freeKeepsOld : Nat → Nat → Bool

/-- FREE VALUE: which of several pending requests is accepted next, by the number of the draw (40_call.md R101, S12). -/
opaque Config.freeIndex : Nat → Nat

end Sys2Proof
end

