-- ==== Sys2Proof/Syntax.lean ====
section
/-! DEFINITION. The operations of the block: one constructor per row of spec/opcode_table.json (30_encoding.md R82, R86). -/

namespace Sys2Proof

/-- A request's operation with its operands (30_encoding.md R82): `data`, the buffer's base address, an unsigned number of `ADDR_W` bits (held in 64
bits), and `dlen`, its byte length, the pattern of a signed 32-bit number (R88). The destination of `crc32` is a requester
variable and not part of the request's encoding (R90). -/
inductive Instr where
  /-- REV16: swap the two bytes of every 2-byte unit of the buffer (41_rev16.md R130). -/
  | rev16 (data : BitVec 64) (dlen : Word32)
  /-- CRC32: the CRC-32/ISO-HDLC checksum of the buffer (42_crc32.md R150). -/
  | crc32 (data : BitVec 64) (dlen : Word32)
deriving DecidableEq, Repr

end Sys2Proof
end

