-- ==== Sys2Proof/WellFormed.lean ====
section
/-! DEFINITION. Which instructions a descriptor can hold: `data` is a number of `ADDR_W` bits (30_encoding.md R81, R82). -/

namespace Sys2Proof

/-- `data` fits in `ADDR_W` bits (30_encoding.md R82). -/
def addressFits : AddrWidth → BitVec 64 → Bool
  | .w32, data => decide (data.toNat < 2 ^ 32)
  | .w64, _ => true

/-- The instructions that some request descriptor of this address width holds. -/
def wellFormed (aw : AddrWidth) : Instr → Bool
  | .rev16 data _ => addressFits aw data
  | .crc32 data _ => addressFits aw data

end Sys2Proof
end

