-- ==== Sys2Proof/Decode.lean ====
section
/-! DEFINITION. The request descriptor, word by word (30_encoding.md R81 to R89): the decoder, total on any list of words and rejecting by
name, and after it the encoder. -/

namespace Sys2Proof

/-- The number of bits of an address: `ADDR_W` (00_scope.md R7). -/
def addrBits : AddrWidth → Nat
  | .w32 => 32
  | .w64 => 64

/-- The number of 32-bit words of a descriptor (30_encoding.md R81). -/
def descriptorWords : AddrWidth → Nat
  | .w32 => 3
  | .w64 => 4

/-- Why a list of words is not a request of the operation map. -/
inductive DecodeError where
  /-- Not the number of words that `ADDR_W` fixes (30_encoding.md R81, R89). -/
  | wrongLength
  /-- `CTRL` matches neither row of the operation map (30_encoding.md R87). -/
  | illegalRequest
deriving DecidableEq, Repr

/-- What the decoder answers. -/
inductive Decoded where
  | instr (i : Instr)
  | reject (e : DecodeError)
deriving DecidableEq, Repr

/-- `CTRL` of REV16: mask 0xFFFFFFFF, match 0x00000000 (30_encoding.md R86). -/
def ctrlRev16 : Word32 := 0x00000000#32

/-- `CTRL` of CRC32: mask 0xFFFFFFFF, match 0x00000001 (30_encoding.md R86). -/
def ctrlCrc32 : Word32 := 0x00000001#32

/-- The operation map, on the whole `CTRL` word (30_encoding.md R86, R87). -/
def decodeCtrl (ctrl dlen : Word32) (data : BitVec 64) : Decoded :=
  if ctrl = ctrlRev16 then .instr (.rev16 data dlen)
  else if ctrl = ctrlCrc32 then .instr (.crc32 data dlen)
  else .reject .illegalRequest

/-- The decoder: words 0 to 2 are `CTRL`, `DLEN`, `DATA[31:0]`, and word 3 is `DATA[63:32]` when `ADDR_W = 64` (30_encoding.md R81). -/
def decode (aw : AddrWidth) (ws : List Word32) : Decoded :=
  match aw, ws with
  | .w32, [ctrl, dlen, lo] => decodeCtrl ctrl dlen (lo.zeroExtend 64)
  | .w64, [ctrl, dlen, lo, hi] => decodeCtrl ctrl dlen (hi ++ lo)
  | _, _ => .reject .wrongLength

/-- The descriptor of three operand fields (30_encoding.md R81). -/
def descriptorOf (aw : AddrWidth) (ctrl dlen : Word32) (data : BitVec 64) : List Word32 :=
  match aw with
  | .w32 => [ctrl, dlen, data.extractLsb' 0 32]
  | .w64 => [ctrl, dlen, data.extractLsb' 0 32, data.extractLsb' 32 32]

/-- The encoder: the words `CTRL DLEN DATA[31:0] (DATA[63:32])` of a request (30_encoding.md R81, R86, R90). -/
def encode (aw : AddrWidth) : Instr → List Word32
  | .rev16 data dlen => descriptorOf aw ctrlRev16 dlen data
  | .crc32 data dlen => descriptorOf aw ctrlCrc32 dlen data

/-- The first `n` 32-bit words of a number whose bits 31:0 are word 0 (30_encoding.md R92, `req_desc`). -/
def wordsOfBits : Nat → Nat → List Word32
  | 0, _ => []
  | n + 1, bits => BitVec.ofNat 32 bits :: wordsOfBits n (bits / 2 ^ 32)

/-- The address width of a table word: a descriptor of at most 96 bits has `ADDR_W = 32` (30_encoding.md R81). -/
def tableWidth (nbits : Nat) : AddrWidth := if nbits ≤ 96 then .w32 else .w64

/-- The instruction the decoder reads from a descriptor whose bits are `w`, word 0 in bits 31:0; the bits from `nbits` up are 0. -/
def decodeTableWord (nbits w : Nat) : Option Instr :=
  match decode (tableWidth nbits) (wordsOfBits (descriptorWords (tableWidth nbits)) (w % 2 ^ nbits)) with
  | .instr i => some i
  | .reject _ => none

end Sys2Proof
end

