-- ==== Sys2Proof/Machine/State.lean ====
section
/-! DEFINITION. The state of the machine as plain data: the block's call-scoped registers (10_state.md R24), the memory (R27), the call
port (R28), the model's fault record (R31), what agents outside have learnt, the moves still to come, and the state after reset (R29). -/

namespace Sys2Proof.Machine

/-- The byte memory `M` (10_state.md R27) as a list of (address, byte) with addresses strictly rising and no byte equal to what an
unlisted address reads as (Ops.lean, `unlistedByte`). -/
abbrev Memory := List Host.Cell

/-- `PHASE` (10_state.md R24, R25). -/
inductive Phase where
  | idle
  | busy
  | done
deriving DecidableEq, Repr

/-- The words of a request descriptor; `dataHi` is on the port only when `ADDR_W = 64` (30_encoding.md R81). -/
structure Descriptor where
  ctrl   : Word32
  dlen   : Word32
  dataLo : Word32
  dataHi : Word32
deriving DecidableEq, Repr

/-- A request on the call port: its requester (the arbiter's tag, 60_exceptions.md R199), the requester variable the response is
for (30_encoding.md R90), and the descriptor (R81). -/
structure Request where
  requester : Nat
  dst       : Option Nat
  desc      : Descriptor
deriving DecidableEq, Repr

/-- Whether the call in the block still has a meaning (60_exceptions.md R192). -/
inductive CallStatus where
  /-- No fault has been raised on the call. -/
  | legal
  /-- A fault was raised after ACCEPT: ConcurrentAccess or BusError (R187, R188). -/
  | violated
  /-- A fault was raised at ACCEPT, so the call never borrowed its buffer (R189). -/
  | rejected
deriving DecidableEq, Repr

/-- The call in the block: the request it was accepted from, and whether it still has a meaning. -/
structure Call where
  req    : Request
  status : CallStatus
deriving DecidableEq, Repr

/-- The model's fault reasons with the information recorded beside the descriptor (60_exceptions.md R180). -/
inductive FaultReason where
  | illegalRequest
  | negativeLength
  | oddLength
  | rangeWrap
  | invalidBuffer (addr : Nat)
  | concurrentAccess (addr agent : Nat)
  | busError (addr : Nat)
deriving DecidableEq, Repr

/-- An entry of `FAULT`: the reason and the call, by the words of its descriptor (10_state.md R31, 60_exceptions.md R180). -/
structure FaultEntry where
  reason : FaultReason
  words  : List Word32
deriving DecidableEq, Repr

/-- What an agent outside the block learns (10_state.md R26): a response it takes, or a byte it loads. -/
inductive Obs where
  | response (requester : Nat) (dst : Option Nat) (ret : Word32)
  | loaded (agent addr : Nat) (value : Byte)
deriving DecidableEq, Repr

/-- A move of one agent (10_state.md R20). State lists the moves still to come; one that is not enabled leaves everything as it is. -/
inductive Event where
  /-- A requester presents a request (40_call.md R101). -/
  | present (req : Request)
  /-- The block accepts the `n`-th pending request and runs it to DONE as one step (40_call.md R111). -/
  | call (n : Nat)
  /-- The block's ACCEPT of the `n`-th pending request alone (40_call.md R102). -/
  | accept (n : Nat)
  /-- The block's CHUNK of `k` bytes (40_call.md R106). -/
  | chunk (k : Nat)
  /-- The memory acknowledges every write the call has issued (40_call.md R109). -/
  | writeAck
  /-- The memory port answers an access of the call at this address with an error (40_call.md R113, 60_exceptions.md R188). -/
  | busError (addr : Nat)
  /-- The block's COMPLETE (40_call.md R109). -/
  | complete
  /-- The requester takes the response: RESPOND (40_call.md R110). -/
  | respond
  /-- An agent other than the block loads a byte. -/
  | load (agent addr : Nat)
  /-- An agent other than the block stores a byte: `st8` (30_encoding.md R91). -/
  | store (agent addr : Nat) (value : Byte)
  /-- A requester stores its variable little-endian: `st32le` (30_encoding.md R91). -/
  | storeVar (agent addr var : Nat)
  /-- The Reset agent asserts `rst` (70_reset_and_hazards.md R210). -/
  | rstAssert
  /-- The Reset agent releases `rst`. -/
  | rstRelease
deriving DecidableEq, Repr

/-- Why a run stops with a fault. -/
inductive Fault where
  /-- Raised by an agent's load or store (Agents.lean) at an address outside the `ADDR_W`-bit space (20_memory.md R50: it does not
  exist). Safe: the machine stops, and nothing follows about such an access. -/
  | noSuchAddress (addr : Nat)
deriving DecidableEq, Repr

/-- Why an instruction has no meaning. -/
inductive Refusal where
  /-- Raised by exec's arm of an instruction that has no meaning yet. Safe: nothing follows about it. No arm raises it. -/
  | notModelled (mnemonic : String)
deriving DecidableEq, Repr

/-- The state of the machine. The first group is the platform's parameters, the second the block's (10_state.md R24), the third the
port, the memory and the model's record, the fourth what the model adds. -/
structure State where
  /-- `ADDR_W`, `W` and `MemValid` (00_scope.md R7). No step changes it. -/
  cfg     : Config
  /-- The reset input (70_reset_and_hazards.md R210). -/
  rst     : Bool
  /-- `PHASE`. -/
  phase   : Phase
  /-- `REQ.OP`. -/
  reqOp   : BitVec 2
  /-- `REQ.DATA`, `ADDR_W` bits. -/
  reqData : BitVec 64
  /-- `REQ.DLEN`. -/
  reqDlen : Word32
  /-- `OFF`. -/
  off     : Word32
  /-- `C`. -/
  c       : Word32
  /-- `RET`; the pending response while `phase` is DONE. -/
  ret     : Word32
  /-- Some write of the call is not acknowledged yet (40_call.md R109). -/
  unacked : Bool
  /-- The requests presented and not accepted (10_state.md R28); the block accepts the first, once the arbiter has chosen it. -/
  pending : List Request
  /-- The call in the block. -/
  call    : Option Call
  /-- `M`. -/
  mem     : Memory
  /-- `FAULT`, oldest entry first (10_state.md R31). -/
  fault   : List FaultEntry
  /-- What agents outside the block have learnt, newest first (10_state.md R26). -/
  obs     : List Obs
  /-- The moves still to come, the next one first (notes/assumptions/1). -/
  sched   : List Event
  /-- How many free values have been drawn (notes/assumptions/7). -/
  draws   : Nat
deriving DecidableEq, Repr

/-- The platform of spec/95_test_vectors.md: `ADDR_W = 32` and `MemValid` on every byte; `W = 4`. DESIGN CHOICE (notes/assumptions/6). -/
def vectorPlatform : Config where
  addrWidth := .w32
  beatLog := 1
  regions := [⟨0, 2 ^ 32, .readWrite⟩]

/-- The machine right after reset (10_state.md R29, 70_reset_and_hazards.md R211). -/
def State.reset : State where
  cfg := vectorPlatform
  rst := false
  phase := .idle
  reqOp := 0#2
  reqData := 0#64
  reqDlen := 0#32
  off := 0#32
  c := 0xFFFFFFFF#32
  ret := 0#32
  unacked := false
  pending := []
  call := none
  mem := []
  fault := []
  obs := []
  sched := []
  draws := 0

/-- What the next step does: run the call of the request at the head of the port, or an outcome already known. -/
inductive Move where
  | run (s : State)
  | did (o : Host.Outcome State Fault Refusal)

end Sys2Proof.Machine
end

