-- ==== Sys2Proof/Machine/Ops.lean ====
section
/-! DEFINITION. The named operations every step is made of: the byte memory, the port, the contract check of 40_call.md R103, ACCEPT, the
end of a call, and the raising of a fault, which is one operation at ACCEPT (`reject`) and one after it (`violate`). -/

namespace Sys2Proof.Machine

/-! ### Memory (00_scope.md R11, 10_state.md R27) -/

/-- What an address with no entry reads as. DESIGN CHOICE (notes/assumptions/2). -/
def unlistedByte : Byte := 0#8

/-- `MemRead(a, 1)`. -/
def Memory.read : Memory → Nat → Byte
  | [], _ => unlistedByte
  | (x, v) :: m, a => if x = a then v else Memory.read m a

/-- One entry in front of a memory, unless it says what an unlisted address says. -/
def Memory.cons (a : Nat) (b : Byte) (m : Memory) : Memory := if b = unlistedByte then m else (a, b) :: m

/-- `MemWrite(a, 1, b)`, keeping the canonical form. -/
def Memory.write : Memory → Nat → Byte → Memory
  | [], a, b => Memory.cons a b []
  | (x, v) :: m, a, b =>
    if a < x then Memory.cons a b ((x, v) :: m)
    else if a = x then Memory.cons a b m
    else (x, v) :: Memory.write m a b

/-- Every address of the memory is at least `lo`, they rise strictly, and no entry says what an unlisted address says. -/
def Memory.wfFrom : Nat → Memory → Bool
  | _, [] => true
  | lo, (x, v) :: m => decide (lo ≤ x) && decide (v ≠ unlistedByte) && Memory.wfFrom (x + 1) m

/-- The canonical form of the memory. -/
def Memory.wf (m : Memory) : Bool := Memory.wfFrom 0 m

/-- Every listed address is below `limit`. -/
def Memory.below (limit : Nat) (m : Memory) : Bool := m.all fun cell => decide (cell.1 < limit)

/-- `MemRead(a, n)`: the list of the `n` bytes from `a` on, in address order (00_scope.md R11). -/
def Memory.readBytes (m : Memory) : Nat → Nat → List Byte
  | _, 0 => []
  | a, n + 1 => Memory.read m a :: Memory.readBytes m (a + 1) n

/-- Write a list of bytes from `a` on. -/
def Memory.writeBytes : Memory → Nat → List Byte → Memory
  | m, _, [] => m
  | m, a, b :: bs => Memory.writeBytes (Memory.write m a b) (a + 1) bs

/-- Leave each of `n` bytes from `a` on, as far as the address exists, with the free value of draw `draw` (60_exceptions.md R191 (e)). -/
def scramble (limit draw : Nat) : Nat → Nat → Memory → Memory
  | _, 0, m => m
  | a, n + 1, m => scramble limit draw (a + 1) n (if a < limit then Memory.write m a (Config.freeByte draw a) else m)

/-- The number of addresses, `2^ADDR_W` (20_memory.md R50). -/
def addrLimit (cfg : Config) : Nat := 2 ^ addrBits cfg.addrWidth

/-- `W`, the bytes of a datapath beat (00_scope.md R7). -/
def beatBytes (cfg : Config) : Nat := 2 ^ (cfg.beatLog + 1)

/-- Whether a region of this kind of access lets the block access a byte with kind `k`: ReadWrite implies Read (40_call.md R104). -/
def grants : AccessKind → AccessKind → Bool
  | .readWrite, _ => true
  | .read, .read => true
  | .read, .readWrite => false

/-- `MemValid(a, k)`: the byte exists and a region of the platform grants the access (40_call.md R104). -/
def memValid (cfg : Config) (k : AccessKind) (a : Nat) : Bool :=
  decide (a < addrLimit cfg) && cfg.regions.any fun r => decide (r.base ≤ a) && decide (a < r.base + r.size) && grants r.access k

/-- The lowest of the `n` addresses from `a` on where `MemValid` fails (60_exceptions.md R180, code 5). -/
def firstInvalid (cfg : Config) (k : AccessKind) : Nat → Nat → Option Nat
  | _, 0 => none
  | a, n + 1 => if memValid cfg k a then firstInvalid cfg k (a + 1) n else some a

/-! ### The contract check (40_call.md R103) -/

/-- `OP` of REV16 (30_encoding.md R86). -/
def opRev16 : BitVec 2 := 0b00#2

/-- `OP` of CRC32 (30_encoding.md R86). -/
def opCrc32 : BitVec 2 := 0b01#2

/-- `kind(op)`: kind(0) = ReadWrite, kind(1) = Read (40_call.md R103). -/
def kindOf (op : BitVec 2) : AccessKind := if op = opRev16 then .readWrite else .read

/-- The tests of `check` after the one on `CTRL`, which is the decoder's, in their order (40_call.md R103, 60_exceptions.md R189). -/
def check (cfg : Config) (op : BitVec 2) (data : Nat) (dlen : Word32) : Option FaultReason :=
  if dlen.toInt < 0 then some .negativeLength
  else if op = opRev16 ∧ dlen.toInt % 2 = 1 then some .oddLength
  else if 0 < dlen.toInt ∧ data + dlen.toInt > addrLimit cfg then some .rangeWrap
  else match firstInvalid cfg (kindOf op) data dlen.toNat with
    | some a => some (.invalidBuffer a)
    | none => none

/-- The code of a fault reason (60_exceptions.md R180). -/
def faultCode : FaultReason → Nat
  | .illegalRequest => 1
  | .negativeLength => 2
  | .oddLength => 3
  | .rangeWrap => 4
  | .invalidBuffer _ => 5
  | .concurrentAccess _ _ => 6
  | .busError _ => 7

/-! ### The port -/

/-- The words of a descriptor that are on the port (30_encoding.md R81). -/
def wireWords : AddrWidth → Descriptor → List Word32
  | .w32, d => [d.ctrl, d.dlen, d.dataLo]
  | .w64, d => [d.ctrl, d.dlen, d.dataLo, d.dataHi]

/-- A descriptor from its words; words that are not there are 0. -/
def descriptorOfWords (ws : List Word32) : Descriptor where
  ctrl := ws.getD 0 0#32
  dlen := ws.getD 1 0#32
  dataLo := ws.getD 2 0#32
  dataHi := ws.getD 3 0#32

/-- The words of the request at the head of the port. -/
def headWords (s : State) : List Word32 :=
  match s.pending with
  | [] => []
  | r :: _ => wireWords s.cfg.addrWidth r.desc

/-- The block can accept: reset is not asserted, `PHASE = IDLE` and a request is pending (40_call.md R101, R102). -/
def canAccept (s : State) : Bool := !s.rst && decide (s.phase = .idle) && !s.pending.isEmpty

/-- The arbiter's choice of the `n`-th pending request: it comes to the head of the port and no other is lost (60_exceptions.md R199). -/
def grant (n : Nat) (s : State) : State :=
  match s.pending[n]? with
  | some r => { s with pending := r :: s.pending.eraseIdx n }
  | none => s

/-- The arbiter's choice where the schedule makes none: a free value among the pending requests (40_call.md R101, S12). With one
pending request there is no choice. -/
def grantFree (s : State) : State :=
  match s.pending with
  | [] => s
  | [_] => s
  | r :: r' :: rs => { grant (Config.freeIndex s.draws % (r :: r' :: rs).length) s with draws := s.draws + 1 }

/-- The response waiting to be taken (10_state.md R28). -/
def pendingResponse (s : State) : Option Word32 := if s.phase = .done then some s.ret else none

/-- The head of the port as the call in the block. -/
def headCall (status : CallStatus) (s : State) : Option Call := s.pending.head?.map fun r => ⟨r, status⟩

/-! ### ACCEPT, and the two ways a fault is raised -/

/-- The effect of ACCEPT once `check` has passed (40_call.md R102, R105): the request at the head of the port leaves it. -/
def accept (op : BitVec 2) (data : BitVec 64) (dlen : Word32) (s : State) : State :=
  { s with
    reqOp := op
    reqData := data
    reqDlen := dlen
    off := 0#32
    c := 0xFFFFFFFF#32
    ret := 0x00000000#32
    phase := .busy
    unacked := false
    call := headCall .legal s
    pending := s.pending.tail }

/-- A fault raised at ACCEPT: it is recorded with the descriptor, and the call ends inside the hardware envelope, with a response
whose `RET` is a free value and with memory `m` (60_exceptions.md R191 (a), (b)). The call-scoped registers keep their values, since `check`
comes before the writes of ACCEPT (40_call.md R102; notes/assumptions/10). -/
def reject (reason : FaultReason) (m : Memory) (s : State) : State :=
  { s with
    fault := s.fault ++ [⟨reason, headWords s⟩]
    mem := m
    ret := Config.freeWord s.draws
    draws := s.draws + 1
    phase := .done
    call := headCall .rejected s
    pending := s.pending.tail }

/-- The faults at ACCEPT after which a REV16 buffer is left unspecified (60_exceptions.md R191 (e)); after the others no access is
made at all (R191 (c)). -/
def leavesBytes : FaultReason → Bool
  | .oddLength => true
  | .invalidBuffer _ => true
  | _ => false

/-- The memory a call leaves whose fault was raised at ACCEPT (60_exceptions.md R191 (c), (d), (e)). -/
def rejectedMem (op : BitVec 2) (data : Nat) (dlen : Word32) (reason : FaultReason) (s : State) : Memory :=
  if op = opRev16 && leavesBytes reason then scramble (addrLimit s.cfg) s.draws data dlen.toNat s.mem else s.mem

/-- A fault raised on a decoded request at ACCEPT. -/
def rejectCall (op : BitVec 2) (data : BitVec 64) (dlen : Word32) (reason : FaultReason) (s : State) : State :=
  reject reason (rejectedMem op data.toNat dlen reason s) s

/-- The address of the buffer's byte `OFF`: `data + OFF`, with no wrap (00_scope.md R10, 40_call.md R115). -/
def cursor (s : State) : Nat := s.reqData.toNat + s.off.toNat

/-- Byte `a` lies in the buffer `[data, data+dlen)` of the latched request. -/
def inBuffer (s : State) (a : Nat) : Bool := decide (s.reqData.toNat ≤ a) && decide (a < s.reqData.toNat + s.reqDlen.toNat)

/-- The words of the call in the block. -/
def callWords (s : State) : List Word32 :=
  match s.call with
  | some k => wireWords s.cfg.addrWidth k.req.desc
  | none => []

/-- The memory a call leaves on which a fault was raised after ACCEPT: REV16 leaves its buffer's bytes unspecified, CRC32 writes none
(60_exceptions.md R191 (d), (e)). -/
def violatedMem (s : State) : Memory :=
  if s.reqOp = opRev16 then scramble (addrLimit s.cfg) s.draws s.reqData.toNat s.reqDlen.toNat s.mem else s.mem

/-- A fault raised on the call in the block after ACCEPT (60_exceptions.md R187, R188): it is recorded, the call has no meaning from there
on, and what it leaves is free values (R191). -/
def violate (reason : FaultReason) (s : State) : State :=
  { s with
    fault := s.fault ++ [⟨reason, callWords s⟩]
    mem := violatedMem s
    ret := Config.freeWord s.draws
    draws := s.draws + 1
    call := s.call.map fun k => { k with status := .violated } }

/-! ### The end of a call -/

/-- Every write of the call is acknowledged (40_call.md R109, 20_memory.md R62). -/
def ackWrites (s : State) : State := { s with unacked := false }

/-- A fault was raised on the call in the block. -/
def isViolated (s : State) : Bool :=
  match s.call with
  | some k => decide (k.status = .violated)
  | none => false

/-- `RET` at COMPLETE (40_call.md R109): the checksum (42_crc32.md R155) or zero (41_rev16.md R140), and a free value when a fault was raised on the
call (60_exceptions.md R191 (b)). -/
def completeRet (s : State) : Word32 :=
  if isViolated s then Config.freeWord s.draws
  else if s.reqOp = opCrc32 then s.c ^^^ 0xFFFFFFFF#32
  else 0x00000000#32

/-- The effect of COMPLETE (40_call.md R109). -/
def complete (s : State) : State :=
  { s with ret := completeRet s, draws := if isViolated s then s.draws + 1 else s.draws, phase := .done }

/-- The response as its requester learns it (30_encoding.md R85, 60_exceptions.md R199). -/
def responseObs (s : State) : List Obs :=
  match s.call with
  | some k => [.response k.req.requester k.req.dst s.ret]
  | none => []

/-- The effect of RESPOND (40_call.md R110). -/
def respond (s : State) : State := { s with obs := responseObs s ++ s.obs, phase := .idle, call := none }

/-- Requester `r`'s variable `v`: the last response it took for it (30_encoding.md R90); 0 where it took none (notes/assumptions/5). -/
def varValue : List Obs → Nat → Nat → Word32
  | [], _, _ => 0#32
  | .response r dst ret :: os, r', v => if r = r' ∧ dst = some v then ret else varValue os r' v
  | .loaded _ _ _ :: os, r', v => varValue os r' v

end Sys2Proof.Machine
end

