-- ==== Sys2Proof/Machine/Crc32.lean ====
section
/-! DEFINITION. The crc32_parallel_engine: CRC32 (42_crc32.md). -/

namespace Sys2Proof.Machine

/-- The polynomial, reflected form (42_crc32.md R153). -/
def crcPoly : Word32 := 0xEDB88320#32

/-- The polynomial, normal form (42_crc32.md R153). -/
def crcPolyNormal : Word32 := 0x04C11DB7#32

/-- `Shift(c)` (42_crc32.md R152). -/
def shift (c : Word32) : Word32 := (c >>> 1) ^^^ (if c.getLsbD 0 then crcPoly else 0x00000000#32)

/-- `Shift^n(c)` (42_crc32.md R152). -/
def shiftN : Nat → Word32 → Word32
  | 0, c => c
  | n + 1, c => shift (shiftN n c)

/-- `ByteStep(c, b)` (42_crc32.md R152). -/
def byteStep (c : Word32) (b : Byte) : Word32 := shiftN 8 (c ^^^ b.zeroExtend 32)

/-- `Raw(c, x)` (42_crc32.md R151). -/
def raw : Word32 → List Byte → Word32
  | c, [] => c
  | c, b :: bs => raw (byteStep c b) bs

/-- `Crc32Ref(x)` (42_crc32.md R151). -/
def crc32Ref (bs : List Byte) : Word32 := raw 0xFFFFFFFF#32 bs ^^^ 0xFFFFFFFF#32

/-- The bytes from `a` on, in ascending order, folded into the accumulator (42_crc32.md R150, R154). -/
def crcFold (m : Memory) : Nat → Nat → Word32 → Word32
  | _, 0, c => c
  | a, n + 1, c => crcFold m (a + 1) n (byteStep c (Memory.read m a))

/-- `Crc32Chunk(data, off, k)` and the advance of `OFF` (42_crc32.md R154, 40_call.md R106). It writes no memory. -/
def crc32Chunk (k : Nat) (s : State) : State :=
  { s with c := crcFold s.mem (cursor s) k s.c, off := s.off + BitVec.ofNat 32 k }

/-- A legal CRC32 call from ACCEPT to COMPLETE as one step (40_call.md R111). -/
def runCrc32 (data : BitVec 64) (dlen : Word32) (s : State) : State :=
  complete (crc32Chunk dlen.toNat (accept opCrc32 data dlen s))

/-- CRC32 (42_crc32.md R150): the request at the head of the port is accepted and run to DONE; a request that cannot be accepted is held as
it is (40_call.md R101). -/
def execCrc32 (data : BitVec 64) (dlen : Word32) (s : State) : Host.Outcome State Fault Refusal :=
  if canAccept s then
    match check s.cfg opCrc32 data.toNat dlen with
    | some reason => .next (rejectCall opCrc32 data dlen reason s)
    | none => .next (runCrc32 data dlen s)
  else .next s

end Sys2Proof.Machine
end

