-- ==== Sys2Proof/Machine/Operands.lean ====
section
/-! DEFINITION. The operands of a request (30_encoding.md R82, R88), and the fetch: the block takes the descriptor at the head of the port to the
decoder. -/

namespace Sys2Proof.Machine

/-- `OP` (30_encoding.md R86). -/
def opOf : Instr → BitVec 2
  | .rev16 _ _ => opRev16
  | .crc32 _ _ => opCrc32

/-- `data` (30_encoding.md R82). -/
def dataOf : Instr → BitVec 64
  | .rev16 data _ => data
  | .crc32 data _ => data

/-- `DLEN`; `dlen` is `(dlenOf i).toInt` (30_encoding.md R88). -/
def dlenOf : Instr → Word32
  | .rev16 _ dlen => dlen
  | .crc32 _ dlen => dlen

/-- The request at the head of the port, decoded. -/
def fetch (s : State) : Decoded := decode s.cfg.addrWidth (headWords s)

/-- A request that does not decode: IllegalRequest, with no access to memory (60_exceptions.md R182, R191 (c)). -/
def rejectIllegal (s : State) : State := reject .illegalRequest s.mem s

/-- The request at the head of the port as it stands on the port. -/
def requestOfWords (ws : List Word32) : Request := ⟨0, none, descriptorOfWords ws⟩

end Sys2Proof.Machine
end

