-- ==== Sys2Proof/Machine/Rev16.lean ====
section
/-! DEFINITION. The byte_reversal_unit: REV16 (41_rev16.md). -/

namespace Sys2Proof.Machine

/-- `Rev16Ref`, for lists of even length (41_rev16.md R131); nothing is said of an odd one (R142). -/
def rev16Ref : List Byte → List Byte
  | b0 :: b1 :: bs => b1 :: b0 :: rev16Ref bs
  | bs => bs

/-- The loop body of 41_rev16.md R130: both bytes of the unit at `a` are read before either is written (R139). -/
def swapUnit (m : Memory) (a : Nat) : Memory :=
  let b0 := Memory.read m a
  let b1 := Memory.read m (a + 1)
  Memory.write (Memory.write m a b1) (a + 1) b0

/-- The units from `a` on, left to right (41_rev16.md R130, R132). -/
def swapUnits : Nat → Nat → Memory → Memory
  | _, 0, m => m
  | a, n + 1, m => swapUnits (a + 2) n (swapUnit m a)

/-- `Rev16Chunk(data, off, k)` and the advance of `OFF` (41_rev16.md R132, 40_call.md R106). Its writes wait for their acknowledgement (R109). -/
def rev16Chunk (k : Nat) (s : State) : State :=
  { s with mem := swapUnits (cursor s) (k / 2) s.mem, off := s.off + BitVec.ofNat 32 k, unacked := true }

/-- A legal REV16 call from ACCEPT to COMPLETE as one step (40_call.md R111). -/
def runRev16 (data : BitVec 64) (dlen : Word32) (s : State) : State :=
  complete (ackWrites (rev16Chunk dlen.toNat (accept opRev16 data dlen s)))

/-- REV16 (41_rev16.md R130): the request at the head of the port is accepted and run to DONE; a request that cannot be accepted is held as
it is (40_call.md R101). -/
def execRev16 (data : BitVec 64) (dlen : Word32) (s : State) : Host.Outcome State Fault Refusal :=
  if canAccept s then
    match check s.cfg opRev16 data.toNat dlen with
    | some reason => .next (rejectCall opRev16 data dlen reason s)
    | none => .next (runRev16 data dlen s)
  else .next s

end Sys2Proof.Machine
end

