-- ==== Sys2Proof/Machine/Agents.lean ====
section
/-! DEFINITION. The steps of the agents (10_state.md R20) one by one: the block's ACCEPT, CHUNK, COMPLETE and RESPOND, the memory's
acknowledgement and error, the requesters' and other agents' accesses, and reset. A step that is not enabled leaves the state as it is. -/

namespace Sys2Proof.Machine

/-! ### The block -/

/-- ACCEPT of the request at the head of the port (40_call.md R102): decoded, checked, and accepted or rejected. -/
def acceptHead (s : State) : State :=
  match fetch s with
  | .reject _ => rejectIllegal s
  | .instr i =>
    match check s.cfg (opOf i) (dataOf i).toNat (dlenOf i) with
    | some reason => rejectCall (opOf i) (dataOf i) (dlenOf i) reason s
    | none => accept (opOf i) (dataOf i) (dlenOf i) s

/-- The move `accept n`. -/
def acceptStep (n : Nat) (s : State) : State :=
  if canAccept s && decide (n < s.pending.length) then acceptHead (grant n s) else s

/-- `chunk_ok(op, OFF, k)` (40_call.md R107). -/
def chunkOk (op : BitVec 2) (k : Nat) : Bool := if op = opRev16 then decide (k % 2 = 0) else true

/-- CHUNK of `k` bytes is enabled (40_call.md R106). -/
def canChunk (k : Nat) (s : State) : Bool :=
  !s.rst && decide (s.phase = .busy) && decide (1 ≤ k) && decide (s.off.toNat + k ≤ s.reqDlen.toNat) && chunkOk s.reqOp k

/-- The chunk function of the latched operation (40_call.md R106). -/
def chunk (k : Nat) (s : State) : State :=
  if s.reqOp = opRev16 then rev16Chunk k s
  else if s.reqOp = opCrc32 then crc32Chunk k s
  else s

/-- The move `chunk k`. -/
def chunkStep (k : Nat) (s : State) : State := if canChunk k s then chunk k s else s

/-- COMPLETE is enabled: every byte processed and every write acknowledged (40_call.md R109). -/
def canComplete (s : State) : Bool :=
  !s.rst && decide (s.phase = .busy) && decide (s.off = s.reqDlen) && !s.unacked

/-- The move `complete`. -/
def completeStep (s : State) : State := if canComplete s then complete s else s

/-- The move `respond` (40_call.md R110, 70_reset_and_hazards.md R210). -/
def respondStep (s : State) : State := if !s.rst && decide (s.phase = .done) then respond s else s

/-! ### The memory -/

/-- The move `writeAck` (40_call.md R109). -/
def writeAckStep (s : State) : State := ackWrites s

/-- An access of the running call to byte `a` can still be answered: the byte is not processed yet, or some write of the call waits for its
acknowledgement (40_call.md R106, R109, R113, 60_exceptions.md R188; notes/assumptions/17). -/
def canBusError (a : Nat) (s : State) : Bool :=
  !s.rst && decide (s.phase = .busy) && inBuffer s a && (decide (cursor s ≤ a) || s.unacked)

/-- The move `busError a`: BusError is recorded, the block stops the call and goes to DONE with an unspecified `RET`
(40_call.md R113, 60_exceptions.md R188). -/
def busErrorStep (a : Nat) (s : State) : State :=
  if canBusError a s then { violate (.busError a) s with phase := .done, unacked := false } else s

/-! ### Requesters and other agents -/

/-- The move `present`: the request is held on the port until the block accepts it (40_call.md R101, 70_reset_and_hazards.md R218); while `rst = 1` it is not
taken (R210, S19). -/
def presentStep (req : Request) (s : State) : State := if s.rst then s else { s with pending := s.pending ++ [req] }

/-- The buffer is borrowed by a call that was accepted and not yet responded to (20_memory.md R60): an access by another agent to byte `a` is forbidden
when the call is REV16, or when it is a write (60_exceptions.md R187). -/
def forbidden (s : State) (a : Nat) (isWrite : Bool) : Bool :=
  match s.call with
  | some k => decide (k.status ≠ .rejected) && inBuffer s a && (decide (s.reqOp = opRev16) || isWrite)
  | none => false

/-- The descriptor is a REV16 request whose buffer holds byte `a` and whose fault at ACCEPT lets the block write that buffer (60_exceptions.md R191 (e)). -/
def openByte (cfg : Config) (a : Nat) : Decoded → Bool
  | .instr (.rev16 data dlen) =>
    decide (data.toNat ≤ a) && decide (a < data.toNat + dlen.toNat) && (check cfg opRev16 data.toNat dlen).any leavesBytes
  | .instr (.crc32 _ _) => false
  | .reject _ => false

/-- Byte `a` is unspecified until RESPOND: the call in the block is REV16, was rejected at ACCEPT as OddLength or InvalidBuffer, and may still be
writing its buffer (60_exceptions.md R191 (e)). An access to it raises no fault (R189), but has no fixed value (notes/assumptions/21). -/
def unsettled (s : State) (a : Nat) : Bool :=
  match s.call with
  | some k => decide (k.status = .rejected) && openByte s.cfg a (decode s.cfg.addrWidth (wireWords s.cfg.addrWidth k.req.desc))
  | none => false

/-- An agent's load of byte `a` of the memory. A forbidden one raises ConcurrentAccess; it, and one of an unsettled byte, returns a free value
(60_exceptions.md R187, R191 (e)). -/
def loadByte (agent a : Nat) (s : State) : State :=
  if forbidden s a false then
    { violate (.concurrentAccess a agent) s with
      obs := .loaded agent a (Config.freeByte (s.draws + 1) a) :: s.obs
      draws := s.draws + 2 }
  else if unsettled s a then
    { s with obs := .loaded agent a (Config.freeByte s.draws a) :: s.obs, draws := s.draws + 1 }
  else { s with obs := .loaded agent a (Memory.read s.mem a) :: s.obs }

/-- An agent's store to byte `a`. A forbidden one raises ConcurrentAccess and has no meaning: the byte is left with a free value
(60_exceptions.md R187; notes/assumptions/11). So is an unsettled byte, which the block may write after the store (R191 (e)). -/
def storeByte (agent a : Nat) (b : Byte) (s : State) : State :=
  if forbidden s a true then
    { violate (.concurrentAccess a agent) s with
      mem := Memory.write (violatedMem s) a (Config.freeByte (s.draws + 1) a)
      draws := s.draws + 2 }
  else if unsettled s a then
    { s with mem := Memory.write s.mem a (Config.freeByte s.draws a), draws := s.draws + 1 }
  else { s with mem := Memory.write s.mem a b }

/-- The move `load`. -/
def loadStep (agent a : Nat) (s : State) : Host.Outcome State Fault Refusal :=
  if a < addrLimit s.cfg then .next (loadByte agent a s) else .fault (.noSuchAddress a)

/-- The move `store` (`st8`). -/
def storeStep (agent a : Nat) (b : Byte) (s : State) : Host.Outcome State Fault Refusal :=
  if a < addrLimit s.cfg then .next (storeByte agent a b s) else .fault (.noSuchAddress a)

/-- Bits 7:0, 15:8, 23:16 and 31:24 of a word stored at `a` to `a + 3` (30_encoding.md R91). DESIGN CHOICE (notes/assumptions/22): four byte stores,
lowest address first, in one step with no other agent's step between them; each byte that falls in a borrowed buffer raises a ConcurrentAccess of its own
(20_memory.md R60), and each other byte is stored as usual. -/
def storeWord (agent a : Nat) (w : Word32) (s : State) : State :=
  storeByte agent (a + 3) (w.extractLsb' 24 8)
    (storeByte agent (a + 2) (w.extractLsb' 16 8)
      (storeByte agent (a + 1) (w.extractLsb' 8 8)
        (storeByte agent a (w.extractLsb' 0 8) s)))

/-- The move `storeVar` (`st32le`). -/
def storeVarStep (agent a var : Nat) (s : State) : Host.Outcome State Fault Refusal :=
  if a + 3 < addrLimit s.cfg then .next (storeWord agent a (varValue s.obs agent var) s)
  else .fault (.noSuchAddress (max a (addrLimit s.cfg)))

/-! ### Reset -/

/-- The buffer of the call in the block as it was at ACCEPT: the first `OFF` bytes are swapped back (70_reset_and_hazards.md R212). -/
def bufferAtAccept (s : State) : List Byte :=
  rev16Ref (Memory.readBytes s.mem s.reqData.toNat s.off.toNat) ++
    Memory.readBytes s.mem (cursor s) (s.reqDlen.toNat - s.off.toNat)

/-- The buffer of the call in the block as 41_rev16.md R131 makes it: the bytes from `OFF` on are still to be swapped. -/
def bufferAtEnd (s : State) : List Byte :=
  Memory.readBytes s.mem s.reqData.toNat s.off.toNat ++
    rev16Ref (Memory.readBytes s.mem (cursor s) (s.reqDlen.toNat - s.off.toNat))

/-- Each byte, independently, its old value or its new one: a free choice (70_reset_and_hazards.md R212 (c)). -/
def drawBytes (draw : Nat) : Nat → List Byte → List Byte → List Byte
  | a, o :: os, n :: ns => (if Config.freeKeepsOld draw a then o else n) :: drawBytes draw (a + 1) os ns
  | _, _, _ => []

/-- The memory a reset leaves (70_reset_and_hazards.md R212): only a REV16 call cut short changes it. The bytes of a call on which a fault was raised
are free values already. -/
def resetMem (s : State) : Memory :=
  match s.call with
  | some k =>
    if k.status = .legal ∧ s.reqOp = opRev16 then
      Memory.writeBytes s.mem s.reqData.toNat (drawBytes s.draws s.reqData.toNat (bufferAtAccept s) (bufferAtEnd s))
    else s.mem
  | none => s.mem

/-- The move `rstAssert`: the reset values of 10_state.md R29; the call gets no response and held requests are dropped (70_reset_and_hazards.md R211, R212).
`FAULT` is not touched. -/
def rstAssertStep (s : State) : State :=
  { s with
    rst := true
    phase := .idle
    reqOp := 0#2
    reqData := 0#64
    reqDlen := 0#32
    off := 0#32
    c := 0xFFFFFFFF#32
    ret := 0x00000000#32
    unacked := false
    pending := []
    call := none
    mem := resetMem s
    draws := s.draws + 1 }

/-- The move `rstRelease` (70_reset_and_hazards.md R213). -/
def rstReleaseStep (s : State) : State := { s with rst := false }

/-! ### Which agent moves -/

/-- The block's own next step where the schedule holds no move: a pending request is run, a running call goes on by one beat at a time, its
writes are acknowledged, it completes, and its response is taken (40_call.md R114). -/
def blockMove (s : State) : Move :=
  if canAccept s then .run (grantFree s)
  else if s.rst then .did (.next s)
  else match s.phase with
    | .idle => .did (.next s)
    | .busy =>
      if s.off.toNat < s.reqDlen.toNat then
        .did (.next (chunkStep (min (beatBytes s.cfg) (s.reqDlen.toNat - s.off.toNat)) s))
      else if s.unacked then .did (.next (writeAckStep s))
      else .did (.next (completeStep s))
    | .done => .did (.next (respondStep s))

/-- The move `e` in the state `t`, from whose schedule it has been taken. -/
def eventMove (e : Event) (t : State) : Move :=
  match e with
  | .call n => if canAccept t && decide (n < t.pending.length) then .run (grant n t) else .did (.next t)
  | .present req => .did (.next (presentStep req t))
  | .accept n => .did (.next (acceptStep n t))
  | .chunk k => .did (.next (chunkStep k t))
  | .writeAck => .did (.next (writeAckStep t))
  | .busError a => .did (.next (busErrorStep a t))
  | .complete => .did (.next (completeStep t))
  | .respond => .did (.next (respondStep t))
  | .load agent a => .did (loadStep agent a t)
  | .store agent a b => .did (storeStep agent a b t)
  | .storeVar agent a v => .did (storeVarStep agent a v t)
  | .rstAssert => .did (.next (rstAssertStep t))
  | .rstRelease => .did (.next (rstReleaseStep t))

/-- What the next step does: the first move of the schedule, or the block's own. -/
def nextMove (s : State) : Move :=
  match s.sched with
  | [] => blockMove s
  | e :: es => eventMove e { s with sched := es }

end Sys2Proof.Machine
end

