-- ==== Sys2Proof/Machine/Datapath.lean ====
section
/-! DEFINITION. The parallel datapath, whose width no result depends on: the swapper's word function (41_rev16.md R134), the table form, the
word law and the beats of the CRC engine (42_crc32.md R158, R160, R161). A beat's byte `i` is in bits `8i+7:8i` (20_memory.md R55). -/

namespace Sys2Proof.Machine

/-- `LE(bytes)`: the number whose byte `i` is the list's (00_scope.md R11). -/
def leNat : List Byte → Nat
  | [] => 0
  | b :: bs => b.toNat + 256 * leNat bs

/-- `LE4(r)`: the four bytes of `r`, least significant first (42_crc32.md R164). -/
def le4 (r : Word32) : List Byte := [r.extractLsb' 0 8, r.extractLsb' 8 8, r.extractLsb' 16 8, r.extractLsb' 24 8]

/-- `MLO`: `lanes` copies of 0x00FF (41_rev16.md R134). -/
def mlo : Nat → Nat
  | 0 => 0
  | lanes + 1 => 0xFF + 65536 * mlo lanes

/-- `SWAP16_W` on a beat word of `lanes = W/2` lanes: `((w & MLO) << 8) | ((w >> 8) & MLO)` (41_rev16.md R134). -/
def swap16 (lanes : Nat) (w : BitVec (16 * lanes)) : BitVec (16 * lanes) :=
  ((w &&& BitVec.ofNat _ (mlo lanes)) <<< 8) ||| ((w >>> 8) &&& BitVec.ofNat _ (mlo lanes))

/-- A list of bytes as a beat word of `lanes` lanes (20_memory.md R55). -/
def beatWord (lanes : Nat) (bs : List Byte) : BitVec (16 * lanes) := BitVec.ofNat _ (leNat bs)

/-- `T[i] = Shift^8(i)` (42_crc32.md R158). -/
def crcTable (i : Byte) : Word32 := shiftN 8 (i.zeroExtend 32)

/-- `ByteStep` by the table (42_crc32.md R158). -/
def byteStepTable (c : Word32) (b : Byte) : Word32 := crcTable ((c ^^^ b.zeroExtend 32).extractLsb' 0 8) ^^^ (c >>> 8)

/-- Up to four bytes folded at once: `Shift^(8k)(c ^ LE(bytes))` (42_crc32.md R161). -/
def foldWord (c : Word32) (bs : List Byte) : Word32 := shiftN (8 * bs.length) (c ^^^ BitVec.ofNat 32 (leNat bs))

/-- A beat of any size: the word law on successive groups of four bytes, lowest addresses first (42_crc32.md R161). -/
def crcBeat : Word32 → List Byte → Word32
  | c, b0 :: b1 :: b2 :: b3 :: bs => crcBeat (foldWord c [b0, b1, b2, b3]) bs
  | c, bs => foldWord c bs

/-- The engine on at most `fuel` beats of at most `w` bytes (42_crc32.md R160). -/
def crcBeats (w : Nat) : Nat → Word32 → List Byte → Word32
  | 0, c, _ => c
  | fuel + 1, c, bs => if bs.isEmpty then c else crcBeats w fuel (crcBeat c (bs.take w)) (bs.drop w)

/-- The crc32_parallel_engine over a byte list, `w` bytes a beat (42_crc32.md R160). -/
def crcEngine (w : Nat) (c : Word32) (bs : List Byte) : Word32 := crcBeats w bs.length c bs

end Sys2Proof.Machine
end

