-- ==== Sys2Proof/Machine/Dispatch.lean ====
section
/-! DEFINITION. exec: the meaning of each operation, one arm per constructor of Instr. -/

namespace Sys2Proof.Machine

/-- Run the call of the request at the head of the port, whose descriptor says `i`, from ACCEPT to COMPLETE (40_call.md R111). -/
def exec (i : Instr) (s : State) : Host.Outcome State Fault Refusal :=
  match i with
  | .rev16 data dlen => Sys2Proof.Machine.execRev16 data dlen s
  | .crc32 data dlen => Sys2Proof.Machine.execCrc32 data dlen s

end Sys2Proof.Machine
end

