-- ==== Sys2Proof/Machine/Step.lean ====
section
/-! DEFINITION. The step of the machine: one transition of one agent (00_scope.md R12). -/

namespace Sys2Proof.Machine

/-- The call of the request at the head of the port: decoded and run, or rejected as IllegalRequest (40_call.md R103). -/
def runHead (s : State) : Host.Outcome State Fault Refusal :=
  match fetch s with
  | .instr i => exec i s
  | .reject _ => .next (rejectIllegal s)

/-- One step: the next move of `nextMove`. -/
def step (s : State) : Host.Outcome State Fault Refusal :=
  match nextMove s with
  | .run t => runHead t
  | .did o => o

/-- `s` with the request whose descriptor bits are `w` alone on the port, the block idle and no other move to come: the next step
runs that request (notes/assumptions/12). -/
def State.withFetchWord (s : State) (nbits w : Nat) : State :=
  { s with
    rst := false
    phase := .idle
    call := none
    sched := []
    pending := [requestOfWords (wordsOfBits (descriptorWords s.cfg.addrWidth) (w % 2 ^ nbits))] }

end Sys2Proof.Machine
end

