-- ==== Sys2Proof/Safety.lean ====
section
/-! DEFINITION. What claims are stated in: a legal call (40_call.md R103), a run without faults (10_state.md R31), the invariants of the block, and what
"the same but for hidden state" means (00_scope.md R3). -/

namespace Sys2Proof.Machine

/-- The contract of a call (40_call.md R103, 00_scope.md R8): the length is not negative, and even for REV16; the buffer ends at or below `2^ADDR_W`;
and every byte of it satisfies `MemValid`. -/
abbrev Legal (cfg : Config) (op : BitVec 2) (data : Nat) (dlen : Word32) : Prop :=
  0 ≤ dlen.toInt ∧ (op = opRev16 → dlen.toInt % 2 = 0) ∧ (0 < dlen.toInt → data + dlen.toInt ≤ addrLimit cfg) ∧
    ∀ k < dlen.toNat, memValid cfg (kindOf op) (data + k) = true

/-- The premise of every claim about a run: `FAULT` is empty (10_state.md R31). -/
abbrev FaultFree (s : State) : Prop := s.fault = []

/-- The memory is canonical and lists no address outside the address space (20_memory.md R50). -/
abbrev MemInv (s : State) : Prop := Memory.wf s.mem = true ∧ Memory.below (addrLimit s.cfg) s.mem = true

/-- The phase, the call in the block, reset and the outstanding writes agree (10_state.md R25, 70_reset_and_hazards.md R210, 40_call.md R109). -/
abbrev PhaseInv (s : State) : Prop :=
  (s.phase = .idle ↔ s.call = none) ∧
  (s.rst = true → s.phase = .idle ∧ s.pending = []) ∧
  (s.unacked = true → s.phase = .busy ∧ s.reqOp = opRev16) ∧
  (∀ k ∈ s.call, s.phase = .busy → k.status ≠ .rejected) ∧
  (∀ k ∈ s.call, s.phase = .done → k.status = .legal → s.off = s.reqDlen)

/-- The latched request met the contract, and `OFF` lies in it (40_call.md R103, R107, R115). -/
abbrev RequestInv (s : State) : Prop :=
  (s.reqOp = opRev16 ∨ s.reqOp = opCrc32) ∧
  Legal s.cfg s.reqOp s.reqData.toNat s.reqDlen ∧
  s.reqData.toNat < addrLimit s.cfg ∧
  s.off.toNat ≤ s.reqDlen.toNat ∧
  (s.reqOp = opRev16 → s.off.toNat % 2 = 0)

/-- The latched request as an instruction (40_call.md R102). -/
def latchedInstr (s : State) : Instr :=
  if s.reqOp = opRev16 then .rev16 s.reqData s.reqDlen else .crc32 s.reqData s.reqDlen

/-- The latched request of an accepted call is what its descriptor says (40_call.md R102). -/
abbrev LatchInv (s : State) : Prop :=
  ∀ k ∈ s.call, k.status ≠ .rejected →
    decode s.cfg.addrWidth (wireWords s.cfg.addrWidth k.req.desc) = .instr (latchedInstr s)

/-- The invariant of the machine that every step keeps. -/
abbrev BlockInv (s : State) : Prop := MemInv s ∧ PhaseInv s ∧ RequestInv s ∧ LatchInv s

/-- What `C` and `RET` hold while a call has a meaning (40_call.md R102, R109, 42_crc32.md R151, R155, 41_rev16.md R140): `C` is `Raw` of the bytes
processed so far, as memory holds them now, and at DONE `RET` is the reference result. -/
abbrev ResultInv (s : State) : Prop :=
  ∀ k ∈ s.call, k.status = .legal →
    (s.reqOp = opCrc32 → s.phase = .busy →
      s.c = raw 0xFFFFFFFF#32 (Memory.readBytes s.mem s.reqData.toNat s.off.toNat)) ∧
    (s.reqOp = opCrc32 → s.phase = .done →
      s.ret = crc32Ref (Memory.readBytes s.mem s.reqData.toNat s.reqDlen.toNat)) ∧
    (s.reqOp = opRev16 → s.phase = .done → s.ret = 0x00000000#32)

/-- Two states an agent cannot tell apart (10_state.md R26): they may differ in the call-scoped registers of 10_state.md R24 only. -/
abbrev SameVisible (s t : State) : Prop :=
  t = { s with reqOp := t.reqOp, reqData := t.reqData, reqDlen := t.reqDlen, off := t.off, c := t.c, ret := t.ret }

/-- Two states no agent can tell apart now or later (10_state.md R26, 40_call.md R112): the hidden registers may differ while the block is idle, and, but for
`RET`, while it holds a rejected call, which reads none of them. -/
abbrev SameToAgents (s t : State) : Prop :=
  SameVisible s t ∧
    (s.phase ≠ .idle → t.ret = s.ret ∧ (t = s ∨ (s.phase = .done ∧ ∀ k ∈ s.call, k.status = .rejected)))

/-- Where a step `s` to `t` accepts a call, its buffer begins at its value in memory (20_memory.md R61): a REV16 buffer is to become `Rev16Ref` of it, and a
CRC32 buffer is not touched. -/
abbrev BufferBegins (s t : State) : Prop :=
  s.call = none → ∀ k ∈ t.call, k.status = .legal →
    (t.reqOp = opRev16 →
      bufferAtAccept t = Memory.readBytes s.mem t.reqData.toNat t.reqDlen.toNat ∧
      bufferAtEnd t = rev16Ref (Memory.readBytes s.mem t.reqData.toNat t.reqDlen.toNat)) ∧
    (t.reqOp = opCrc32 →
      Memory.readBytes t.mem t.reqData.toNat t.reqDlen.toNat = Memory.readBytes s.mem t.reqData.toNat t.reqDlen.toNat)

/-- A step `s` to `t` that leaves a legal call in the block keeps its request, what its buffer was at ACCEPT, and what it is to become
(20_memory.md R60). -/
abbrev BufferKept (s t : State) : Prop :=
  ∀ k, s.call = some k → t.call = some k → k.status = .legal →
    t.reqOp = s.reqOp ∧ t.reqData = s.reqData ∧ t.reqDlen = s.reqDlen ∧
    (s.reqOp = opRev16 → bufferAtAccept t = bufferAtAccept s ∧ bufferAtEnd t = bufferAtEnd s) ∧
    (s.reqOp = opCrc32 →
      Memory.readBytes t.mem s.reqData.toNat s.reqDlen.toNat = Memory.readBytes s.mem s.reqData.toNat s.reqDlen.toNat)

/-- At DONE the buffer of a legal REV16 call holds what it was to become (20_memory.md R62). -/
abbrev BufferEnds (t : State) : Prop :=
  ∀ k ∈ t.call, k.status = .legal → t.phase = .done → t.reqOp = opRev16 →
    Memory.readBytes t.mem t.reqData.toNat t.reqDlen.toNat = bufferAtEnd t

/-- `n` steps, stopping at the first fault or refusal. -/
def runSteps : Nat → State → Host.Outcome State Fault Refusal
  | 0, s => .next s
  | n + 1, s =>
    match step s with
    | .next t => runSteps n t
    | .fault r => .fault r
    | .refused r => .refused r

/-- Byte `a` lies outside the buffer `[data, data+n)`. -/
abbrev OutsideBuffer (data n a : Nat) : Prop := a < data ∨ data + n ≤ a

end Sys2Proof.Machine
end

