-- ==== Sys2Proof/Certificates/Slice0/Obligations.lean ====
section
/-! DEFINITION. The statements about the machine, for the provers. Each docstring names the rules of spec/ it formalises. -/

open Sys2Proof Sys2Proof.Machine

/-! ### Encoding and fetch -/

/-- A few descriptors written out from 30_encoding.md R81, R86 and the programs of 95_test_vectors.md decode to the request they stand for. The last
clause, a list of another length, is the model's choice: no request on the port has one (notes/assumptions/15). -/
def Obligations.WrittenOutWordsDecode : Prop :=
  decode .w32 [0x00000000#32, 0x00000004#32, 0x00001000#32] = .instr (.rev16 0x1000#64 4#32) ∧
  decode .w32 [0x00000001#32, 0x0000000D#32, 0x00003001#32] = .instr (.crc32 0x3001#64 13#32) ∧
  decode .w64 [0x00000001#32, 0x00000009#32, 0x00001000#32, 0x00000002#32] = .instr (.crc32 0x200001000#64 9#32) ∧
  decode .w32 [0x80000001#32, 0x00000004#32, 0x00001000#32] = .reject .illegalRequest ∧
  decode .w64 [0x00000001#32, 0x00000009#32, 0x00001000#32] = .reject .wrongLength

/-- 30_encoding.md R81, R86: decoding the encoding of a well-formed request gives it back, for both address widths. -/
def Obligations.DecodeEncodeRoundTrip : Prop :=
  ∀ (aw : AddrWidth) (i : Instr), wellFormed aw i = true → decode aw (encode aw i) = .instr i

/-- 30_encoding.md R81, R86, R89: a list of words that decodes is the encoding of what it decodes to, and that request is well formed. -/
def Obligations.DecodedWordsAreTheEncoding : Prop :=
  ∀ (aw : AddrWidth) (ws : List Word32) (i : Instr), decode aw ws = .instr i → encode aw i = ws ∧ wellFormed aw i = true

/-- 30_encoding.md R87, R82: the descriptors rejected as illegal are exactly those with OP 2 or 3 or a nonzero CTRL[31:2], and every other one decodes to
the operation of OP with its own operands. -/
def Obligations.IllegalExactlyByCtrl : Prop :=
  ∀ (aw : AddrWidth) (d : Descriptor),
    (decode aw (wireWords aw d) = .reject .illegalRequest ↔
      d.ctrl.extractLsb' 0 2 = 2#2 ∨ d.ctrl.extractLsb' 0 2 = 3#2 ∨ d.ctrl.extractLsb' 2 30 ≠ 0#30) ∧
    (¬ (d.ctrl.extractLsb' 0 2 = 2#2 ∨ d.ctrl.extractLsb' 0 2 = 3#2 ∨ d.ctrl.extractLsb' 2 30 ≠ 0#30) →
      ∃ i, decode aw (wireWords aw d) = .instr i ∧ opOf i = d.ctrl.extractLsb' 0 2 ∧ dlenOf i = d.dlen ∧
        (dataOf i).extractLsb' 0 32 = d.dataLo ∧ (dataOf i).extractLsb' 32 32 = (if aw = .w64 then d.dataHi else 0#32))

/-- 60_exceptions.md R182, R191 (a), (b), (c): a request whose CTRL matches no row is IllegalRequest, recorded with its descriptor; no memory is
touched, and the block is DONE with a free RET. That the call-scoped registers keep their values is the model's reading (notes/assumptions/10), and that
the block moves by itself when the schedule is empty is the model's choice (notes/assumptions/1). -/
def Obligations.IllegalRequestIsRecorded : Prop :=
  ∀ (s : State) (r : Request), s.sched = [] → s.rst = false → s.phase = .idle → s.pending = [r] →
    (r.desc.ctrl.extractLsb' 0 2 = 2#2 ∨ r.desc.ctrl.extractLsb' 0 2 = 3#2 ∨ r.desc.ctrl.extractLsb' 2 30 ≠ 0#30) →
    step s = .next { s with
      fault := s.fault ++ [⟨.illegalRequest, wireWords s.cfg.addrWidth r.desc⟩]
      ret := Config.freeWord s.draws
      draws := s.draws + 1
      phase := .done
      call := some ⟨r, .rejected⟩
      pending := [] }

/-- 40_call.md R101, R111: a step runs the decoded request at the head of the port: with one request pending and no other move to come; with the
move `call n`, the n-th request, brought to the head of the port; and with several requests and no move, one of them. The schedule, and the
block's own move when it is empty, are the model's (notes/assumptions/1). -/
def Obligations.StepRunsTheDecodedRequest : Prop :=
  ∀ (s : State) (i : Instr), s.rst = false → s.phase = .idle →
    (∀ r, s.sched = [] → s.pending = [r] → fetch s = .instr i → step s = exec i s) ∧
    (∀ n es, s.sched = .call n :: es → n < s.pending.length → fetch (grant n { s with sched := es }) = .instr i →
      step s = exec i (grant n { s with sched := es })) ∧
    (s.sched = [] → s.pending ≠ [] → fetch (grantFree s) = .instr i → step s = exec i (grantFree s))

/-! ### The contract check at ACCEPT -/

/-- 60_exceptions.md R184, R191 (b), (c): a negative length is NegativeLength for either operation, whatever else is wrong with the call. That the
call-scoped registers keep their values is the model's reading (notes/assumptions/10). -/
def Obligations.NegativeLengthFaults : Prop :=
  ∀ (s : State) (r : Request) (rest : List Request) (data : BitVec 64) (dlen : Word32),
    s.rst = false → s.phase = .idle → s.pending = r :: rest → dlen.toInt < 0 →
    ∀ i, i = .rev16 data dlen ∨ i = .crc32 data dlen →
      exec i s = .next { s with
        fault := s.fault ++ [⟨.negativeLength, wireWords s.cfg.addrWidth r.desc⟩]
        ret := Config.freeWord s.draws
        draws := s.draws + 1
        phase := .done
        call := some ⟨r, .rejected⟩
        pending := rest }

/-- 60_exceptions.md R185, R191 (d), (e): an odd length that is not negative is OddLength for REV16; its buffer's bytes are free values, every other byte
is unchanged; CRC32 never records OddLength. That the call-scoped registers keep their values is the model's reading (notes/assumptions/10). -/
def Obligations.OddLengthFaultsRev16Only : Prop :=
  (∀ (s : State) (r : Request) (rest : List Request) (data : BitVec 64) (dlen : Word32),
    s.rst = false → s.phase = .idle → s.pending = r :: rest → Memory.wf s.mem = true → 0 ≤ dlen.toInt → dlen.toInt % 2 = 1 →
    ∃ m, exec (.rev16 data dlen) s = .next { s with
        fault := s.fault ++ [⟨.oddLength, wireWords s.cfg.addrWidth r.desc⟩]
        mem := m
        ret := Config.freeWord s.draws
        draws := s.draws + 1
        phase := .done
        call := some ⟨r, .rejected⟩
        pending := rest } ∧
      (∀ a, OutsideBuffer data.toNat dlen.toNat a → Memory.read m a = Memory.read s.mem a) ∧
      (∀ a, ¬ OutsideBuffer data.toNat dlen.toNat a → a < addrLimit s.cfg → Memory.read m a = Config.freeByte s.draws a)) ∧
  (∀ (s t : State) (data : BitVec 64) (dlen : Word32), exec (.crc32 data dlen) s = .next t →
    t.fault = s.fault ∨ ∃ e, t.fault = s.fault ++ [e] ∧ e.reason ≠ .oddLength)

/-- 60_exceptions.md R183, R191 (c): a range that runs past 2^ADDR_W is RangeWrap, and no memory is touched; one that ends at 2^ADDR_W or below
never is. That the call-scoped registers keep their values is the model's reading (notes/assumptions/10). -/
def Obligations.RangeWrapFaults : Prop :=
  (∀ (s : State) (r : Request) (rest : List Request) (data : BitVec 64) (dlen : Word32),
    s.rst = false → s.phase = .idle → s.pending = r :: rest → 0 < dlen.toInt → data.toNat + dlen.toInt > addrLimit s.cfg →
    ∀ i, (i = .rev16 data dlen ∧ dlen.toInt % 2 = 0) ∨ i = .crc32 data dlen →
      exec i s = .next { s with
        fault := s.fault ++ [⟨.rangeWrap, wireWords s.cfg.addrWidth r.desc⟩]
        ret := Config.freeWord s.draws
        draws := s.draws + 1
        phase := .done
        call := some ⟨r, .rejected⟩
        pending := rest }) ∧
  (∀ (s t : State) (i : Instr), (dlenOf i).toInt ≤ 0 ∨ (dataOf i).toNat + (dlenOf i).toInt ≤ addrLimit s.cfg →
    exec i s = .next t → t.fault = s.fault ∨ ∃ e, t.fault = s.fault ++ [e] ∧ e.reason ≠ .rangeWrap)

/-- 60_exceptions.md R186, R180, R191 (b), (d), (e): a call whose other checks pass and some byte of whose buffer fails MemValid for its kind is
InvalidBuffer, recorded with the lowest failing address; CRC32 leaves memory alone, REV16 leaves its buffer's bytes with free values and every byte outside
the buffer alone. That the call-scoped registers keep their values is the model's reading (notes/assumptions/10). -/
def Obligations.InvalidBufferFaults : Prop :=
  ∀ (s : State) (r : Request) (rest : List Request) (i : Instr) (a : Nat),
    s.rst = false → s.phase = .idle → s.pending = r :: rest →
    0 < (dlenOf i).toInt → (opOf i = opRev16 → (dlenOf i).toInt % 2 = 0) → (dataOf i).toNat + (dlenOf i).toInt ≤ addrLimit s.cfg →
    (dataOf i).toNat ≤ a → a < (dataOf i).toNat + (dlenOf i).toNat → memValid s.cfg (kindOf (opOf i)) a = false →
    (∀ b, (dataOf i).toNat ≤ b → b < a → memValid s.cfg (kindOf (opOf i)) b = true) →
    ∃ m, exec i s = .next { s with
        fault := s.fault ++ [⟨.invalidBuffer a, wireWords s.cfg.addrWidth r.desc⟩]
        mem := m
        ret := Config.freeWord s.draws
        draws := s.draws + 1
        phase := .done
        call := some ⟨r, .rejected⟩
        pending := rest } ∧
      (opOf i = opCrc32 → m = s.mem) ∧
      (opOf i = opRev16 → Memory.wf s.mem = true →
        ∀ b, ¬ OutsideBuffer (dataOf i).toNat (dlenOf i).toNat b → Memory.read m b = Config.freeByte s.draws b) ∧
      (∀ b, OutsideBuffer (dataOf i).toNat (dlenOf i).toNat b → Memory.read m b = Memory.read s.mem b)

/-- 60_exceptions.md R183, R184, R185, R186, R189: a call that the block can accept is checked at ACCEPT for either operation, records the first
check that fails with its descriptor, an invalid buffer with its lowest failing address, and records nothing when it meets the contract. -/
def Obligations.TheFirstFailingCheckIsRecorded : Prop :=
  ∀ (s : State) (i : Instr), canAccept s = true →
    ∃ t, exec i s = .next t ∧
      ((dlenOf i).toInt < 0 → t.fault = s.fault ++ [⟨.negativeLength, headWords s⟩]) ∧
      (0 ≤ (dlenOf i).toInt → opOf i = opRev16 → (dlenOf i).toInt % 2 = 1 → t.fault = s.fault ++ [⟨.oddLength, headWords s⟩]) ∧
      (0 < (dlenOf i).toInt → (opOf i = opRev16 → (dlenOf i).toInt % 2 = 0) →
        ((dataOf i).toNat + (dlenOf i).toInt > addrLimit s.cfg → t.fault = s.fault ++ [⟨.rangeWrap, headWords s⟩]) ∧
        (∀ a, (dataOf i).toNat + (dlenOf i).toInt ≤ addrLimit s.cfg → (dataOf i).toNat ≤ a → a < (dataOf i).toNat + (dlenOf i).toNat →
          memValid s.cfg (kindOf (opOf i)) a = false → (∀ b, (dataOf i).toNat ≤ b → b < a → memValid s.cfg (kindOf (opOf i)) b = true) →
          t.fault = s.fault ++ [⟨.invalidBuffer a, headWords s⟩])) ∧
      (Legal s.cfg (opOf i) (dataOf i).toNat (dlenOf i) → t.fault = s.fault)

/-- 40_call.md R101, 93_implementation_defined.md S18, S19: a request presented out of reset lands on the port behind those already there, whatever the
phase; while the block is not idle, or in reset, or has no request, exec leaves everything as it is; and no step drops, changes or answers a held request
of a block that is not idle, but for reset. -/
def Obligations.RequestsAreHeldWhileBusy : Prop :=
  (∀ (s : State) (req : Request) (es : List Event), s.sched = .present req :: es → s.rst = false →
    step s = .next { s with pending := s.pending ++ [req], sched := es }) ∧
  (∀ (s : State) (i : Instr), s.rst = true ∨ s.phase ≠ .idle ∨ s.pending = [] → exec i s = .next s) ∧
  (∀ (s t : State), s.phase ≠ .idle → s.sched.head? ≠ some .rstAssert → step s = .next t → s.pending <+: t.pending)

/-- 60_exceptions.md R199, 93_implementation_defined.md S12, 40_call.md R111: the arbiter may choose any pending request; the call in the block is the chosen
one and the others stay pending in their order. The move `call n` is the model's (notes/assumptions/1), and that a chosen request which ACCEPT rejects goes
to DONE in that step is the model's reading of R191 (notes/assumptions/10). -/
def Obligations.ArbiterMayChooseAnyRequest : Prop :=
  ∀ (s : State) (n : Nat) (r : Request) (es : List Event), s.sched = .call n :: es → s.rst = false → s.phase = .idle →
    s.pending[n]? = some r →
    ∃ t k, step s = .next t ∧ t.call = some k ∧ k.req = r ∧ t.pending = s.pending.eraseIdx n ∧ t.sched = es ∧ t.phase = .done

/-! ### REV16 -/

/-- 41_rev16.md R131: Rev16Ref of a list of even length has its length and swaps the bytes at 2k and 2k+1. -/
def Obligations.Rev16RefSwapsUnits : Prop :=
  ∀ (x : List Byte), x.length % 2 = 0 → (rev16Ref x).length = x.length ∧
    ∀ k, k < x.length / 2 → (rev16Ref x)[2 * k]? = x[2 * k + 1]? ∧ (rev16Ref x)[2 * k + 1]? = x[2 * k]?

/-- 41_rev16.md R130, R131, R140, 20_memory.md R51: a legal REV16 call completes; its buffer holds Rev16Ref of what it held, every other byte is
unchanged, RET is 0, and nothing but the call-scoped state, the port and the buffer changes. -/
def Obligations.Rev16CompletesWithItsResult : Prop :=
  ∀ (s : State) (r : Request) (rest : List Request) (data : BitVec 64) (dlen : Word32),
    s.rst = false → s.phase = .idle → s.pending = r :: rest → Memory.wf s.mem = true → Legal s.cfg opRev16 data.toNat dlen →
    ∃ m, exec (.rev16 data dlen) s = .next { s with
        reqOp := opRev16
        reqData := data
        reqDlen := dlen
        off := dlen
        c := 0xFFFFFFFF#32
        ret := 0x00000000#32
        phase := .done
        unacked := false
        call := some ⟨r, .legal⟩
        pending := rest
        mem := m } ∧
      Memory.readBytes m data.toNat dlen.toNat = rev16Ref (Memory.readBytes s.mem data.toNat dlen.toNat) ∧
      (∀ a, OutsideBuffer data.toNat dlen.toNat a → Memory.read m a = Memory.read s.mem a)

/-- 41_rev16.md R138: REV16 with length zero completes for any data, with RET 0, and changes nothing in memory. -/
def Obligations.Rev16OfLengthZero : Prop :=
  ∀ (s : State) (r : Request) (rest : List Request) (data : BitVec 64),
    s.rst = false → s.phase = .idle → s.pending = r :: rest →
    exec (.rev16 data 0#32) s = .next { s with
        reqOp := opRev16
        reqData := data
        reqDlen := 0#32
        off := 0#32
        c := 0xFFFFFFFF#32
        ret := 0x00000000#32
        phase := .done
        unacked := false
        call := some ⟨r, .legal⟩
        pending := rest }

/-- 41_rev16.md R136: Rev16Ref is its own inverse on lists of even length, and two REV16 calls over one buffer, with no write between them, restore
the memory. -/
def Obligations.Rev16IsAnInvolution : Prop :=
  (∀ x : List Byte, x.length % 2 = 0 → rev16Ref (rev16Ref x) = x) ∧
  (∀ (s t u v : State) (data : BitVec 64) (dlen : Word32), canAccept s = true → Memory.wf s.mem = true →
    Legal s.cfg opRev16 data.toNat dlen → exec (.rev16 data dlen) s = .next t →
    canAccept u = true → u.cfg = s.cfg → u.mem = t.mem → exec (.rev16 data dlen) u = .next v → v.mem = s.mem)

/-- 41_rev16.md R137: Rev16Ref works inside each unit and keeps the multiset of bytes, and REV16 over a buffer is REV16 over its two parts, cut at
any even offset, one after the other. -/
def Obligations.Rev16IsLocal : Prop :=
  (∀ x y : List Byte, x.length % 2 = 0 → rev16Ref (x ++ y) = rev16Ref x ++ rev16Ref y) ∧
  (∀ x : List Byte, (rev16Ref x).Perm x) ∧
  (∀ (s u t₁ t₂ t : State) (data : BitVec 64) (m dlen : Word32), canAccept s = true → Memory.wf s.mem = true →
    Legal s.cfg opRev16 data.toNat dlen → m.toNat % 2 = 0 → m.toNat ≤ dlen.toNat →
    exec (.rev16 data m) s = .next t₁ →
    canAccept u = true → u.cfg = s.cfg → u.mem = t₁.mem →
    exec (.rev16 (data + m.zeroExtend 64) (dlen - m)) u = .next t₂ →
    exec (.rev16 data dlen) s = .next t → t.mem = t₂.mem)

/-- 41_rev16.md R134, 20_memory.md R55: each lane of SWAP16_W holds the lane of the beat with its two bytes exchanged, and on the word of a beat's bytes
it gives the word of the bytes after REV16, for every width. -/
def Obligations.SwapperLanesExchangeBytes : Prop :=
  ∀ (lanes : Nat),
    (∀ (w : BitVec (16 * lanes)) (j : Nat), j < lanes →
      (swap16 lanes w).extractLsb' (16 * j) 8 = w.extractLsb' (16 * j + 8) 8 ∧
      (swap16 lanes w).extractLsb' (16 * j + 8) 8 = w.extractLsb' (16 * j) 8) ∧
    (∀ x : List Byte, x.length = 2 * lanes → swap16 lanes (beatWord lanes x) = beatWord lanes (rev16Ref x))

/-! ### CRC32 -/

/-- 42_crc32.md R150, R151, R155, R157: a legal CRC32 call completes with RET = Crc32Ref of its buffer; memory is unchanged, and nothing but
the call-scoped state and the port changes. -/
def Obligations.Crc32CompletesWithItsResult : Prop :=
  ∀ (s : State) (r : Request) (rest : List Request) (data : BitVec 64) (dlen : Word32),
    s.rst = false → s.phase = .idle → s.pending = r :: rest → Legal s.cfg opCrc32 data.toNat dlen →
    exec (.crc32 data dlen) s = .next { s with
        reqOp := opCrc32
        reqData := data
        reqDlen := dlen
        off := dlen
        c := raw 0xFFFFFFFF#32 (Memory.readBytes s.mem data.toNat dlen.toNat)
        ret := crc32Ref (Memory.readBytes s.mem data.toNat dlen.toNat)
        phase := .done
        unacked := false
        call := some ⟨r, .legal⟩
        pending := rest }

/-- 42_crc32.md R156: CRC32 with length zero completes for any data with RET 0x00000000. -/
def Obligations.Crc32OfLengthZero : Prop :=
  ∀ (s : State) (r : Request) (rest : List Request) (data : BitVec 64),
    s.rst = false → s.phase = .idle → s.pending = r :: rest →
    exec (.crc32 data 0#32) s = .next { s with
        reqOp := opCrc32
        reqData := data
        reqDlen := 0#32
        off := 0#32
        c := 0xFFFFFFFF#32
        ret := 0x00000000#32
        phase := .done
        unacked := false
        call := some ⟨r, .legal⟩
        pending := rest }

/-- 42_crc32.md R157, 20_memory.md R52: CRC32 writes no memory: not as one step, whatever its operands, and not while a CRC32 call is in the block, in any
step that is no store of another agent. -/
def Obligations.Crc32WritesNoMemory : Prop :=
  (∀ (s t : State) (data : BitVec 64) (dlen : Word32), exec (.crc32 data dlen) s = .next t → t.mem = s.mem) ∧
  (∀ (s t : State), s.phase ≠ .idle → s.reqOp = opCrc32 → step s = .next t →
    (∀ agent a b, s.sched.head? ≠ some (.store agent a b)) → (∀ agent a v, s.sched.head? ≠ some (.storeVar agent a v)) →
    t.mem = s.mem)

/-- 42_crc32.md R153, 95_test_vectors.md V-S3, V-S9: every legal CRC32 call over the ASCII bytes "123456789" returns the check value, and the two forms
of the polynomial are each other's bit reversal. -/
def Obligations.CrcCheckValue : Prop :=
  (∀ (s : State) (data : BitVec 64), canAccept s = true → Legal s.cfg opCrc32 data.toNat 9#32 →
    Memory.readBytes s.mem data.toNat 9 = [0x31#8, 0x32#8, 0x33#8, 0x34#8, 0x35#8, 0x36#8, 0x37#8, 0x38#8, 0x39#8] →
    ∃ t, exec (.crc32 data 9#32) s = .next t ∧ t.ret = 0xCBF43926#32) ∧
  crcPolyNormal.reverse = crcPoly ∧ crcPoly = 0xEDB88320#32

/-- 42_crc32.md R158: the table form of ByteStep, and the table's entries the rule lists. -/
def Obligations.ByteStepByTable : Prop :=
  (∀ (c : Word32) (b : Byte), byteStep c b = byteStepTable c b) ∧
  crcTable 0#8 = 0x00000000#32 ∧ crcTable 1#8 = 0x77073096#32 ∧ crcTable 2#8 = 0xEE0E612C#32 ∧
  crcTable 128#8 = 0xEDB88320#32 ∧ crcTable 255#8 = 0x2D02EF8D#32

/-- 42_crc32.md R159: Shift and its powers are linear, so that for each n, Shift^n is the sum of its values on the bits of its argument. -/
def Obligations.ShiftIsLinear : Prop :=
  (∀ a b : Word32, shift (a ^^^ b) = shift a ^^^ shift b) ∧
  (∀ (n : Nat) (a b : Word32), shiftN n (a ^^^ b) = shiftN n a ^^^ shiftN n b) ∧
  (∀ (n : Nat) (c : Word32), shiftN n c =
    (List.range 32).foldl (fun acc i => if c.getLsbD i then acc ^^^ shiftN n (BitVec.twoPow 32 i) else acc) 0#32)

/-- 42_crc32.md R160: Raw over a list is Raw over its parts in turn, and the engine gives Raw for every beat width. -/
def Obligations.GroupingDoesNotMatter : Prop :=
  (∀ (c : Word32) (x₁ x₂ : List Byte), raw c (x₁ ++ x₂) = raw (raw c x₁) x₂) ∧
  (∀ (w : Nat) (c : Word32) (x : List Byte), 0 < w → crcEngine w c x = raw c x)

/-- 42_crc32.md R161: the word law for one to four bytes; for longer beats on successive groups of four, eight bytes written out; and the one-step form
fails for some beat of five bytes. -/
def Obligations.WordLaw : Prop :=
  (∀ (c : Word32) (x : List Byte), 1 ≤ x.length → x.length ≤ 4 → raw c x = foldWord c x) ∧
  (∀ (c : Word32) (x : List Byte), raw c x = crcBeat c x) ∧
  (∀ (c : Word32) (x y : List Byte), x.length = 4 → y.length = 4 →
    raw c (x ++ y) = shiftN 32 (shiftN 32 (c ^^^ BitVec.ofNat 32 (leNat x)) ^^^ BitVec.ofNat 32 (leNat y))) ∧
  (∃ (c : Word32) (x : List Byte), x.length = 5 ∧ raw c x ≠ foldWord c x)

/-- 42_crc32.md R162: two calls over identical contents return identical RET, whatever data, platform or call history. -/
def Obligations.Crc32IsAFunctionOfTheBytes : Prop :=
  ∀ (s s' : State) (data data' : BitVec 64) (dlen : Word32), canAccept s = true → canAccept s' = true →
    Legal s.cfg opCrc32 data.toNat dlen → Legal s'.cfg opCrc32 data'.toNat dlen →
    (∀ k, k < dlen.toNat → Memory.read s.mem (data.toNat + k) = Memory.read s'.mem (data'.toNat + k)) →
    ∃ t t', exec (.crc32 data dlen) s = .next t ∧ exec (.crc32 data' dlen) s' = .next t' ∧ t.ret = t'.ret

/-- 42_crc32.md R163: flipping any one bit of a byte list changes its checksum; the difference is Shift of the flipped bit by the bytes that follow. -/
def Obligations.OneFlippedBitChangesTheChecksum : Prop :=
  ∀ (x y : List Byte) (b : Byte) (p : Nat), p < 8 →
    crc32Ref (x ++ (b ^^^ BitVec.twoPow 8 p) :: y) ≠ crc32Ref (x ++ b :: y) ∧
    ∀ c, raw c (x ++ (b ^^^ BitVec.twoPow 8 p) :: y) ^^^ raw c (x ++ b :: y) =
      shiftN (8 * (y.length + 1)) ((BitVec.twoPow 8 p : Byte).zeroExtend 32)

/-- 42_crc32.md R164: the residue of a message followed by its own checksum, before and after the final XOR. -/
def Obligations.ResidueOfAMessageWithItsChecksum : Prop :=
  ∀ m : List Byte, raw 0xFFFFFFFF#32 (m ++ le4 (crc32Ref m)) = 0xDEBB20E3#32 ∧ crc32Ref (m ++ le4 (crc32Ref m)) = 0x2144DF1C#32

/-! ### The lifecycle -/

/-- 40_call.md R102, R105: ACCEPT of a legal request, whichever the arbiter has chosen, latches it, resets OFF, C and RET, goes to BUSY, and reads and
writes no memory. -/
def Obligations.AcceptLatchesTheRequest : Prop :=
  ∀ (s : State) (n : Nat) (r : Request) (i : Instr) (es : List Event),
    s.sched = .accept n :: es → s.rst = false → s.phase = .idle → s.pending[n]? = some r →
    decode s.cfg.addrWidth (wireWords s.cfg.addrWidth r.desc) = .instr i →
    Legal s.cfg (opOf i) (dataOf i).toNat (dlenOf i) →
    step s = .next { s with
      reqOp := opOf i
      reqData := dataOf i
      reqDlen := dlenOf i
      off := 0#32
      c := 0xFFFFFFFF#32
      ret := 0x00000000#32
      phase := .busy
      unacked := false
      call := some ⟨r, .legal⟩
      pending := s.pending.eraseIdx n
      sched := es }

/-- 40_call.md R102, R103, 60_exceptions.md R182, R189, R191 (a), (b), (c): ACCEPT of a request that fails the contract leaves exactly what running it as one step
leaves, which the statements of the checks give; and one that does not decode is IllegalRequest by either move, with no memory access and a free RET. The
moves are the model's (notes/assumptions/1), and that the call-scoped registers keep their values is its reading (notes/assumptions/10). -/
def Obligations.AcceptRejectsAsTheOneStepCallDoes : Prop :=
  ∀ (s : State) (n : Nat) (r : Request) (es : List Event), s.rst = false → s.phase = .idle → s.pending[n]? = some r →
    (∀ i, decode s.cfg.addrWidth (wireWords s.cfg.addrWidth r.desc) = .instr i →
      ¬ Legal s.cfg (opOf i) (dataOf i).toNat (dlenOf i) →
      step { s with sched := .accept n :: es } = step { s with sched := .call n :: es } ∧
      step { s with sched := .accept n :: es } = exec i { s with pending := r :: s.pending.eraseIdx n, sched := es }) ∧
    (∀ e mv, decode s.cfg.addrWidth (wireWords s.cfg.addrWidth r.desc) = .reject e → (mv = .accept n ∨ mv = .call n) →
      step { s with sched := mv :: es } = .next { s with
        fault := s.fault ++ [⟨.illegalRequest, wireWords s.cfg.addrWidth r.desc⟩]
        ret := Config.freeWord s.draws
        draws := s.draws + 1
        phase := .done
        call := some ⟨r, .rejected⟩
        pending := s.pending.eraseIdx n
        sched := es })

/-- 41_rev16.md R132, 40_call.md R106: an allowed REV16 chunk swaps the units at offsets OFF to OFF+k-1, leaves every other byte alone and advances OFF by k. -/
def Obligations.Rev16ChunkSwapsItsUnits : Prop :=
  ∀ (s : State) (k : Nat) (es : List Event), s.sched = .chunk k :: es → s.reqOp = opRev16 → canChunk k s = true →
    Memory.wf s.mem = true →
    ∃ m, step s = .next { s with mem := m, off := s.off + BitVec.ofNat 32 k, unacked := true, sched := es } ∧
      (s.off + BitVec.ofNat 32 k).toNat = s.off.toNat + k ∧
      Memory.readBytes m (cursor s) k = rev16Ref (Memory.readBytes s.mem (cursor s) k) ∧
      (∀ a, OutsideBuffer (cursor s) k a → Memory.read m a = Memory.read s.mem a)

/-- 42_crc32.md R154, 40_call.md R106: an allowed CRC32 chunk folds its k bytes into C in ascending order, writes no memory and advances OFF by k. -/
def Obligations.Crc32ChunkFoldsItsBytes : Prop :=
  ∀ (s : State) (k : Nat) (es : List Event), s.sched = .chunk k :: es → s.reqOp = opCrc32 → canChunk k s = true →
    step s = .next { s with
      c := raw s.c (Memory.readBytes s.mem (cursor s) k)
      off := s.off + BitVec.ofNat 32 k
      sched := es } ∧
    (s.off + BitVec.ofNat 32 k).toNat = s.off.toNat + k

/-- 40_call.md R109, 60_exceptions.md R191 (b): COMPLETE waits for the last byte and for every acknowledgement, and then sets RET and DONE; RET is a free value when
a fault was raised on the call. -/
def Obligations.CompleteSetsRet : Prop :=
  ∀ (s : State) (es : List Event), s.sched = .complete :: es → s.rst = false → s.phase = .busy →
    (∀ k, s.call = some k → s.off = s.reqDlen → s.unacked = false →
      (k.status = .legal → s.reqOp = opCrc32 →
        step s = .next { s with ret := s.c ^^^ 0xFFFFFFFF#32, phase := .done, sched := es }) ∧
      (k.status = .legal → s.reqOp = opRev16 →
        step s = .next { s with ret := 0x00000000#32, phase := .done, sched := es }) ∧
      (k.status = .violated →
        step s = .next { s with ret := Config.freeWord s.draws, draws := s.draws + 1, phase := .done, sched := es })) ∧
    (s.off ≠ s.reqDlen ∨ s.unacked = true → step s = .next { s with sched := es })

/-- 40_call.md R110, 60_exceptions.md R199, R195: RESPOND delivers RET to the requester that issued the call, after a faulted call as after a legal one; the
block is IDLE and the buffer's borrow is over. -/
def Obligations.RespondDeliversRet : Prop :=
  ∀ (s : State) (k : Call) (es : List Event), s.call = some k → s.rst = false → s.phase = .done → s.sched = .respond :: es →
    ∃ t, step s = .next t ∧
      t = { s with obs := .response k.req.requester k.req.dst s.ret :: s.obs, phase := .idle, call := none, sched := es } ∧
      ∀ a isWrite, forbidden t a isWrite = false

/-- 10_state.md R25, 40_call.md R110, R111, R113: the phases change only as the lifecycle says: IDLE to BUSY by ACCEPT, or to DONE by a call run as one step or
rejected; BUSY to DONE by COMPLETE or by a bus error; DONE to IDLE by RESPOND, which delivers the response; any to IDLE by reset. That a rejected call goes
from IDLE to DONE is the model's reading of 60_exceptions.md R191 (notes/assumptions/10): R25 does not list it. -/
def Obligations.PhasesChangeAsTheLifecycleSays : Prop :=
  ∀ s t : State, step s = .next t → t.phase = s.phase ∨
    (s.phase = .idle ∧ s.rst = false ∧ t.phase = .busy ∧ ∃ n, s.sched.head? = some (.accept n)) ∨
    (s.phase = .idle ∧ s.rst = false ∧ t.phase = .done ∧
      ∃ k, t.call = some k ∧ ((k.status = .legal ∧ t.fault = s.fault) ∨ (k.status = .rejected ∧ t.fault ≠ s.fault))) ∨
    (s.phase = .busy ∧ s.rst = false ∧ t.phase = .done ∧
      ((s.off = s.reqDlen ∧ s.unacked = false) ∨ ∃ a, s.sched.head? = some (.busError a) ∧ t.fault ≠ s.fault)) ∨
    (s.phase = .done ∧ s.rst = false ∧ t.phase = .idle ∧ t.call = none ∧
      ∀ k, s.call = some k → t.obs = .response k.req.requester k.req.dst s.ret :: s.obs) ∨
    (t.phase = .idle ∧ s.sched.head? = some .rstAssert)

/-- 40_call.md R108, R111: a legal call run step by step, however its length is cut into allowed chunks, ends in exactly the state that running it as one
step ends in. -/
def Obligations.StepByStepEqualsOneStep : Prop :=
  ∀ (s : State) (r : Request) (rest : List Request) (i : Instr) (ks : List Nat) (es : List Event),
    s.rst = false → s.phase = .idle → s.pending = r :: rest → fetch s = .instr i →
    Legal s.cfg (opOf i) (dataOf i).toNat (dlenOf i) →
    (∀ k ∈ ks, 1 ≤ k ∧ chunkOk (opOf i) k = true) → ks.sum = (dlenOf i).toNat →
    s.sched = .accept 0 :: (ks.map Event.chunk ++ [.writeAck, .complete]) ++ es →
    runSteps (ks.length + 3) s = exec i { s with sched := es }

/-- 20_memory.md R63: a legal call whose response is taken is atomic: after it memory is memory at ACCEPT with the buffer replaced by its reference
result, and the response carries the reference value of the buffer at ACCEPT. -/
def Obligations.ALegalCallIsAtomic : Prop :=
  ∀ (s : State) (r : Request) (rest : List Request) (i : Instr) (es : List Event), s.rst = false → s.phase = .idle →
    s.sched = .call 0 :: .respond :: es → s.pending = r :: rest →
    Memory.wf s.mem = true → fetch s = .instr i → Legal s.cfg (opOf i) (dataOf i).toNat (dlenOf i) →
    ∃ t, runSteps 2 s = .next t ∧ t.phase = .idle ∧ t.call = none ∧ t.pending = rest ∧ t.fault = s.fault ∧
      (∀ data dlen, i = .rev16 data dlen →
        t.obs = .response r.requester r.dst 0x00000000#32 :: s.obs ∧
        Memory.readBytes t.mem data.toNat dlen.toNat = rev16Ref (Memory.readBytes s.mem data.toNat dlen.toNat) ∧
        ∀ a, OutsideBuffer data.toNat dlen.toNat a → Memory.read t.mem a = Memory.read s.mem a) ∧
      (∀ data dlen, i = .crc32 data dlen →
        t.obs = .response r.requester r.dst (crc32Ref (Memory.readBytes s.mem data.toNat dlen.toNat)) :: s.obs ∧ t.mem = s.mem)

/-- 40_call.md R110, R114, 60_exceptions.md R191 (a), 70_reset_and_hazards.md R222: from any state the invariant allows in which a call is running and nothing
interferes, the block reaches DONE without a fault in at most DLEN chunk steps, one acknowledgement and COMPLETE; and a block in DONE, after a legal call
or a faulted one, has its response taken in one step and is IDLE. The block's own moves when the schedule is empty are the model's choice
(notes/assumptions/1, 18). -/
def Obligations.ARunningCallReachesDone : Prop :=
  (∀ s : State, BlockInv s → s.rst = false → s.phase = .busy → s.sched = [] →
    ∃ n t, n ≤ s.reqDlen.toNat + 2 ∧ runSteps n s = .next t ∧ t.phase = .done ∧ t.fault = s.fault) ∧
  (∀ (s : State) (k : Call), s.call = some k → s.rst = false → s.phase = .done → s.sched = [] →
    step s = .next { s with obs := .response k.req.requester k.req.dst s.ret :: s.obs, phase := .idle, call := none })

/-- 40_call.md R115: while a call is running no address, offset or counter wraps: each byte's address exists, OFF lies in 0..dlen, and an allowed chunk advances it
exactly. -/
def Obligations.SequencerArithmeticIsExact : Prop :=
  ∀ s : State, RequestInv s → 0 ≤ s.reqDlen.toInt ∧ s.reqDlen.toInt ≤ 2 ^ 31 - 1 ∧ s.off.toNat ≤ s.reqDlen.toNat ∧
    (∀ j, j < s.reqDlen.toNat → s.reqData.toNat + j ≤ addrLimit s.cfg - 1) ∧
    (∀ k, canChunk k s = true → (chunk k s).off.toNat = s.off.toNat + k ∧ (chunk k s).off.toNat ≤ s.reqDlen.toNat)

/-! ### Faults after ACCEPT -/

/-- 60_exceptions.md R180, R187, R191 (b), (d), (e), 20_memory.md R60: between ACCEPT and RESPOND of a call that passed ACCEPT, another agent's load of a byte of a
REV16 buffer, and its store to a byte of either buffer, is ConcurrentAccess, recorded with the address and the agent. RET is then free, a REV16 buffer
holds free values, a forbidden load answers one, and no byte outside the buffer changes; CRC32 itself writes no byte, and a load of its buffer is allowed
and changes nothing. That a forbidden store leaves a free value in its own byte, and that the running call goes on with the status `violated`, is the
model's reading (notes/assumptions/11, 13). -/
def Obligations.ForbiddenAccessesFault : Prop :=
  ∀ (s : State) (k : Call) (agent a : Nat) (es : List Event), s.call = some k → k.status ≠ .rejected → inBuffer s a = true →
    a < addrLimit s.cfg →
    (s.sched = .load agent a :: es → s.reqOp = opRev16 →
      ∃ m, step s = .next { s with
          fault := s.fault ++ [⟨.concurrentAccess a agent, wireWords s.cfg.addrWidth k.req.desc⟩]
          mem := m
          ret := Config.freeWord s.draws
          draws := s.draws + 2
          call := some ⟨k.req, .violated⟩
          obs := .loaded agent a (Config.freeByte (s.draws + 1) a) :: s.obs
          sched := es } ∧
        (∀ b, OutsideBuffer s.reqData.toNat s.reqDlen.toNat b → Memory.read m b = Memory.read s.mem b) ∧
        (Memory.wf s.mem = true → ∀ b, inBuffer s b = true → b < addrLimit s.cfg → Memory.read m b = Config.freeByte s.draws b)) ∧
    (∀ v, s.sched = .store agent a v :: es →
      ∃ m, step s = .next { s with
          fault := s.fault ++ [⟨.concurrentAccess a agent, wireWords s.cfg.addrWidth k.req.desc⟩]
          mem := m
          ret := Config.freeWord s.draws
          draws := s.draws + 2
          call := some ⟨k.req, .violated⟩
          sched := es } ∧
        (∀ b, OutsideBuffer s.reqData.toNat s.reqDlen.toNat b → Memory.read m b = Memory.read s.mem b) ∧
        (Memory.wf s.mem = true → Memory.read m a = Config.freeByte (s.draws + 1) a) ∧
        (Memory.wf s.mem = true → s.reqOp = opRev16 →
          ∀ b, inBuffer s b = true → b ≠ a → b < addrLimit s.cfg → Memory.read m b = Config.freeByte s.draws b) ∧
        (s.reqOp = opCrc32 → ∀ b, b ≠ a → Memory.read m b = Memory.read s.mem b)) ∧
    (s.sched = .load agent a :: es → s.reqOp = opCrc32 →
      step s = .next { s with obs := .loaded agent a (Memory.read s.mem a) :: s.obs, sched := es })

/-- 60_exceptions.md R187, R191 (b), (d), (e), 30_encoding.md R91: st32le while a call that passed ACCEPT is in the block is four byte stores: each byte in the
borrowed buffer is a ConcurrentAccess of its own, lowest address first, and is left with a free value; each other byte is stored; RET is then free, and a
REV16 buffer holds free values. That it is four stores in one step is the model's choice (notes/assumptions/22), and that a forbidden store leaves a free
value and the call goes on is its reading (notes/assumptions/11, 13). -/
def Obligations.ForbiddenWordStoresFaultByteByByte : Prop :=
  ∀ (s : State) (k : Call) (agent a v : Nat) (es : List Event), s.call = some k → k.status ≠ .rejected → a + 3 < addrLimit s.cfg →
    Memory.wf s.mem = true → s.sched = .storeVar agent a v :: es → (∃ j, j < 4 ∧ inBuffer s (a + j) = true) →
    ∃ m d, s.draws ≤ d ∧ d < s.draws + 2 * ((List.range 4).filter fun j => inBuffer s (a + j)).length ∧ step s = .next { s with
        fault := s.fault ++ ((List.range 4).filter fun j => inBuffer s (a + j)).map fun j =>
          ⟨.concurrentAccess (a + j) agent, wireWords s.cfg.addrWidth k.req.desc⟩
        mem := m
        ret := Config.freeWord d
        draws := s.draws + 2 * ((List.range 4).filter fun j => inBuffer s (a + j)).length
        call := some ⟨k.req, .violated⟩
        sched := es } ∧
      (∀ b, OutsideBuffer s.reqData.toNat s.reqDlen.toNat b → OutsideBuffer a 4 b → Memory.read m b = Memory.read s.mem b) ∧
      (∀ j, j < 4 → inBuffer s (a + j) = false → some (Memory.read m (a + j)) = (le4 (varValue s.obs agent v))[j]?) ∧
      (∀ j, j < 4 → inBuffer s (a + j) = true → ∃ d', s.draws ≤ d' ∧ Memory.read m (a + j) = Config.freeByte d' (a + j)) ∧
      (s.reqOp = opRev16 → ∀ b, inBuffer s b = true → b < addrLimit s.cfg → ∃ d', s.draws ≤ d' ∧ Memory.read m b = Config.freeByte d' b) ∧
      (s.reqOp = opCrc32 → ∀ b, OutsideBuffer a 4 b → Memory.read m b = Memory.read s.mem b)

/-- 20_memory.md R60, R61: outside a borrowed buffer, and outside the buffer of a rejected REV16 call that is not responded to yet, agents load what
memory holds, and a store is performed at its own step, so that every later read sees it; st32le stores the four bytes of a variable, least significant
first (30_encoding.md R91). That a store is performed at once rests on REQ_ORDERED (notes/assumptions/8); that bytes which fail MemValid act as memory too
is presumed (notes/assumptions/16); and the value of a variable that took no response (notes/assumptions/5) and that st32le stores its four bytes in one
step (notes/assumptions/22) are the model's choices. -/
def Obligations.OtherAccessesArePlain : Prop :=
  ∀ (s : State) (agent a : Nat) (es : List Event), Memory.wf s.mem = true → a < addrLimit s.cfg →
    (s.sched = .load agent a :: es → forbidden s a false = false → unsettled s a = false →
      step s = .next { s with obs := .loaded agent a (Memory.read s.mem a) :: s.obs, sched := es }) ∧
    (∀ v, s.sched = .store agent a v :: es → forbidden s a true = false → unsettled s a = false →
      ∃ m, step s = .next { s with mem := m, sched := es } ∧
        ∀ b, Memory.read m b = if b = a then v else Memory.read s.mem b) ∧
    (∀ v, s.sched = .storeVar agent a v :: es → (∀ j, j < 4 → forbidden s (a + j) true = false ∧ unsettled s (a + j) = false) →
      a + 3 < addrLimit s.cfg →
      ∃ m, step s = .next { s with mem := m, sched := es } ∧
        Memory.readBytes m a 4 = le4 (varValue s.obs agent v) ∧
        ∀ b, OutsideBuffer a 4 b → Memory.read m b = Memory.read s.mem b)

/-- 60_exceptions.md R191 (e), R189: until its response, the buffer of a REV16 call rejected as OddLength or InvalidBuffer holds unspecified bytes: another
agent's load of one answers a free value, and a store to one leaves a free value there, and nothing else changes; neither raises a fault. That such a
store is not assumed to last is the model's reading (notes/assumptions/21). -/
def Obligations.RejectedRev16BytesAreUnspecified : Prop :=
  ∀ (s : State) (k : Call) (data : BitVec 64) (dlen : Word32) (reason : FaultReason) (agent a : Nat) (es : List Event),
    s.call = some k → k.status = .rejected →
    decode s.cfg.addrWidth (wireWords s.cfg.addrWidth k.req.desc) = .instr (.rev16 data dlen) →
    check s.cfg opRev16 data.toNat dlen = some reason → (reason = .oddLength ∨ ∃ b, reason = .invalidBuffer b) →
    data.toNat ≤ a → a < data.toNat + dlen.toNat → a < addrLimit s.cfg → Memory.wf s.mem = true →
    (s.sched = .load agent a :: es →
      step s = .next { s with obs := .loaded agent a (Config.freeByte s.draws a) :: s.obs, draws := s.draws + 1, sched := es }) ∧
    (∀ v, s.sched = .store agent a v :: es →
      ∃ m, step s = .next { s with mem := m, draws := s.draws + 1, sched := es } ∧
        ∀ b, Memory.read m b = if b = a then Config.freeByte s.draws a else Memory.read s.mem b)

/-- 20_memory.md R50; notes/assumptions/9, 22 (the model's choice): an access of an agent to an address outside the ADDR_W-bit space stops the machine, and an
st32le of which only some bytes exist stops it too, with the lowest address that does not exist and no byte stored. -/
def Obligations.AccessesOutsideTheSpaceStop : Prop :=
  ∀ (s : State) (agent a : Nat) (es : List Event),
    (addrLimit s.cfg ≤ a →
      (s.sched = .load agent a :: es → step s = .fault (.noSuchAddress a)) ∧
      (∀ v, s.sched = .store agent a v :: es → step s = .fault (.noSuchAddress a)) ∧
      (∀ v, s.sched = .storeVar agent a v :: es → step s = .fault (.noSuchAddress a))) ∧
    (a < addrLimit s.cfg → addrLimit s.cfg ≤ a + 3 → ∀ v, s.sched = .storeVar agent a v :: es →
      step s = .fault (.noSuchAddress (addrLimit s.cfg)))

/-- 60_exceptions.md R188, 40_call.md R113: an error on an access of the running call, to a byte it has not processed or while some write of it
is not acknowledged (notes/assumptions/17, the model's reading), is BusError, recorded with the address; the block goes to DONE with an
unspecified RET, touches no byte outside the buffer, and none at all for CRC32, and leaves the bytes of a REV16 buffer with free values (R191 (b), (d),
(e)). -/
def Obligations.BusErrorEndsTheCall : Prop :=
  ∀ (s : State) (k : Call) (a : Nat) (es : List Event), s.sched = .busError a :: es → s.call = some k → s.rst = false →
    s.phase = .busy → s.reqData.toNat ≤ a → a < s.reqData.toNat + s.reqDlen.toNat →
    (s.reqData.toNat + s.off.toNat ≤ a ∨ s.unacked = true) →
    ∃ m, step s = .next { s with
        fault := s.fault ++ [⟨.busError a, wireWords s.cfg.addrWidth k.req.desc⟩]
        mem := m
        ret := Config.freeWord s.draws
        draws := s.draws + 1
        phase := .done
        unacked := false
        call := some ⟨k.req, .violated⟩
        sched := es } ∧
      (s.reqOp = opCrc32 → m = s.mem) ∧
      (s.reqOp = opRev16 → Memory.wf s.mem = true →
        ∀ b, inBuffer s b = true → b < addrLimit s.cfg → Memory.read m b = Config.freeByte s.draws b) ∧
      (∀ b, OutsideBuffer s.reqData.toNat s.reqDlen.toNat b → Memory.read m b = Memory.read s.mem b)

/-- 60_exceptions.md R192, 10_state.md R31: no step clears or changes an entry of the fault record. -/
def Obligations.FaultRecordOnlyGrows : Prop :=
  ∀ s t : State, step s = .next t → s.fault <+: t.fault

/-- 60_exceptions.md R191 (c), (d), 20_memory.md R51: whether it is legal or not, a call run as one step changes no byte outside its buffer, and none at all when its length is
negative. -/
def Obligations.ExecChangesOnlyItsBuffer : Prop :=
  ∀ (s t : State) (i : Instr), exec i s = .next t →
    (∀ a, OutsideBuffer (dataOf i).toNat (dlenOf i).toNat a → Memory.read t.mem a = Memory.read s.mem a) ∧
    ((dlenOf i).toInt < 0 → t.mem = s.mem)

/-! ### Reset -/

/-- 70_reset_and_hazards.md R211, 10_state.md R29: after a reset step the registers, the phase and the port have their reset values, there is no response, and FAULT is untouched;
and the state after reset has an empty record. -/
def Obligations.ResetLeavesTheResetValues : Prop :=
  (∀ (s : State) (es : List Event), s.sched = .rstAssert :: es →
    ∃ t, step s = .next t ∧ t.phase = .idle ∧ t.reqOp = 0#2 ∧ t.reqData = 0#64 ∧ t.reqDlen = 0#32 ∧ t.off = 0#32 ∧
      t.c = 0xFFFFFFFF#32 ∧ t.ret = 0#32 ∧ t.pending = [] ∧ t.call = none ∧ pendingResponse t = none ∧ t.fault = s.fault) ∧
  State.reset.phase = .idle ∧ State.reset.reqOp = 0#2 ∧ State.reset.reqData = 0#64 ∧ State.reset.reqDlen = 0#32 ∧
  State.reset.off = 0#32 ∧ State.reset.c = 0xFFFFFFFF#32 ∧ State.reset.ret = 0#32 ∧ State.reset.pending = [] ∧
  pendingResponse State.reset = none ∧ State.reset.fault = []

/-- 70_reset_and_hazards.md R210, R213, 10_state.md R29, 93_implementation_defined.md S19: the reset step asserts rst; while rst is asserted the block accepts no
request, delivers no response and accesses no memory: a step that is no agent's access and no release leaves the port, the phase, memory and the
observations as they are; the release clears rst and changes nothing else, and the first request presented after it is accepted at once. That rst is a
level with two moves, and that a request presented while it is asserted is not kept on the port, is the model's reading of R29 (notes/assumptions/3). -/
def Obligations.NothingHappensInReset : Prop :=
  (∀ (s : State) (es : List Event), s.sched = .rstAssert :: es → ∃ t, step s = .next t ∧ t.rst = true ∧ t.sched = es) ∧
  (∀ s t : State, PhaseInv s → s.rst = true → step s = .next t →
    t.phase = .idle ∧ t.pending = [] ∧ t.fault = s.fault ∧ (t.rst = false → s.sched.head? = some .rstRelease) ∧
    ((∀ agent a, s.sched.head? ≠ some (.load agent a)) → t.obs = s.obs) ∧
    ((∀ agent a b, s.sched.head? ≠ some (.store agent a b)) → (∀ agent a v, s.sched.head? ≠ some (.storeVar agent a v)) → t.mem = s.mem)) ∧
  (∀ (s : State) (es : List Event), s.sched = .rstRelease :: es → step s = .next { s with rst := false, sched := es }) ∧
  (∀ (s : State) (r : Request) (i : Instr) (es : List Event), s.phase = .idle → s.pending = [] →
    decode s.cfg.addrWidth (wireWords s.cfg.addrWidth r.desc) = .instr i → Legal s.cfg (opOf i) (dataOf i).toNat (dlenOf i) →
    s.sched = .rstRelease :: .present r :: .accept 0 :: es →
    ∃ t, runSteps 3 s = .next t ∧ t.phase = .busy ∧ t.call = some ⟨r, .legal⟩ ∧ t.pending = [] ∧ t.rst = false)

/-- 70_reset_and_hazards.md R212: a REV16 call cut short by reset, in BUSY or in DONE, whatever chunks, acknowledgements and COMPLETE came before or when it ran
as one step, leaves each byte of its buffer with its value at ACCEPT or its final value under Rev16Ref, and no other byte changed; no response comes. -/
def Obligations.ResetCutsRev16PerByte : Prop :=
  ∀ (s : State) (r : Request) (rest : List Request) (data : BitVec 64) (dlen : Word32) (start : Event) (ms es : List Event),
    s.rst = false → s.phase = .idle → s.pending = r :: rest → Memory.wf s.mem = true →
    fetch s = .instr (.rev16 data dlen) → Legal s.cfg opRev16 data.toNat dlen →
    (start = .accept 0 ∨ start = .call 0) →
    (∀ e ∈ ms, e = .writeAck ∨ e = .complete ∨ ∃ k, e = .chunk k) →
    s.sched = start :: (ms ++ .rstAssert :: es) →
    ∃ t, runSteps (ms.length + 2) s = .next t ∧ t.phase = .idle ∧ t.pending = [] ∧ t.call = none ∧ t.obs = s.obs ∧ t.fault = s.fault ∧
      (∀ j, j < dlen.toNat →
        some (Memory.read t.mem (data.toNat + j)) = (Memory.readBytes s.mem data.toNat dlen.toNat)[j]? ∨
        some (Memory.read t.mem (data.toNat + j)) = (rev16Ref (Memory.readBytes s.mem data.toNat dlen.toNat))[j]?) ∧
      (∀ a, OutsideBuffer data.toNat dlen.toNat a → Memory.read t.mem a = Memory.read s.mem a)

/-- 70_reset_and_hazards.md R212 (b), (c), (d): a reset changes memory only inside the buffer of a REV16 call in the block, and leaves each byte of a REV16 call's
buffer on which no fault was raised with its value at ACCEPT or its final value, from every state the invariant allows, other agents' accesses before it
or not. -/
def Obligations.ResetTouchesOnlyARev16Buffer : Prop :=
  ∀ (s : State) (es : List Event), BlockInv s → s.sched = .rstAssert :: es →
    ∃ t, step s = .next t ∧
      (s.call = none ∨ s.reqOp = opCrc32 → t.mem = s.mem) ∧
      (∀ a, OutsideBuffer s.reqData.toNat s.reqDlen.toNat a → Memory.read t.mem a = Memory.read s.mem a) ∧
      (∀ k, s.call = some k → k.status = .legal → s.reqOp = opRev16 → ∀ j, j < s.reqDlen.toNat →
        some (Memory.read t.mem (s.reqData.toNat + j)) = (bufferAtAccept s)[j]? ∨
        some (Memory.read t.mem (s.reqData.toNat + j)) = (bufferAtEnd s)[j]?)

/-! ### The whole machine -/

/-- The block's invariant holds after reset. -/
def Obligations.BlockInvariantAtReset : Prop := BlockInv State.reset ∧ ResultInv State.reset

/-- 10_state.md R25, 40_call.md R103, R107, R115, 20_memory.md R50: every step keeps the block's invariant: memory is canonical and inside the address space, the phase agrees with the call
and with reset, the latched request is the accepted descriptor and meets the contract, and OFF lies in it on a unit boundary. -/
def Obligations.EveryStepKeepsTheBlockInvariant : Prop :=
  ∀ s t : State, BlockInv s → step s = .next t → BlockInv t

/-- 42_crc32.md R151, R155, R160, 41_rev16.md R131, R140, 20_memory.md R60, R61: every step keeps what C, RET and the buffer mean: while a call has no fault, C is
Raw of the bytes processed so far as memory holds them, and at DONE RET is the reference result of the buffer as memory holds it; and whatever other agents
do between its steps, a REV16 buffer stays on its way from its value at ACCEPT to Rev16Ref of it, and a CRC32 buffer stays what it was at ACCEPT. -/
def Obligations.EveryStepKeepsTheMeaningOfCAndRet : Prop :=
  ∀ s t : State, BlockInv s → ResultInv s → step s = .next t → ResultInv t ∧ BufferBegins s t ∧ BufferKept s t ∧ BufferEnds t

/-- 20_memory.md R51, R52, R53: a byte of memory changes only by an agent's store to it, or inside the buffer of a REV16 request that is or was in the block. -/
def Obligations.MemoryChangesOnlyInARev16Buffer : Prop :=
  ∀ (s t : State) (a : Nat), BlockInv s → step s = .next t → Memory.read t.mem a ≠ Memory.read s.mem a →
    (∃ agent b, s.sched.head? = some (.store agent a b)) ∨
    (∃ agent x v, s.sched.head? = some (.storeVar agent x v) ∧ x ≤ a ∧ a < x + 4) ∨
    (∃ k data dlen, (s.call = some k ∨ t.call = some k) ∧
      decode s.cfg.addrWidth (wireWords s.cfg.addrWidth k.req.desc) = .instr (.rev16 data dlen) ∧
      data.toNat ≤ a ∧ a < data.toNat + dlen.toNat)

/-- 00_scope.md R3, 10_state.md R26, 40_call.md R112, 60_exceptions.md R191 (f): nothing of an earlier call shows: two states that differ only in the hidden registers of
an idle block, or of one that holds a rejected call with the same RET, step to two such states again, so that no later response or byte differs. -/
def Obligations.NoStateBetweenCalls : Prop :=
  ∀ s s' t : State, PhaseInv s → SameToAgents s s' → step s = .next t → ∃ t', step s' = .next t' ∧ SameToAgents t t'

/-- 00_scope.md R3, R13: the outcome of a legal call depends on the request and the bytes of its buffer only: whatever else differs, RET and the buffer's new bytes are
the same. -/
def Obligations.OutcomeDependsOnRequestAndBuffer : Prop :=
  ∀ (s s' : State) (i : Instr), canAccept s = true → canAccept s' = true → Memory.wf s.mem = true → Memory.wf s'.mem = true →
    Legal s.cfg (opOf i) (dataOf i).toNat (dlenOf i) → Legal s'.cfg (opOf i) (dataOf i).toNat (dlenOf i) →
    Memory.readBytes s.mem (dataOf i).toNat (dlenOf i).toNat = Memory.readBytes s'.mem (dataOf i).toNat (dlenOf i).toNat →
    ∃ t t', exec i s = .next t ∧ exec i s' = .next t' ∧ t.ret = t'.ret ∧
      Memory.readBytes t.mem (dataOf i).toNat (dlenOf i).toNat = Memory.readBytes t'.mem (dataOf i).toNat (dlenOf i).toNat

/-- 00_scope.md R7, 10_state.md R26: no step changes the platform's parameters or takes back what an agent has learnt. That the parameters are state no step
changes, and that what agents learn is a list of the model's, are the model's choices (notes/assumptions/6, 5). -/
def Obligations.ParametersStayAndObservationsOnlyGrow : Prop :=
  ∀ s t : State, step s = .next t → t.cfg = s.cfg ∧ s.obs <:+ t.obs
end

