-- ==== Sys2Proof/Laws/Check.lean ====
section
/-! SUPPORT. What the contract check of 40_call.md R103 answers, and when. -/

namespace Sys2Proof.Machine

theorem firstInvalid_eq_none (cfg : Config) (k : AccessKind) : ∀ {a n : Nat},
    firstInvalid cfg k a n = none ↔ ∀ j < n, memValid cfg k (a + j) = true
  | _, 0 => by simp [firstInvalid]
  | a, n + 1 => by
    unfold firstInvalid
    split
    · next h =>
      rw [firstInvalid_eq_none cfg k]
      refine ⟨fun hn j hj => ?_, fun hn j hj => ?_⟩
      · rcases j with _ | j
        · exact h
        · simpa [Nat.add_assoc, Nat.add_comm 1 j] using hn j (by omega)
      · simpa [Nat.add_assoc, Nat.add_comm 1 j] using hn (j + 1) (by omega)
    · next h => exact ⟨fun hn => by simp at hn, fun hn => absurd (hn 0 (by omega)) (by simpa using h)⟩

/-- The address found is the lowest one of the range where `MemValid` fails (60_exceptions.md R180). -/
theorem firstInvalid_eq_some (cfg : Config) (k : AccessKind) : ∀ {a n x : Nat},
    firstInvalid cfg k a n = some x ↔ a ≤ x ∧ x < a + n ∧ memValid cfg k x = false ∧ ∀ y, a ≤ y → y < x → memValid cfg k y = true
  | a, 0, x => by simp [firstInvalid]; omega
  | a, n + 1, x => by
    unfold firstInvalid
    split
    · next h =>
      rw [firstInvalid_eq_some cfg k]
      refine ⟨fun ⟨h₁, h₂, h₃, h₄⟩ => ⟨by omega, by omega, h₃, fun y hy hy' => ?_⟩, fun ⟨h₁, h₂, h₃, h₄⟩ => ?_⟩
      · rcases Nat.eq_or_lt_of_le hy with rfl | hlt
        · exact h
        · exact h₄ y hlt hy'
      · rcases Nat.eq_or_lt_of_le h₁ with rfl | hlt
        · simp [h] at h₃
        · exact ⟨hlt, by omega, h₃, fun y hy hy' => h₄ y (by omega) hy'⟩
    · next h =>
      rw [Option.some.injEq]
      refine ⟨?_, fun ⟨h₁, h₂, h₃, h₄⟩ => ?_⟩
      · rintro rfl
        exact ⟨le_rfl, by omega, by simpa using h, fun y hy hy' => by omega⟩
      · rcases Nat.eq_or_lt_of_le h₁ with rfl | hlt
        · rfl
        · exact absurd (h₄ a le_rfl hlt) h

/-- A length that is not negative is its own unsigned reading (00_scope.md R8). -/
theorem toInt_eq_toNat {dlen : Word32} (h : 0 ≤ dlen.toInt) : dlen.toInt = dlen.toNat := by
  rw [BitVec.toInt_eq_toNat_cond] at h ⊢
  have := dlen.isLt
  split at h <;> split <;> omega

/-- `check` passes exactly the legal calls. -/
theorem check_eq_none {cfg : Config} {op : BitVec 2} {data : Nat} {dlen : Word32} :
    check cfg op data dlen = none ↔ Legal cfg op data dlen := by
  have hemod := Int.emod_two_eq dlen.toInt
  unfold check Legal
  split
  · next h => exact ⟨fun hn => by simp at hn, fun hn => by omega⟩
  · next h0 =>
    split
    · next h => exact ⟨fun hn => by simp at hn, fun hn => by have := hn.2.1 h.1; omega⟩
    · next h1 =>
      split
      · next h => exact ⟨fun hn => by simp at hn, fun hn => by have := hn.2.2.1 h.1; omega⟩
      · next h2 =>
        have h1' : op = opRev16 → dlen.toInt % 2 = 0 := fun h => hemod.resolve_right fun he => h1 ⟨h, he⟩
        split
        · next a ha =>
          have := (firstInvalid_eq_some cfg (kindOf op)).1 ha
          refine ⟨fun hn => by simp at hn, fun hn => ?_⟩
          have := hn.2.2.2 (a - data) (by omega)
          rw [show data + (a - data) = a by omega] at this
          simp_all
        · next hf => exact ⟨fun _ => ⟨by omega, h1', by omega, (firstInvalid_eq_none cfg (kindOf op)).1 hf⟩, fun _ => rfl⟩

theorem check_of_legal {cfg : Config} {op : BitVec 2} {data : Nat} {dlen : Word32} (h : Legal cfg op data dlen) :
    check cfg op data dlen = none := check_eq_none.2 h

/-- A legal buffer of at least one byte ends at or below `2^ADDR_W` (40_call.md R115). -/
theorem Legal.fits {cfg : Config} {op : BitVec 2} {data : Nat} {dlen : Word32} (h : Legal cfg op data dlen) (hpos : 0 < dlen.toNat) :
    data + dlen.toNat ≤ addrLimit cfg := by
  have h' := h.2.2.1
  rw [toInt_eq_toNat h.1] at h'
  omega

/-- The length of a legal REV16 call is even (41_rev16.md R142). -/
theorem Legal.even {cfg : Config} {data : Nat} {dlen : Word32} (h : Legal cfg opRev16 data dlen) : dlen.toNat % 2 = 0 := by
  have h' := h.2.1 rfl
  rw [toInt_eq_toNat h.1] at h'
  omega

/-- The reasons `check` answers with, in their order of priority. -/
theorem check_eq_some {cfg : Config} {op : BitVec 2} {data : Nat} {dlen : Word32} {r : FaultReason} (h : check cfg op data dlen = some r) :
    r = .negativeLength ∨ r = .oddLength ∨ r = .rangeWrap ∨ ∃ a, r = .invalidBuffer a := by
  unfold check at h
  split at h
  · exact .inl (by simpa using h.symm)
  · split at h
    · exact .inr (.inl (by simpa using h.symm))
    · split at h
      · exact .inr (.inr (.inl (by simpa using h.symm)))
      · split at h
        · next a _ => exact .inr (.inr (.inr ⟨a, by simpa using h.symm⟩))
        · simp at h

end Sys2Proof.Machine
end

