-- ==== Sys2Proof/Laws/Memory.lean ====
section
/-! SUPPORT. The laws of the byte memory: a write is read back, leaves every other byte alone and keeps the canonical form; the same for lists of
bytes and for bytes left as free values. -/

namespace Sys2Proof.Machine

@[simp] theorem Memory.read_nil (a : Nat) : Memory.read [] a = unlistedByte := rfl

theorem Memory.read_cons_entry (x : Nat) (v : Byte) (m : Memory) (a : Nat) :
    Memory.read ((x, v) :: m) a = if x = a then v else Memory.read m a := rfl

theorem Memory.wfFrom_mono {lo lo' : Nat} (h : lo' ≤ lo) : ∀ {m : Memory}, Memory.wfFrom lo m = true → Memory.wfFrom lo' m = true
  | [], _ => rfl
  | (x, v) :: m, hm => by
    simp only [Memory.wfFrom, Bool.and_eq_true, decide_eq_true_eq] at hm ⊢
    exact ⟨⟨h.trans hm.1.1, hm.1.2⟩, hm.2⟩

theorem Memory.read_of_wfFrom {lo a : Nat} (h : a < lo) : ∀ {m : Memory}, Memory.wfFrom lo m = true → Memory.read m a = unlistedByte
  | [], _ => rfl
  | (x, v) :: m, hm => by
    simp only [Memory.wfFrom, Bool.and_eq_true, decide_eq_true_eq] at hm
    rw [Memory.read_cons_entry, if_neg (by omega)]
    exact Memory.read_of_wfFrom (by omega) hm.2

theorem Memory.wfFrom_cons {lo a : Nat} (b : Byte) {m : Memory} (hlo : lo ≤ a) (hm : Memory.wfFrom (a + 1) m = true) :
    Memory.wfFrom lo (Memory.cons a b m) = true := by
  unfold Memory.cons
  split
  · exact Memory.wfFrom_mono (by omega) hm
  · simp_all [Memory.wfFrom]

theorem Memory.read_cons {a : Nat} (b : Byte) {m : Memory} (hm : Memory.wfFrom (a + 1) m = true) (a' : Nat) :
    Memory.read (Memory.cons a b m) a' = if a = a' then b else Memory.read m a' := by
  unfold Memory.cons
  split
  · next hb =>
    split
    · next h => subst h; rw [hb]; exact Memory.read_of_wfFrom (by omega) hm
    · rfl
  · rfl

theorem Memory.wfFrom_write {a : Nat} (b : Byte) : ∀ {lo : Nat} {m : Memory}, lo ≤ a → Memory.wfFrom lo m = true →
    Memory.wfFrom lo (Memory.write m a b) = true
  | _, [], hlo, _ => Memory.wfFrom_cons b hlo rfl
  | lo, (x, v) :: m, hlo, hm => by
    have hm' := hm
    simp only [Memory.wfFrom, Bool.and_eq_true, decide_eq_true_eq] at hm
    unfold Memory.write
    split
    · exact Memory.wfFrom_cons b hlo (by simp [Memory.wfFrom, hm.2, hm.1.2]; omega)
    · split
      · next h => exact Memory.wfFrom_cons b hlo (h ▸ hm.2)
      · simp only [Memory.wfFrom, Bool.and_eq_true, decide_eq_true_eq]
        exact ⟨hm.1, Memory.wfFrom_write b (by omega) hm.2⟩

/-- A write keeps the canonical form. -/
theorem Memory.wf_write {m : Memory} (h : Memory.wf m = true) (a : Nat) (b : Byte) : Memory.wf (Memory.write m a b) = true :=
  Memory.wfFrom_write b (Nat.zero_le a) h

theorem Memory.read_write_from {a : Nat} (b : Byte) : ∀ {lo : Nat} {m : Memory}, Memory.wfFrom lo m = true →
    ∀ a', Memory.read (Memory.write m a b) a' = if a = a' then b else Memory.read m a'
  | _, [], _, a' => Memory.read_cons b rfl a'
  | lo, (x, v) :: m, hm, a' => by
    have hm' := hm
    simp only [Memory.wfFrom, Bool.and_eq_true, decide_eq_true_eq] at hm
    unfold Memory.write
    split
    · exact Memory.read_cons b (by simp [Memory.wfFrom, hm.2, hm.1.2]; omega) a'
    · split
      · next h =>
        subst h
        rw [Memory.read_cons b hm.2, Memory.read_cons_entry]
        split <;> rfl
      · next h₁ h₂ =>
        rw [Memory.read_cons_entry, Memory.read_cons_entry, Memory.read_write_from b hm.2 a']
        split
        · rw [if_neg (by omega)]
        · rfl

/-- What one byte reads as after a write: the value written at its address, the old value elsewhere. -/
theorem Memory.read_write {m : Memory} (h : Memory.wf m = true) (a : Nat) (b : Byte) (a' : Nat) :
    Memory.read (Memory.write m a b) a' = if a = a' then b else Memory.read m a' :=
  Memory.read_write_from b h a'

theorem Memory.read_consOther {a a' : Nat} (h : a ≠ a') (b : Byte) (m : Memory) :
    Memory.read (Memory.cons a b m) a' = Memory.read m a' := by
  unfold Memory.cons
  split
  · rfl
  · rw [Memory.read_cons_entry, if_neg h]

/-- A write leaves every other byte alone, in canonical form or not. -/
theorem Memory.read_writeOther {a a' : Nat} (h : a ≠ a') (b : Byte) : ∀ m : Memory,
    Memory.read (Memory.write m a b) a' = Memory.read m a'
  | [] => Memory.read_consOther h b []
  | (x, v) :: m => by
    unfold Memory.write
    split
    · exact Memory.read_consOther h b _
    · split
      · next hx => rw [Memory.read_consOther h, Memory.read_cons_entry, if_neg (hx ▸ h)]
      · rw [Memory.read_cons_entry, Memory.read_cons_entry, Memory.read_writeOther h b m]

theorem Memory.below_cons {limit a : Nat} (b : Byte) {m : Memory} (ha : a < limit) (hm : Memory.below limit m = true) :
    Memory.below limit (Memory.cons a b m) = true := by
  unfold Memory.cons
  split
  · exact hm
  · simpa [Memory.below, ha] using hm

/-- A write below a limit keeps the memory below it. -/
theorem Memory.below_write {limit a : Nat} (b : Byte) (ha : a < limit) : ∀ {m : Memory}, Memory.below limit m = true →
    Memory.below limit (Memory.write m a b) = true
  | [], _ => Memory.below_cons b ha rfl
  | (x, v) :: m, hm => by
    have hm' : x < limit ∧ Memory.below limit m = true := by simpa [Memory.below] using hm
    unfold Memory.write
    split
    · exact Memory.below_cons b ha hm
    · split
      · exact Memory.below_cons b ha hm'.2
      · simpa [Memory.below] using And.intro hm'.1 (by simpa [Memory.below] using Memory.below_write b ha hm'.2)

/-! ### Lists of bytes -/

@[simp] theorem Memory.length_readBytes (m : Memory) : ∀ a n, (Memory.readBytes m a n).length = n
  | _, 0 => rfl
  | a, n + 1 => by simp [Memory.readBytes, Memory.length_readBytes m (a + 1) n]

theorem Memory.readBytes_append (m : Memory) : ∀ a n k,
    Memory.readBytes m a (n + k) = Memory.readBytes m a n ++ Memory.readBytes m (a + n) k
  | a, 0, k => by simp [Memory.readBytes]
  | a, n + 1, k => by
    rw [Nat.add_right_comm, Memory.readBytes, Memory.readBytes, Memory.readBytes_append m (a + 1) n k, List.cons_append,
      Nat.add_right_comm a 1 n, ← Nat.add_assoc]

/-- The list of bytes depends on the bytes it holds only. -/
theorem Memory.readBytes_congr {m m' : Memory} : ∀ {a n : Nat}, (∀ x, a ≤ x → x < a + n → Memory.read m x = Memory.read m' x) →
    Memory.readBytes m a n = Memory.readBytes m' a n
  | _, 0, _ => rfl
  | a, n + 1, h => by
    rw [Memory.readBytes, Memory.readBytes, h a (by omega) (by omega), Memory.readBytes_congr fun x h₁ h₂ => h x (by omega) (by omega)]

theorem Memory.getElem_readBytes (m : Memory) : ∀ (a n k : Nat) (h : k < (Memory.readBytes m a n).length),
    (Memory.readBytes m a n)[k] = Memory.read m (a + k)
  | _, 0, _, h => by simp at h
  | a, n + 1, 0, _ => rfl
  | a, n + 1, k + 1, h => by
    have h' : k < n := by simpa using h
    simp only [Memory.readBytes, List.getElem_cons_succ]
    rw [Memory.getElem_readBytes m (a + 1) n k (by simpa using h')]
    congr 1; omega

/-- Writing a list keeps the canonical form. -/
theorem Memory.wf_writeBytes : ∀ (bs : List Byte) {m : Memory} (a : Nat), Memory.wf m = true →
    Memory.wf (Memory.writeBytes m a bs) = true
  | [], _, _, h => h
  | b :: bs, _, a, h => Memory.wf_writeBytes bs (a + 1) (Memory.wf_write h a b)

theorem Memory.below_writeBytes {limit : Nat} : ∀ (bs : List Byte) {m : Memory} (a : Nat), a + bs.length ≤ limit →
    Memory.below limit m = true → Memory.below limit (Memory.writeBytes m a bs) = true
  | [], _, _, _, h => h
  | b :: bs, _, a, ha, h => by
    have ha' : a + (bs.length + 1) ≤ limit := by simpa using ha
    exact Memory.below_writeBytes bs (a + 1) (by omega) (Memory.below_write b (by omega) h)

/-- Writing a list leaves every byte outside its range alone. -/
theorem Memory.read_writeBytesOther : ∀ (bs : List Byte) (m : Memory) {a a' : Nat}, (a' < a ∨ a + bs.length ≤ a') →
    Memory.read (Memory.writeBytes m a bs) a' = Memory.read m a'
  | [], _, _, _, _ => rfl
  | b :: bs, m, a, a', h => by
    have h' : a' < a ∨ a + (bs.length + 1) ≤ a' := by simpa using h
    rw [Memory.writeBytes, Memory.read_writeBytesOther bs _ (by omega), Memory.read_writeOther (by omega)]

/-- A list written is read back. -/
theorem Memory.readBytes_writeBytes : ∀ (bs : List Byte) {m : Memory} (a : Nat), Memory.wf m = true →
    Memory.readBytes (Memory.writeBytes m a bs) a bs.length = bs
  | [], _, _, _ => rfl
  | b :: bs, m, a, h => by
    rw [Memory.writeBytes, List.length_cons, Memory.readBytes, Memory.readBytes_writeBytes bs (a + 1) (Memory.wf_write h a b),
      Memory.read_writeBytesOther bs _ (by omega), Memory.read_write h, if_pos rfl]

/-! ### Bytes left as free values -/

theorem wf_scramble (limit draw : Nat) : ∀ (a n : Nat) {m : Memory}, Memory.wf m = true → Memory.wf (scramble limit draw a n m) = true
  | _, 0, _, h => h
  | a, n + 1, m, h => by
    unfold scramble
    split
    · exact wf_scramble limit draw (a + 1) n (Memory.wf_write h a _)
    · exact wf_scramble limit draw (a + 1) n h

theorem below_scramble (limit draw : Nat) : ∀ (a n : Nat) {m : Memory}, Memory.below limit m = true →
    Memory.below limit (scramble limit draw a n m) = true
  | _, 0, _, h => h
  | a, n + 1, m, h => by
    unfold scramble
    split
    · next ha => exact below_scramble limit draw (a + 1) n (Memory.below_write _ ha h)
    · exact below_scramble limit draw (a + 1) n h

/-- Bytes outside the range are left alone. -/
theorem read_scrambleOther (limit draw : Nat) : ∀ (a n : Nat) (m : Memory) {a' : Nat}, (a' < a ∨ a + n ≤ a') →
    Memory.read (scramble limit draw a n m) a' = Memory.read m a'
  | _, 0, _, _, _ => rfl
  | a, n + 1, m, a', h => by
    unfold scramble
    rw [read_scrambleOther limit draw (a + 1) n _ (by omega)]
    split
    · rw [Memory.read_writeOther (by omega)]
    · rfl

/-- Each existing byte of the range is left with the free value of its draw and address. -/
theorem read_scramble {limit draw : Nat} : ∀ {a n : Nat} {m : Memory} {a' : Nat}, Memory.wf m = true → a ≤ a' → a' < a + n → a' < limit →
    Memory.read (scramble limit draw a n m) a' = Config.freeByte draw a'
  | _, 0, _, _, _, _, _, _ => by omega
  | a, n + 1, m, a', h, h₁, h₂, h₃ => by
    unfold scramble
    rcases Nat.eq_or_lt_of_le h₁ with rfl | hlt
    · rw [read_scrambleOther limit draw (a + 1) n _ (by omega), if_pos h₃, Memory.read_write h, if_pos rfl]
    · split
      · exact read_scramble (Memory.wf_write h a _) hlt (by omega) h₃
      · exact read_scramble h hlt (by omega) h₃

/-- A canonical memory is determined by what its bytes read as: equal memories are equal data. -/
theorem Memory.ext_of_wfFrom : ∀ {lo lo' : Nat} {m m' : Memory}, Memory.wfFrom lo m = true → Memory.wfFrom lo' m' = true →
    (∀ a, Memory.read m a = Memory.read m' a) → m = m'
  | _, _, [], [], _, _, _ => rfl
  | _, _, [], (x, v) :: m', _, h', he => by
    simp only [Memory.wfFrom, Bool.and_eq_true, decide_eq_true_eq] at h'
    have := he x
    rw [Memory.read_cons_entry, if_pos rfl] at this
    exact absurd this.symm h'.1.2
  | _, _, (x, v) :: m, [], h, _, he => by
    simp only [Memory.wfFrom, Bool.and_eq_true, decide_eq_true_eq] at h
    have := he x
    rw [Memory.read_cons_entry, if_pos rfl] at this
    exact absurd this h.1.2
  | _, _, (x, v) :: m, (x', v') :: m', h, h', he => by
    simp only [Memory.wfFrom, Bool.and_eq_true, decide_eq_true_eq] at h h'
    have hx : x = x' := by
      rcases Nat.lt_trichotomy x x' with hlt | heq | hgt
      · have := he x
        rw [Memory.read_cons_entry, if_pos rfl, Memory.read_cons_entry, if_neg (by omega),
          Memory.read_of_wfFrom (by omega) h'.2] at this
        exact absurd this h.1.2
      · exact heq
      · have := he x'
        rw [Memory.read_cons_entry, if_neg (by omega), Memory.read_cons_entry, if_pos rfl,
          Memory.read_of_wfFrom (by omega) h.2] at this
        exact absurd this.symm h'.1.2
    subst hx
    have hv : v = v' := by simpa [Memory.read_cons_entry] using he x
    subst hv
    congr 1
    refine Memory.ext_of_wfFrom h.2 h'.2 fun a => ?_
    rcases eq_or_ne x a with rfl | ha
    · rw [Memory.read_of_wfFrom (by omega) h.2, Memory.read_of_wfFrom (by omega) h'.2]
    · simpa [Memory.read_cons_entry, ha] using he a

/-- Equal reads, equal memories. -/
theorem Memory.ext_of_wf {m m' : Memory} (h : Memory.wf m = true) (h' : Memory.wf m' = true)
    (he : ∀ a, Memory.read m a = Memory.read m' a) : m = m' :=
  Memory.ext_of_wfFrom h h' he

end Sys2Proof.Machine
end

