-- ==== Sys2Proof/Laws/Crc32.lean ====
section
/-! SUPPORT. The engine's fold over memory is `Raw` of the bytes read. -/

namespace Sys2Proof.Machine

@[simp] theorem raw_nil (c : Word32) : raw c [] = c := rfl
@[simp] theorem raw_cons (c : Word32) (b : Byte) (bs : List Byte) : raw c (b :: bs) = raw (byteStep c b) bs := rfl
@[simp] theorem shiftN_zero (c : Word32) : shiftN 0 c = c := rfl
theorem shiftN_succ (n : Nat) (c : Word32) : shiftN (n + 1) c = shift (shiftN n c) := rfl

/-- Folding `n` bytes of memory is `Raw` of the list read (42_crc32.md R150, R151). -/
theorem crcFold_eq_raw (m : Memory) : ∀ (a n : Nat) (c : Word32), crcFold m a n c = raw c (Memory.readBytes m a n)
  | _, 0, _ => rfl
  | a, n + 1, c => crcFold_eq_raw m (a + 1) n (byteStep c (Memory.read m a))

end Sys2Proof.Machine
end

