-- ==== Sys2Proof/Laws/Rev16.lean ====
section
/-! SUPPORT. What swapping units does to a memory, byte by byte. -/

namespace Sys2Proof.Machine

@[simp] theorem rev16Ref_nil : rev16Ref [] = [] := rfl
@[simp] theorem rev16Ref_pair (b0 b1 : Byte) (bs : List Byte) : rev16Ref (b0 :: b1 :: bs) = b1 :: b0 :: rev16Ref bs := rfl

@[simp] theorem length_rev16Ref : ∀ bs : List Byte, (rev16Ref bs).length = bs.length
  | [] => rfl
  | [_] => rfl
  | _ :: _ :: bs => by simp [length_rev16Ref bs]

theorem wf_swapUnit {m : Memory} (h : Memory.wf m = true) (a : Nat) : Memory.wf (swapUnit m a) = true :=
  Memory.wf_write (Memory.wf_write h _ _) _ _

/-- One unit: its two bytes change places and nothing else changes. -/
theorem read_swapUnit {m : Memory} (h : Memory.wf m = true) (a a' : Nat) :
    Memory.read (swapUnit m a) a' =
      if a' = a then Memory.read m (a + 1) else if a' = a + 1 then Memory.read m a else Memory.read m a' := by
  unfold swapUnit
  simp only [Memory.read_write (Memory.wf_write h _ _), Memory.read_write h]
  split_ifs <;> first | rfl | omega

theorem read_swapUnitOther (m : Memory) {a a' : Nat} (h : a' < a ∨ a + 2 ≤ a') : Memory.read (swapUnit m a) a' = Memory.read m a' := by
  unfold swapUnit
  simp only
  rw [Memory.read_writeOther (by omega), Memory.read_writeOther (by omega)]

theorem wf_swapUnits : ∀ (a n : Nat) {m : Memory}, Memory.wf m = true → Memory.wf (swapUnits a n m) = true
  | _, 0, _, h => h
  | a, n + 1, _, h => wf_swapUnits (a + 2) n (wf_swapUnit h a)

theorem below_swapUnit {limit a : Nat} {m : Memory} (ha : a + 2 ≤ limit) (h : Memory.below limit m = true) :
    Memory.below limit (swapUnit m a) = true :=
  Memory.below_write _ (by omega) (Memory.below_write _ (by omega) h)

theorem below_swapUnits {limit : Nat} : ∀ {a n : Nat} {m : Memory}, (0 < n → a + 2 * n ≤ limit) → Memory.below limit m = true →
    Memory.below limit (swapUnits a n m) = true
  | _, 0, _, _, h => h
  | a, n + 1, m, hl, h => by
    have hfit := hl (by omega)
    exact below_swapUnits (a := a + 2) (m := swapUnit m a) (fun _ => by omega) (below_swapUnit (by omega) h)

/-- Bytes outside the units are left alone, in canonical form or not. -/
theorem read_swapUnitsOther : ∀ (a n : Nat) (m : Memory) {a' : Nat}, (a' < a ∨ a + 2 * n ≤ a') →
    Memory.read (swapUnits a n m) a' = Memory.read m a'
  | _, 0, _, _, _ => rfl
  | a, n + 1, m, a', h => by
    rw [swapUnits, read_swapUnitsOther (a + 2) n _ (by omega), read_swapUnitOther m (by omega)]

/-- The range of the units reads as the reference function of what it read as (41_rev16.md R131). -/
theorem readBytes_swapUnits : ∀ (a n : Nat) {m : Memory}, Memory.wf m = true →
    Memory.readBytes (swapUnits a n m) a (2 * n) = rev16Ref (Memory.readBytes m a (2 * n))
  | _, 0, _, _ => rfl
  | a, n + 1, m, h => by
    have ih := readBytes_swapUnits (a + 2) n (wf_swapUnit h a)
    have hrest : Memory.readBytes (swapUnit m a) (a + 2) (2 * n) = Memory.readBytes m (a + 2) (2 * n) :=
      Memory.readBytes_congr fun x _ _ => read_swapUnitOther m (by omega)
    have hlow : ∀ x, x < a + 2 → Memory.read (swapUnits a (n + 1) m) x = Memory.read (swapUnit m a) x := fun x hx => by
      rw [swapUnits, read_swapUnitsOther (a + 2) n _ (by omega)]
    have hsplit : ∀ m' : Memory, Memory.readBytes m' a (2 * (n + 1)) =
        Memory.read m' a :: Memory.read m' (a + 1) :: Memory.readBytes m' (a + 2) (2 * n) := fun m' => by
      rw [show 2 * (n + 1) = 2 * n + 1 + 1 by omega]; rfl
    rw [hsplit, hsplit, hlow a (by omega), hlow (a + 1) (by omega), read_swapUnit h, read_swapUnit h, if_pos rfl, if_neg (by omega),
      if_pos rfl, rev16Ref_pair, swapUnits, ih, hrest]

theorem readBytes_swapUnits_of_even {m : Memory} (h : Memory.wf m = true) (a : Nat) {n : Nat} (hn : n % 2 = 0) :
    Memory.readBytes (swapUnits a (n / 2) m) a n = rev16Ref (Memory.readBytes m a n) := by
  have := readBytes_swapUnits a (n / 2) h
  rwa [show 2 * (n / 2) = n by omega] at this

end Sys2Proof.Machine
end

