-- ==== Sys2Proof/Laws/State.lean ====
section
/-! SUPPORT. One lemma per field and named update of State, true by rfl, so that no proof unfolds a record update. -/

namespace Sys2Proof.Machine

variable (s : State)

/-! ### `accept` -/

@[simp] theorem accept_cfg (op : BitVec 2) (data : BitVec 64) (dlen : Word32) : (accept op data dlen s).cfg = s.cfg := rfl
@[simp] theorem accept_rst (op : BitVec 2) (data : BitVec 64) (dlen : Word32) : (accept op data dlen s).rst = s.rst := rfl
@[simp] theorem accept_phase (op : BitVec 2) (data : BitVec 64) (dlen : Word32) : (accept op data dlen s).phase = .busy := rfl
@[simp] theorem accept_reqOp (op : BitVec 2) (data : BitVec 64) (dlen : Word32) : (accept op data dlen s).reqOp = op := rfl
@[simp] theorem accept_reqData (op : BitVec 2) (data : BitVec 64) (dlen : Word32) : (accept op data dlen s).reqData = data := rfl
@[simp] theorem accept_reqDlen (op : BitVec 2) (data : BitVec 64) (dlen : Word32) : (accept op data dlen s).reqDlen = dlen := rfl
@[simp] theorem accept_off (op : BitVec 2) (data : BitVec 64) (dlen : Word32) : (accept op data dlen s).off = 0#32 := rfl
@[simp] theorem accept_c (op : BitVec 2) (data : BitVec 64) (dlen : Word32) : (accept op data dlen s).c = 0xFFFFFFFF#32 := rfl
@[simp] theorem accept_ret (op : BitVec 2) (data : BitVec 64) (dlen : Word32) : (accept op data dlen s).ret = 0x00000000#32 := rfl
@[simp] theorem accept_unacked (op : BitVec 2) (data : BitVec 64) (dlen : Word32) : (accept op data dlen s).unacked = false := rfl
@[simp] theorem accept_pending (op : BitVec 2) (data : BitVec 64) (dlen : Word32) : (accept op data dlen s).pending = s.pending.tail := rfl
@[simp] theorem accept_call (op : BitVec 2) (data : BitVec 64) (dlen : Word32) : (accept op data dlen s).call = headCall .legal s := rfl
@[simp] theorem accept_mem (op : BitVec 2) (data : BitVec 64) (dlen : Word32) : (accept op data dlen s).mem = s.mem := rfl
@[simp] theorem accept_fault (op : BitVec 2) (data : BitVec 64) (dlen : Word32) : (accept op data dlen s).fault = s.fault := rfl
@[simp] theorem accept_obs (op : BitVec 2) (data : BitVec 64) (dlen : Word32) : (accept op data dlen s).obs = s.obs := rfl
@[simp] theorem accept_sched (op : BitVec 2) (data : BitVec 64) (dlen : Word32) : (accept op data dlen s).sched = s.sched := rfl
@[simp] theorem accept_draws (op : BitVec 2) (data : BitVec 64) (dlen : Word32) : (accept op data dlen s).draws = s.draws := rfl

/-! ### `reject` -/

@[simp] theorem reject_cfg (reason : FaultReason) (m : Memory) : (reject reason m s).cfg = s.cfg := rfl
@[simp] theorem reject_rst (reason : FaultReason) (m : Memory) : (reject reason m s).rst = s.rst := rfl
@[simp] theorem reject_phase (reason : FaultReason) (m : Memory) : (reject reason m s).phase = .done := rfl
@[simp] theorem reject_reqOp (reason : FaultReason) (m : Memory) : (reject reason m s).reqOp = s.reqOp := rfl
@[simp] theorem reject_reqData (reason : FaultReason) (m : Memory) : (reject reason m s).reqData = s.reqData := rfl
@[simp] theorem reject_reqDlen (reason : FaultReason) (m : Memory) : (reject reason m s).reqDlen = s.reqDlen := rfl
@[simp] theorem reject_off (reason : FaultReason) (m : Memory) : (reject reason m s).off = s.off := rfl
@[simp] theorem reject_c (reason : FaultReason) (m : Memory) : (reject reason m s).c = s.c := rfl
@[simp] theorem reject_ret (reason : FaultReason) (m : Memory) : (reject reason m s).ret = Config.freeWord s.draws := rfl
@[simp] theorem reject_unacked (reason : FaultReason) (m : Memory) : (reject reason m s).unacked = s.unacked := rfl
@[simp] theorem reject_pending (reason : FaultReason) (m : Memory) : (reject reason m s).pending = s.pending.tail := rfl
@[simp] theorem reject_call (reason : FaultReason) (m : Memory) : (reject reason m s).call = headCall .rejected s := rfl
@[simp] theorem reject_mem (reason : FaultReason) (m : Memory) : (reject reason m s).mem = m := rfl
@[simp] theorem reject_fault (reason : FaultReason) (m : Memory) : (reject reason m s).fault = s.fault ++ [⟨reason, headWords s⟩] := rfl
@[simp] theorem reject_obs (reason : FaultReason) (m : Memory) : (reject reason m s).obs = s.obs := rfl
@[simp] theorem reject_sched (reason : FaultReason) (m : Memory) : (reject reason m s).sched = s.sched := rfl
@[simp] theorem reject_draws (reason : FaultReason) (m : Memory) : (reject reason m s).draws = s.draws + 1 := rfl

/-! ### `violate` -/

@[simp] theorem violate_cfg (reason : FaultReason) : (violate reason s).cfg = s.cfg := rfl
@[simp] theorem violate_rst (reason : FaultReason) : (violate reason s).rst = s.rst := rfl
@[simp] theorem violate_phase (reason : FaultReason) : (violate reason s).phase = s.phase := rfl
@[simp] theorem violate_reqOp (reason : FaultReason) : (violate reason s).reqOp = s.reqOp := rfl
@[simp] theorem violate_reqData (reason : FaultReason) : (violate reason s).reqData = s.reqData := rfl
@[simp] theorem violate_reqDlen (reason : FaultReason) : (violate reason s).reqDlen = s.reqDlen := rfl
@[simp] theorem violate_off (reason : FaultReason) : (violate reason s).off = s.off := rfl
@[simp] theorem violate_c (reason : FaultReason) : (violate reason s).c = s.c := rfl
@[simp] theorem violate_ret (reason : FaultReason) : (violate reason s).ret = Config.freeWord s.draws := rfl
@[simp] theorem violate_unacked (reason : FaultReason) : (violate reason s).unacked = s.unacked := rfl
@[simp] theorem violate_pending (reason : FaultReason) : (violate reason s).pending = s.pending := rfl
@[simp] theorem violate_call (reason : FaultReason) : (violate reason s).call = s.call.map fun k => ⟨k.req, .violated⟩ := rfl
@[simp] theorem violate_mem (reason : FaultReason) : (violate reason s).mem = violatedMem s := rfl
@[simp] theorem violate_fault (reason : FaultReason) : (violate reason s).fault = s.fault ++ [⟨reason, callWords s⟩] := rfl
@[simp] theorem violate_obs (reason : FaultReason) : (violate reason s).obs = s.obs := rfl
@[simp] theorem violate_sched (reason : FaultReason) : (violate reason s).sched = s.sched := rfl
@[simp] theorem violate_draws (reason : FaultReason) : (violate reason s).draws = s.draws + 1 := rfl

/-! ### `rev16Chunk` -/

@[simp] theorem rev16Chunk_cfg (k : Nat) : (rev16Chunk k s).cfg = s.cfg := rfl
@[simp] theorem rev16Chunk_rst (k : Nat) : (rev16Chunk k s).rst = s.rst := rfl
@[simp] theorem rev16Chunk_phase (k : Nat) : (rev16Chunk k s).phase = s.phase := rfl
@[simp] theorem rev16Chunk_reqOp (k : Nat) : (rev16Chunk k s).reqOp = s.reqOp := rfl
@[simp] theorem rev16Chunk_reqData (k : Nat) : (rev16Chunk k s).reqData = s.reqData := rfl
@[simp] theorem rev16Chunk_reqDlen (k : Nat) : (rev16Chunk k s).reqDlen = s.reqDlen := rfl
@[simp] theorem rev16Chunk_off (k : Nat) : (rev16Chunk k s).off = s.off + BitVec.ofNat 32 k := rfl
@[simp] theorem rev16Chunk_c (k : Nat) : (rev16Chunk k s).c = s.c := rfl
@[simp] theorem rev16Chunk_ret (k : Nat) : (rev16Chunk k s).ret = s.ret := rfl
@[simp] theorem rev16Chunk_unacked (k : Nat) : (rev16Chunk k s).unacked = true := rfl
@[simp] theorem rev16Chunk_pending (k : Nat) : (rev16Chunk k s).pending = s.pending := rfl
@[simp] theorem rev16Chunk_call (k : Nat) : (rev16Chunk k s).call = s.call := rfl
@[simp] theorem rev16Chunk_mem (k : Nat) : (rev16Chunk k s).mem = swapUnits (cursor s) (k / 2) s.mem := rfl
@[simp] theorem rev16Chunk_fault (k : Nat) : (rev16Chunk k s).fault = s.fault := rfl
@[simp] theorem rev16Chunk_obs (k : Nat) : (rev16Chunk k s).obs = s.obs := rfl
@[simp] theorem rev16Chunk_sched (k : Nat) : (rev16Chunk k s).sched = s.sched := rfl
@[simp] theorem rev16Chunk_draws (k : Nat) : (rev16Chunk k s).draws = s.draws := rfl

/-! ### `crc32Chunk` -/

@[simp] theorem crc32Chunk_cfg (k : Nat) : (crc32Chunk k s).cfg = s.cfg := rfl
@[simp] theorem crc32Chunk_rst (k : Nat) : (crc32Chunk k s).rst = s.rst := rfl
@[simp] theorem crc32Chunk_phase (k : Nat) : (crc32Chunk k s).phase = s.phase := rfl
@[simp] theorem crc32Chunk_reqOp (k : Nat) : (crc32Chunk k s).reqOp = s.reqOp := rfl
@[simp] theorem crc32Chunk_reqData (k : Nat) : (crc32Chunk k s).reqData = s.reqData := rfl
@[simp] theorem crc32Chunk_reqDlen (k : Nat) : (crc32Chunk k s).reqDlen = s.reqDlen := rfl
@[simp] theorem crc32Chunk_off (k : Nat) : (crc32Chunk k s).off = s.off + BitVec.ofNat 32 k := rfl
@[simp] theorem crc32Chunk_c (k : Nat) : (crc32Chunk k s).c = crcFold s.mem (cursor s) k s.c := rfl
@[simp] theorem crc32Chunk_ret (k : Nat) : (crc32Chunk k s).ret = s.ret := rfl
@[simp] theorem crc32Chunk_unacked (k : Nat) : (crc32Chunk k s).unacked = s.unacked := rfl
@[simp] theorem crc32Chunk_pending (k : Nat) : (crc32Chunk k s).pending = s.pending := rfl
@[simp] theorem crc32Chunk_call (k : Nat) : (crc32Chunk k s).call = s.call := rfl
@[simp] theorem crc32Chunk_mem (k : Nat) : (crc32Chunk k s).mem = s.mem := rfl
@[simp] theorem crc32Chunk_fault (k : Nat) : (crc32Chunk k s).fault = s.fault := rfl
@[simp] theorem crc32Chunk_obs (k : Nat) : (crc32Chunk k s).obs = s.obs := rfl
@[simp] theorem crc32Chunk_sched (k : Nat) : (crc32Chunk k s).sched = s.sched := rfl
@[simp] theorem crc32Chunk_draws (k : Nat) : (crc32Chunk k s).draws = s.draws := rfl

/-! ### `ackWrites` -/

@[simp] theorem ackWrites_cfg : (ackWrites s).cfg = s.cfg := rfl
@[simp] theorem ackWrites_rst : (ackWrites s).rst = s.rst := rfl
@[simp] theorem ackWrites_phase : (ackWrites s).phase = s.phase := rfl
@[simp] theorem ackWrites_reqOp : (ackWrites s).reqOp = s.reqOp := rfl
@[simp] theorem ackWrites_reqData : (ackWrites s).reqData = s.reqData := rfl
@[simp] theorem ackWrites_reqDlen : (ackWrites s).reqDlen = s.reqDlen := rfl
@[simp] theorem ackWrites_off : (ackWrites s).off = s.off := rfl
@[simp] theorem ackWrites_c : (ackWrites s).c = s.c := rfl
@[simp] theorem ackWrites_ret : (ackWrites s).ret = s.ret := rfl
@[simp] theorem ackWrites_unacked : (ackWrites s).unacked = false := rfl
@[simp] theorem ackWrites_pending : (ackWrites s).pending = s.pending := rfl
@[simp] theorem ackWrites_call : (ackWrites s).call = s.call := rfl
@[simp] theorem ackWrites_mem : (ackWrites s).mem = s.mem := rfl
@[simp] theorem ackWrites_fault : (ackWrites s).fault = s.fault := rfl
@[simp] theorem ackWrites_obs : (ackWrites s).obs = s.obs := rfl
@[simp] theorem ackWrites_sched : (ackWrites s).sched = s.sched := rfl
@[simp] theorem ackWrites_draws : (ackWrites s).draws = s.draws := rfl

/-! ### `complete` -/

@[simp] theorem complete_cfg : (complete s).cfg = s.cfg := rfl
@[simp] theorem complete_rst : (complete s).rst = s.rst := rfl
@[simp] theorem complete_phase : (complete s).phase = .done := rfl
@[simp] theorem complete_reqOp : (complete s).reqOp = s.reqOp := rfl
@[simp] theorem complete_reqData : (complete s).reqData = s.reqData := rfl
@[simp] theorem complete_reqDlen : (complete s).reqDlen = s.reqDlen := rfl
@[simp] theorem complete_off : (complete s).off = s.off := rfl
@[simp] theorem complete_c : (complete s).c = s.c := rfl
@[simp] theorem complete_ret : (complete s).ret = completeRet s := rfl
@[simp] theorem complete_unacked : (complete s).unacked = s.unacked := rfl
@[simp] theorem complete_pending : (complete s).pending = s.pending := rfl
@[simp] theorem complete_call : (complete s).call = s.call := rfl
@[simp] theorem complete_mem : (complete s).mem = s.mem := rfl
@[simp] theorem complete_fault : (complete s).fault = s.fault := rfl
@[simp] theorem complete_obs : (complete s).obs = s.obs := rfl
@[simp] theorem complete_sched : (complete s).sched = s.sched := rfl
@[simp] theorem complete_draws : (complete s).draws = if isViolated s then s.draws + 1 else s.draws := rfl

/-! ### `respond` -/

@[simp] theorem respond_cfg : (respond s).cfg = s.cfg := rfl
@[simp] theorem respond_rst : (respond s).rst = s.rst := rfl
@[simp] theorem respond_phase : (respond s).phase = .idle := rfl
@[simp] theorem respond_reqOp : (respond s).reqOp = s.reqOp := rfl
@[simp] theorem respond_reqData : (respond s).reqData = s.reqData := rfl
@[simp] theorem respond_reqDlen : (respond s).reqDlen = s.reqDlen := rfl
@[simp] theorem respond_off : (respond s).off = s.off := rfl
@[simp] theorem respond_c : (respond s).c = s.c := rfl
@[simp] theorem respond_ret : (respond s).ret = s.ret := rfl
@[simp] theorem respond_unacked : (respond s).unacked = s.unacked := rfl
@[simp] theorem respond_pending : (respond s).pending = s.pending := rfl
@[simp] theorem respond_call : (respond s).call = none := rfl
@[simp] theorem respond_mem : (respond s).mem = s.mem := rfl
@[simp] theorem respond_fault : (respond s).fault = s.fault := rfl
@[simp] theorem respond_obs : (respond s).obs = responseObs s ++ s.obs := rfl
@[simp] theorem respond_sched : (respond s).sched = s.sched := rfl
@[simp] theorem respond_draws : (respond s).draws = s.draws := rfl

/-! ### `rstAssertStep` -/

@[simp] theorem rstAssertStep_cfg : (rstAssertStep s).cfg = s.cfg := rfl
@[simp] theorem rstAssertStep_rst : (rstAssertStep s).rst = true := rfl
@[simp] theorem rstAssertStep_phase : (rstAssertStep s).phase = .idle := rfl
@[simp] theorem rstAssertStep_reqOp : (rstAssertStep s).reqOp = 0#2 := rfl
@[simp] theorem rstAssertStep_reqData : (rstAssertStep s).reqData = 0#64 := rfl
@[simp] theorem rstAssertStep_reqDlen : (rstAssertStep s).reqDlen = 0#32 := rfl
@[simp] theorem rstAssertStep_off : (rstAssertStep s).off = 0#32 := rfl
@[simp] theorem rstAssertStep_c : (rstAssertStep s).c = 0xFFFFFFFF#32 := rfl
@[simp] theorem rstAssertStep_ret : (rstAssertStep s).ret = 0x00000000#32 := rfl
@[simp] theorem rstAssertStep_unacked : (rstAssertStep s).unacked = false := rfl
@[simp] theorem rstAssertStep_pending : (rstAssertStep s).pending = [] := rfl
@[simp] theorem rstAssertStep_call : (rstAssertStep s).call = none := rfl
@[simp] theorem rstAssertStep_mem : (rstAssertStep s).mem = resetMem s := rfl
@[simp] theorem rstAssertStep_fault : (rstAssertStep s).fault = s.fault := rfl
@[simp] theorem rstAssertStep_obs : (rstAssertStep s).obs = s.obs := rfl
@[simp] theorem rstAssertStep_sched : (rstAssertStep s).sched = s.sched := rfl
@[simp] theorem rstAssertStep_draws : (rstAssertStep s).draws = s.draws + 1 := rfl

/-! ### `rstReleaseStep` -/

@[simp] theorem rstReleaseStep_cfg : (rstReleaseStep s).cfg = s.cfg := rfl
@[simp] theorem rstReleaseStep_rst : (rstReleaseStep s).rst = false := rfl
@[simp] theorem rstReleaseStep_phase : (rstReleaseStep s).phase = s.phase := rfl
@[simp] theorem rstReleaseStep_reqOp : (rstReleaseStep s).reqOp = s.reqOp := rfl
@[simp] theorem rstReleaseStep_reqData : (rstReleaseStep s).reqData = s.reqData := rfl
@[simp] theorem rstReleaseStep_reqDlen : (rstReleaseStep s).reqDlen = s.reqDlen := rfl
@[simp] theorem rstReleaseStep_off : (rstReleaseStep s).off = s.off := rfl
@[simp] theorem rstReleaseStep_c : (rstReleaseStep s).c = s.c := rfl
@[simp] theorem rstReleaseStep_ret : (rstReleaseStep s).ret = s.ret := rfl
@[simp] theorem rstReleaseStep_unacked : (rstReleaseStep s).unacked = s.unacked := rfl
@[simp] theorem rstReleaseStep_pending : (rstReleaseStep s).pending = s.pending := rfl
@[simp] theorem rstReleaseStep_call : (rstReleaseStep s).call = s.call := rfl
@[simp] theorem rstReleaseStep_mem : (rstReleaseStep s).mem = s.mem := rfl
@[simp] theorem rstReleaseStep_fault : (rstReleaseStep s).fault = s.fault := rfl
@[simp] theorem rstReleaseStep_obs : (rstReleaseStep s).obs = s.obs := rfl
@[simp] theorem rstReleaseStep_sched : (rstReleaseStep s).sched = s.sched := rfl
@[simp] theorem rstReleaseStep_draws : (rstReleaseStep s).draws = s.draws := rfl

end Sys2Proof.Machine
end

