-- ==== Sys2Proof/Laws/Step.lean ====
section
/-! SUPPORT. Everything a step can do, said once: what the arbiter's choice leaves, what running a call answers, and which agent's operation a
step is. -/

namespace Sys2Proof.Machine

/-! ### The arbiter -/

/-- `v` is `u` with one of its pending requests brought to the head of the port. -/
def Granted (u v : State) : Prop :=
  ∃ r n d, u.pending[n]? = some r ∧ v = { u with pending := r :: u.pending.eraseIdx n, draws := d }

theorem grant_eq {n : Nat} {u : State} {r : Request} (h : u.pending[n]? = some r) :
    grant n u = { u with pending := r :: u.pending.eraseIdx n } := by
  unfold grant
  rw [h]

theorem granted_grant {n : Nat} {u : State} (h : n < u.pending.length) : Granted u (grant n u) :=
  ⟨u.pending[n], n, u.draws, List.getElem?_eq_getElem h, grant_eq (List.getElem?_eq_getElem h)⟩

theorem granted_grantFree {u : State} (h : u.pending ≠ []) : Granted u (grantFree u) := by
  unfold grantFree
  split
  · next hp => exact absurd hp h
  · next r hp => exact ⟨r, 0, u.draws, by simp [hp], by simp [hp]; rw [← hp]⟩
  · next r r' rs hp =>
    have hlt : Config.freeIndex u.draws % (r :: r' :: rs).length < u.pending.length := by
      rw [hp]; exact Nat.mod_lt _ (by simp)
    have hg := List.getElem?_eq_getElem hlt
    exact ⟨_, _, u.draws + 1, hg, by rw [grant_eq hg]⟩

/-- The arbiter keeps every request: it only changes their order. -/
theorem Granted.perm {u v : State} (h : Granted u v) : v.pending.Perm u.pending := by
  obtain ⟨r, n, d, hn, rfl⟩ := h
  obtain ⟨hlt, rfl⟩ := List.getElem?_eq_some_iff.1 hn
  exact (List.getElem_cons_eraseIdx_perm hlt)

theorem canAccept_iff {s : State} : canAccept s = true ↔ s.rst = false ∧ s.phase = .idle ∧ s.pending ≠ [] := by
  simp [canAccept, and_assoc]

theorem Granted.canAccept {u v : State} (h : Granted u v) (hu : canAccept u = true) : canAccept v = true := by
  obtain ⟨r, n, d, _, rfl⟩ := h
  rw [canAccept_iff] at hu ⊢
  exact ⟨hu.1, hu.2.1, by simp⟩

/-! ### Running a call -/

/-- What exec answers when the block can accept: the call is rejected with the reason `check` gives, or it runs to DONE. -/
theorem exec_of_canAccept {i : Instr} {s : State} (h : canAccept s = true) :
    (∃ reason, check s.cfg (opOf i) (dataOf i).toNat (dlenOf i) = some reason ∧
      exec i s = .next (rejectCall (opOf i) (dataOf i) (dlenOf i) reason s)) ∨
    (Legal s.cfg (opOf i) (dataOf i).toNat (dlenOf i) ∧
      ((∃ data dlen, i = .rev16 data dlen ∧ exec i s = .next (runRev16 data dlen s)) ∨
        ∃ data dlen, i = .crc32 data dlen ∧ exec i s = .next (runCrc32 data dlen s))) := by
  cases i with
  | rev16 data dlen =>
    cases hc : check s.cfg opRev16 data.toNat dlen with
    | some reason => exact .inl ⟨reason, hc, by simp [exec, execRev16, h, hc, opOf, dataOf, dlenOf]⟩
    | none => exact .inr ⟨check_eq_none.1 hc, .inl ⟨data, dlen, rfl, by simp [exec, execRev16, h, hc]⟩⟩
  | crc32 data dlen =>
    cases hc : check s.cfg opCrc32 data.toNat dlen with
    | some reason => exact .inl ⟨reason, hc, by simp [exec, execCrc32, h, hc, opOf, dataOf, dlenOf]⟩
    | none => exact .inr ⟨check_eq_none.1 hc, .inr ⟨data, dlen, rfl, by simp [exec, execCrc32, h, hc]⟩⟩

/-- What exec answers when the block cannot accept: nothing happens. -/
theorem exec_of_not_canAccept (i : Instr) {s : State} (h : canAccept s = false) : exec i s = .next s := by
  cases i <;> simp [exec, execRev16, execCrc32, h]

/-- What running the request at the head of the port answers. -/
theorem runHead_cases {s t : State} (h : canAccept s = true) (ht : runHead s = .next t) :
    t = rejectIllegal s ∨
    ∃ i, fetch s = .instr i ∧
      ((∃ reason, check s.cfg (opOf i) (dataOf i).toNat (dlenOf i) = some reason ∧
        t = rejectCall (opOf i) (dataOf i) (dlenOf i) reason s) ∨
      (Legal s.cfg (opOf i) (dataOf i).toNat (dlenOf i) ∧
        ((∃ data dlen, i = .rev16 data dlen ∧ t = runRev16 data dlen s) ∨
          ∃ data dlen, i = .crc32 data dlen ∧ t = runCrc32 data dlen s))) := by
  unfold runHead at ht
  split at ht
  · next i hi =>
    refine .inr ⟨i, hi, ?_⟩
    rcases exec_of_canAccept (i := i) h with ⟨reason, hc, he⟩ | ⟨hl, ⟨data, dlen, hi', he⟩ | ⟨data, dlen, hi', he⟩⟩ <;>
      rw [he] at ht <;> cases ht
    · exact .inl ⟨reason, hc, rfl⟩
    · exact .inr ⟨hl, .inl ⟨data, dlen, hi', rfl⟩⟩
    · exact .inr ⟨hl, .inr ⟨data, dlen, hi', rfl⟩⟩
  · cases ht; exact .inl rfl

/-- What ACCEPT of the request at the head of the port leaves. -/
theorem acceptHead_cases (s : State) :
    acceptHead s = rejectIllegal s ∨
    ∃ i, fetch s = .instr i ∧
      ((∃ reason, check s.cfg (opOf i) (dataOf i).toNat (dlenOf i) = some reason ∧
        acceptHead s = rejectCall (opOf i) (dataOf i) (dlenOf i) reason s) ∨
      (Legal s.cfg (opOf i) (dataOf i).toNat (dlenOf i) ∧
        acceptHead s = accept (opOf i) (dataOf i) (dlenOf i) s)) := by
  unfold acceptHead
  split
  · exact .inl rfl
  · next i hi =>
    refine .inr ⟨i, hi, ?_⟩
    split
    · next reason hc => exact .inl ⟨reason, hc, rfl⟩
    · next hc => exact .inr ⟨check_eq_none.1 hc, rfl⟩

/-! ### Runs -/

@[simp] theorem runSteps_zero (s : State) : runSteps 0 s = .next s := rfl

/-- A step that answers a next state comes off a run. -/
theorem runSteps_succ {s t : State} (n : Nat) (h : step s = .next t) : runSteps (n + 1) s = runSteps n t := by
  simp only [runSteps, h]

/-! ### The step -/

/-- The operations a step can be. -/
inductive Moved (e : Option Event) (u : State) : State → Prop
  | stutter : Moved e u u
  | run {v t} (hg : Granted u v) (ha : canAccept v = true) (hr : runHead v = .next t) : Moved e u t
  | accept {v n} (he : e = some (.accept n)) (hg : Granted u v) (ha : canAccept v = true) : Moved e u (acceptHead v)
  | chunk {k} (hk : canChunk k u = true) : Moved e u (chunk k u)
  | ack : Moved e u (ackWrites u)
  | busError {a} (he : e = some (.busError a)) (ha : canBusError a u = true) :
      Moved e u { violate (.busError a) u with phase := .done, unacked := false }
  | complete (hc : canComplete u = true) : Moved e u (complete u)
  | respond (hr : u.rst = false) (hp : u.phase = .done) : Moved e u (respond u)
  | present {req} (hr : u.rst = false) : Moved e u { u with pending := u.pending ++ [req] }
  | load {agent a} (he : e = some (.load agent a)) (ha : a < addrLimit u.cfg) : Moved e u (loadByte agent a u)
  | store {agent a b} (he : e = some (.store agent a b)) (ha : a < addrLimit u.cfg) : Moved e u (storeByte agent a b u)
  | storeVar {agent a v} (he : e = some (.storeVar agent a v)) (ha : a + 3 < addrLimit u.cfg) :
      Moved e u (storeWord agent a (varValue u.obs agent v) u)
  | rstAssert (he : e = some .rstAssert) : Moved e u (rstAssertStep u)
  | rstRelease : Moved e u (rstReleaseStep u)

/-- The move `accept n` of a block that can accept is ACCEPT of the chosen request, at the head of the port. -/
theorem step_accept {n : Nat} {s : State} {r : Request} (es : List Event) (h : canAccept s = true) (hn : s.pending[n]? = some r) :
    step { s with sched := .accept n :: es } = .next (acceptHead { s with sched := es, pending := r :: s.pending.eraseIdx n }) := by
  have hlt : n < s.pending.length := (List.getElem?_eq_some_iff.1 hn).1
  have h' : canAccept { s with sched := es } = true := h
  rw [← grant_eq (u := { s with sched := es }) hn]
  show Host.Outcome.next (acceptStep n { s with sched := es }) = _
  unfold acceptStep
  rw [if_pos (by rw [h']; simpa using hlt)]

/-- The move `call n` of a block that can accept runs the chosen request, at the head of the port. -/
theorem step_call {n : Nat} {s : State} {r : Request} (es : List Event) (h : canAccept s = true) (hn : s.pending[n]? = some r) :
    step { s with sched := .call n :: es } = runHead { s with sched := es, pending := r :: s.pending.eraseIdx n } := by
  have hlt : n < s.pending.length := (List.getElem?_eq_some_iff.1 hn).1
  have h' : canAccept { s with sched := es } = true := h
  rw [← grant_eq (u := { s with sched := es }) hn]
  unfold step
  simp only [nextMove, eventMove]
  rw [if_pos (by rw [h']; simpa using hlt)]

theorem moved_of_blockMove {e : Option Event} {u t : State}
    (h : (match blockMove u with | .run v => runHead v | .did o => o) = .next t) : Moved e u t := by
  unfold blockMove at h
  split at h
  · next v hm =>
    split at hm
    · next hc =>
      cases hm
      have hg := granted_grantFree (canAccept_iff.1 hc).2.2
      exact .run hg (hg.canAccept hc) h
    · split at hm
      · cases hm
      · split at hm
        · cases hm
        · split at hm
          · cases hm
          · split at hm <;> cases hm
        · cases hm
  · next o hm =>
    subst h
    split at hm
    · cases hm
    · split at hm
      · cases hm; exact .stutter
      · split at hm
        · cases hm; exact .stutter
        · split at hm
          · cases hm
            unfold chunkStep
            split
            · next hk => exact .chunk hk
            · exact .stutter
          · split at hm
            · cases hm; exact .ack
            · cases hm
              unfold completeStep
              split
              · next hk => exact .complete hk
              · exact .stutter
        · cases hm
          unfold respondStep
          split
          · next hk =>
            simp only [Bool.and_eq_true, Bool.not_eq_true', decide_eq_true_eq] at hk
            exact .respond hk.1 hk.2
          · exact .stutter

theorem moved_of_eventMove {e : Event} {u t : State}
    (h : (match eventMove e u with | .run v => runHead v | .did o => o) = .next t) : Moved (some e) u t := by
  cases e with
  | call n =>
    simp only [eventMove] at h
    split at h
    · next v hm =>
      split at hm
      · next hc =>
        cases hm
        simp only [Bool.and_eq_true, decide_eq_true_eq] at hc
        have hg := granted_grant hc.2
        exact .run hg (hg.canAccept hc.1) h
      · cases hm
    · next o hm =>
      split at hm
      · cases hm
      · cases hm; cases h; exact .stutter
  | accept n =>
    cases h
    unfold acceptStep
    split
    · next hc =>
      simp only [Bool.and_eq_true, decide_eq_true_eq] at hc
      have hg := granted_grant hc.2
      exact .accept rfl hg (hg.canAccept hc.1)
    · exact .stutter
  | present req =>
    cases h
    unfold presentStep
    split
    · exact .stutter
    · next hr => exact .present (by simpa using hr)
  | chunk k =>
    cases h
    unfold chunkStep
    split
    · next hk => exact .chunk hk
    · exact .stutter
  | writeAck => cases h; exact .ack
  | busError a =>
    cases h
    unfold busErrorStep
    split
    · next hk => exact .busError rfl hk
    · exact .stutter
  | complete =>
    cases h
    unfold completeStep
    split
    · next hk => exact .complete hk
    · exact .stutter
  | respond =>
    cases h
    unfold respondStep
    split
    · next hk =>
      simp only [Bool.and_eq_true, Bool.not_eq_true', decide_eq_true_eq] at hk
      exact .respond hk.1 hk.2
    · exact .stutter
  | load agent a =>
    simp only [eventMove, loadStep] at h
    split at h
    · next ha => cases h; exact .load rfl ha
    · cases h
  | store agent a b =>
    simp only [eventMove, storeStep] at h
    split at h
    · next ha => cases h; exact .store rfl ha
    · cases h
  | storeVar agent a v =>
    simp only [eventMove, storeVarStep] at h
    split at h
    · next ha => cases h; exact .storeVar rfl ha
    · cases h
  | rstAssert => cases h; exact .rstAssert rfl
  | rstRelease => cases h; exact .rstRelease

/-- Everything a step that answers a next state can do: with the move taken off the schedule, it is one of the operations above. -/
theorem step_moved {s t : State} (h : step s = .next t) : Moved s.sched.head? { s with sched := s.sched.tail } t := by
  unfold step nextMove at h
  cases hs : s.sched with
  | nil =>
    rw [hs] at h
    rw [show ({ s with sched := [].tail } : State) = s by rw [List.tail_nil, ← hs]]
    exact moved_of_blockMove h
  | cons e es =>
    rw [hs] at h
    exact moved_of_eventMove h

end Sys2Proof.Machine
end

