-- ==== Sys2Proof/Laws/Ops.lean ====
section
/-! SUPPORT. One lemma for each thing a shared operation can do to the memory, to OFF and to the call in the block, for the proofs over all steps. -/

namespace Sys2Proof.Machine

/-! ### The memory a faulted or cut call leaves -/

theorem wf_rejectedMem {op : BitVec 2} {data : Nat} {dlen : Word32} {reason : FaultReason} {s : State} (h : Memory.wf s.mem = true) :
    Memory.wf (rejectedMem op data dlen reason s) = true := by
  unfold rejectedMem
  split
  · exact wf_scramble _ _ _ _ h
  · exact h

theorem below_rejectedMem {op : BitVec 2} {data : Nat} {dlen : Word32} {reason : FaultReason} {s : State}
    (h : Memory.below (addrLimit s.cfg) s.mem = true) : Memory.below (addrLimit s.cfg) (rejectedMem op data dlen reason s) = true := by
  unfold rejectedMem
  split
  · exact below_scramble _ _ _ _ h
  · exact h

theorem read_rejectedMemOther {op : BitVec 2} {data a : Nat} {dlen : Word32} (reason : FaultReason) (s : State)
    (h : OutsideBuffer data dlen.toNat a) : Memory.read (rejectedMem op data dlen reason s) a = Memory.read s.mem a := by
  unfold rejectedMem
  split
  · exact read_scrambleOther _ _ _ _ _ h
  · rfl

theorem wf_violatedMem {s : State} (h : Memory.wf s.mem = true) : Memory.wf (violatedMem s) = true := by
  unfold violatedMem
  split
  · exact wf_scramble _ _ _ _ h
  · exact h

theorem below_violatedMem {s : State} (h : Memory.below (addrLimit s.cfg) s.mem = true) :
    Memory.below (addrLimit s.cfg) (violatedMem s) = true := by
  unfold violatedMem
  split
  · exact below_scramble _ _ _ _ h
  · exact h

theorem read_violatedMemOther {s : State} {a : Nat} (h : OutsideBuffer s.reqData.toNat s.reqDlen.toNat a) :
    Memory.read (violatedMem s) a = Memory.read s.mem a := by
  unfold violatedMem
  split
  · exact read_scrambleOther _ _ _ _ _ h
  · rfl

@[simp] theorem length_drawBytes (draw : Nat) : ∀ (a : Nat) (os ns : List Byte),
    (drawBytes draw a os ns).length = min os.length ns.length
  | _, [], _ => by simp [drawBytes]
  | _, _ :: _, [] => by simp [drawBytes]
  | a, o :: os, n :: ns => by simp [drawBytes, length_drawBytes draw (a + 1) os ns]

/-- Each byte drawn is the old one or the new one. -/
theorem getElem_drawBytes (draw : Nat) : ∀ (a : Nat) (os ns : List Byte) (j : Nat), j < os.length → j < ns.length →
    (drawBytes draw a os ns)[j]? = os[j]? ∨ (drawBytes draw a os ns)[j]? = ns[j]?
  | _, [], _, _, h, _ => by simp at h
  | _, _ :: _, [], _, _, h => by simp at h
  | a, o :: os, n :: ns, 0, _, _ => by
    simp only [drawBytes, List.getElem?_cons_zero, Option.some.injEq]
    split
    · exact .inl rfl
    · exact .inr rfl
  | a, o :: os, n :: ns, j + 1, h, h' => by
    simpa [drawBytes] using getElem_drawBytes draw (a + 1) os ns j (by simpa using h) (by simpa using h')

/-! ### OFF -/

/-- An allowed chunk advances OFF exactly (40_call.md R115). -/
theorem off_add_of_canChunk {s : State} {k : Nat} (hk : canChunk k s = true) :
    (s.off + BitVec.ofNat 32 k).toNat = s.off.toNat + k := by
  simp only [canChunk, Bool.and_eq_true, decide_eq_true_eq, Bool.not_eq_true'] at hk
  have := s.reqDlen.isLt
  rw [BitVec.toNat_add, BitVec.toNat_ofNat, Nat.mod_eq_of_lt (a := k) (by omega), Nat.mod_eq_of_lt (by omega)]

/-! ### Cutting a buffer -/

theorem swapUnits_add : ∀ (a n k : Nat) (m : Memory), swapUnits a (n + k) m = swapUnits (a + 2 * n) k (swapUnits a n m)
  | a, 0, k, m => by simp [swapUnits]
  | a, n + 1, k, m => by
    rw [Nat.add_right_comm, swapUnits, swapUnits_add (a + 2) n k, swapUnits]
    congr 1
    omega

theorem crcFold_add (m : Memory) : ∀ (a n k : Nat) (c : Word32), crcFold m a (n + k) c = crcFold m (a + n) k (crcFold m a n c)
  | a, 0, k, c => by simp [crcFold]
  | a, n + 1, k, c => by
    rw [Nat.add_right_comm, crcFold, crcFold_add m (a + 1) n k, crcFold]
    congr 1
    omega

/-! ### The call in the block -/

theorem headCall_ne_none {s : State} (h : canAccept s = true) (status : CallStatus) : headCall status s ≠ none := by
  have hp := (canAccept_iff.1 h).2.2
  unfold headCall
  cases hq : s.pending with
  | nil => exact absurd hq hp
  | cons r rest => simp

theorem status_of_mem_headCall {s : State} {status : CallStatus} {k : Call} (h : k ∈ headCall status s) : k.status = status := by
  unfold headCall at h
  cases hq : s.pending <;> simp [hq] at h
  subst h
  rfl

/-- The descriptor of the call taken from the head of the port decodes to what the fetch read. -/
theorem decode_of_mem_headCall {s : State} {i : Instr} {status : CallStatus} {k : Call} (hf : fetch s = .instr i)
    (hk : k ∈ headCall status s) : decode s.cfg.addrWidth (wireWords s.cfg.addrWidth k.req.desc) = .instr i := by
  unfold fetch headWords at hf
  unfold headCall at hk
  cases hp : s.pending with
  | nil => simp [hp] at hk
  | cons r rest =>
    simp only [hp, List.head?_cons, Option.map_some, Option.mem_def, Option.some.injEq] at hk hf
    subst hk
    exact hf

/-- A decoded address is an address (30_encoding.md R82). -/
theorem data_lt_of_decode {aw : AddrWidth} {ws : List Word32} {i : Instr} (h : decode aw ws = .instr i) :
    (dataOf i).toNat < 2 ^ addrBits aw := by
  unfold decode at h
  split at h
  · next ctrl dlen lo =>
    have := lo.isLt
    unfold decodeCtrl at h
    split at h
    · cases h
      simp only [dataOf, addrBits, BitVec.truncate_eq_setWidth, BitVec.toNat_setWidth]
      omega
    · split at h
      · cases h
        simp only [dataOf, addrBits, BitVec.truncate_eq_setWidth, BitVec.toNat_setWidth]
        omega
      · cases h
  · exact (dataOf i).isLt
  · cases h

theorem op_eq_or_eq (i : Instr) : opOf i = opRev16 ∨ opOf i = opCrc32 := by
  cases i
  · exact .inl rfl
  · exact .inr rfl

/-- A forbidden access falls into the buffer of a call that passed ACCEPT (20_memory.md R60). -/
theorem forbidden_eq_true {s : State} {a : Nat} {w : Bool} :
    forbidden s a w = true ↔ ∃ k, s.call = some k ∧ k.status ≠ .rejected ∧ inBuffer s a = true ∧ (s.reqOp = opRev16 ∨ w = true) := by
  unfold forbidden
  cases s.call <;> simp [and_assoc]

/-- An unsettled byte lies in the buffer of a REV16 request rejected with a fault that leaves its bytes unspecified (60_exceptions.md R191 (e)). -/
theorem unsettled_eq_true {s : State} {a : Nat} :
    unsettled s a = true ↔ ∃ k data dlen reason, s.call = some k ∧ k.status = .rejected ∧
      decode s.cfg.addrWidth (wireWords s.cfg.addrWidth k.req.desc) = .instr (.rev16 data dlen) ∧ data.toNat ≤ a ∧
      a < data.toNat + dlen.toNat ∧ check s.cfg opRev16 data.toNat dlen = some reason ∧ leavesBytes reason = true := by
  unfold unsettled
  cases hc : s.call with
  | none => simp
  | some k =>
    cases hd : decode s.cfg.addrWidth (wireWords s.cfg.addrWidth k.req.desc) with
    | reject e => simp [hd, openByte]
    | instr i =>
      cases i with
      | crc32 data dlen => simp [hd, openByte]
      | rev16 data dlen =>
        cases hr : check s.cfg opRev16 data.toNat dlen with
        | none =>
          simp only [hd, openByte, hr, Option.any_none, Bool.and_false, Bool.false_eq_true, false_iff]
          rintro ⟨k', data', dlen', reason, hk, -, hd', -, -, hr', -⟩
          cases hk
          rw [hd] at hd'
          cases hd'
          simp [hr] at hr'
        | some reason =>
          simp only [hd, openByte, hr, Option.any_some, Bool.and_eq_true, decide_eq_true_eq]
          constructor
          · rintro ⟨hs, ⟨h₁, h₂⟩, h₃⟩
            exact ⟨k, data, dlen, reason, rfl, hs, hd, h₁, h₂, hr, h₃⟩
          · rintro ⟨k', data', dlen', reason', hk, hs, hd', h₁, h₂, hr', h₃⟩
            cases hk
            rw [hd] at hd'
            cases hd'
            rw [hr] at hr'
            cases hr'
            exact ⟨hs, ⟨h₁, h₂⟩, h₃⟩

/-- A byte is not both forbidden and unsettled: the one needs a call that passed ACCEPT, the other a rejected one (60_exceptions.md R189). -/
theorem not_unsettled_of_forbidden {s : State} {a a' : Nat} {w : Bool} (h : forbidden s a w = true) : unsettled s a' = false := by
  obtain ⟨k, hk, hs, -⟩ := forbidden_eq_true.1 h
  simp [unsettled, hk, hs]

/-- Everything a load can do: raise ConcurrentAccess, answer a free value for an unsettled byte, or answer memory's byte. -/
theorem loadByte_cases (agent a : Nat) (s : State) :
    (forbidden s a false = true ∧ loadByte agent a s =
      { violate (.concurrentAccess a agent) s with
        obs := .loaded agent a (Config.freeByte (s.draws + 1) a) :: s.obs, draws := s.draws + 2 }) ∨
    (forbidden s a false = false ∧ unsettled s a = true ∧ loadByte agent a s =
      { s with obs := .loaded agent a (Config.freeByte s.draws a) :: s.obs, draws := s.draws + 1 }) ∨
    (forbidden s a false = false ∧ unsettled s a = false ∧ loadByte agent a s =
      { s with obs := .loaded agent a (Memory.read s.mem a) :: s.obs }) := by
  cases hf : forbidden s a false <;> cases hu : unsettled s a <;> simp [loadByte, hf, hu]

/-- Everything a store can do: raise ConcurrentAccess, leave a free value in an unsettled byte, or write its byte. -/
theorem storeByte_cases (agent a : Nat) (b : Byte) (s : State) :
    (forbidden s a true = true ∧ storeByte agent a b s =
      { violate (.concurrentAccess a agent) s with
        mem := Memory.write (violatedMem s) a (Config.freeByte (s.draws + 1) a), draws := s.draws + 2 }) ∨
    (forbidden s a true = false ∧ unsettled s a = true ∧ storeByte agent a b s =
      { s with mem := Memory.write s.mem a (Config.freeByte s.draws a), draws := s.draws + 1 }) ∨
    (forbidden s a true = false ∧ unsettled s a = false ∧ storeByte agent a b s = { s with mem := Memory.write s.mem a b }) := by
  cases hf : forbidden s a true <;> cases hu : unsettled s a <;> simp [storeByte, hf, hu]

/-- What a store by an agent leaves, byte by byte: nothing outside the stored byte and, when it is forbidden, the borrowed buffer. -/
theorem read_storeByteOther {s : State} {agent a a' : Nat} {b : Byte} (hne : a ≠ a')
    (hout : forbidden s a true = true → OutsideBuffer s.reqData.toNat s.reqDlen.toNat a') :
    Memory.read (storeByte agent a b s).mem a' = Memory.read s.mem a' := by
  unfold storeByte
  split
  · next h => exact (Memory.read_writeOther hne _ _).trans (read_violatedMemOther (hout h))
  · split <;> exact Memory.read_writeOther hne _ _

end Sys2Proof.Machine
end

