-- ==== Sys2Proof/Laws/PerInstr.lean ====
section
/-! SUPPORT. What holds of every instruction, said for each constructor: the shape of its descriptor. -/

namespace Sys2Proof.Laws.Shape

/-- The descriptor has the number of words that `ADDR_W` fixes (30_encoding.md R81, R89), its first word is one of the two of the operation map (R86),
and it decodes (R87). -/
def Statement (i : Instr) : Prop :=
  ∀ aw, (encode aw i).length = descriptorWords aw ∧
    ((encode aw i).head? = some ctrlRev16 ∨ (encode aw i).head? = some ctrlCrc32) ∧
    ∀ e, decode aw (encode aw i) ≠ .reject e

theorem rev16 (data : BitVec 64) (dlen : Word32) : Statement (.rev16 data dlen) := by
  intro aw
  cases aw <;> simp [encode, descriptorOf, descriptorWords, decode, decodeCtrl]

theorem crc32 (data : BitVec 64) (dlen : Word32) : Statement (.crc32 data dlen) := by
  have hne : ctrlCrc32 ≠ ctrlRev16 := by decide
  intro aw
  cases aw <;> simp [encode, descriptorOf, descriptorWords, decode, decodeCtrl, hne]

end Sys2Proof.Laws.Shape
end

