-- ==== Sys2Proof/Tests/Slice0.lean ====
section
/-! SUPPORT. The model's own tests: well-formedness and decoding of words written out from the spec, one-step tests with the vectors of
95_test_vectors.md, and for every statement with hypotheses a concrete state and operands that meet them together. -/

namespace Sys2Proof.Tests

open Sys2Proof.Machine

/-! ### Helpers -/

/-- A request of requester 0 for its variable r0. -/
def reqOf (ctrl dlen data : Word32) : Request := ⟨0, some 0, ⟨ctrl, dlen, data, 0#32⟩⟩

/-- The machine after reset with a memory, requests on the port and moves to come. -/
def onPort (m : Memory) (rs : List Request) (es : List Event) : State := { State.reset with mem := m, pending := rs, sched := es }

/-- The bytes 01 02 03 04 at 0x1000 (95_test_vectors.md P1). -/
def mem1234 : Memory := [(0x1000, 1#8), (0x1001, 2#8), (0x1002, 3#8), (0x1003, 4#8)]

/-- `rev16 0x1000, 4` on the port (V-R1). -/
def sRev : State := onPort mem1234 [reqOf 0#32 4#32 0x1000#32] []

/-- `crc32 r0, 0x1000, 4` on the port (V-C11). -/
def sCrc : State := onPort mem1234 [reqOf 1#32 4#32 0x1000#32] []

/-- A running REV16 call, not yet begun, with moves to come. -/
def sBusyRev (es : List Event) : State :=
  { sRev with
    pending := []
    call := some ⟨reqOf 0#32 4#32 0x1000#32, .legal⟩
    phase := .busy
    reqOp := opRev16
    reqData := 0x1000#64
    reqDlen := 4#32
    sched := es }

/-- A running CRC32 call, not yet begun, with moves to come. -/
def sBusyCrc (es : List Event) : State :=
  { sCrc with
    pending := []
    call := some ⟨reqOf 1#32 4#32 0x1000#32, .legal⟩
    phase := .busy
    reqOp := opCrc32
    reqData := 0x1000#64
    reqDlen := 4#32
    sched := es }

/-- `rev16 0x1000, 3`, rejected at ACCEPT, with moves to come. -/
def sOdd (es : List Event) : State :=
  { sRev with pending := [], call := some ⟨reqOf 0#32 3#32 0x1000#32, .rejected⟩, phase := .done, sched := es }

/-- The next state of an outcome. -/
def nextOf : Host.Outcome State Fault Refusal → Option State
  | .next t => some t
  | _ => none

/-! ### Well-formedness -/

theorem test_wellFormed_refuses_rev16 : wellFormed .w32 (.rev16 0x100000000#64 4#32) = false := by decide
theorem test_wellFormed_refuses_crc32 : wellFormed .w32 (.crc32 0x100000000#64 4#32) = false := by decide
theorem test_wellFormed_accepts_top : wellFormed .w32 (.rev16 0xFFFFFFFF#64 0#32) = true ∧ wellFormed .w64 (.crc32 0x100000000#64 4#32) = true := by
  decide
theorem test_memory_refuses_unsorted : Memory.wf [(5, 1#8), (4, 1#8)] = false := by decide
theorem test_memory_refuses_unlisted_value : Memory.wf [(5, 0#8)] = false := by decide
theorem test_memory_refuses_outside : Memory.below (2 ^ 32) [(2 ^ 32, 1#8)] = false := by decide

/-! ### Decoding: the words of 30_encoding.md R90 and of programs P1, P3 -/

theorem test_decode_rev16 : decode .w32 [0x00000000#32, 0x00000004#32, 0x00001000#32] = .instr (.rev16 0x1000#64 4#32) := by decide
theorem test_decode_crc32 : decode .w32 [0x00000001#32, 0x00000009#32, 0x00001000#32] = .instr (.crc32 0x1000#64 9#32) := by decide
theorem test_decode_high_word :
    decode .w64 [0x00000000#32, 0x00000004#32, 0x00001000#32, 0x80000000#32] = .instr (.rev16 0x8000000000001000#64 4#32) := by decide
theorem test_decode_reserved_op : decode .w32 [0x00000002#32, 4#32, 0x1000#32] = .reject .illegalRequest := by decide
theorem test_decode_reserved_bit : decode .w32 [0x80000001#32, 4#32, 0x1000#32] = .reject .illegalRequest := by decide
theorem test_decode_length : decode .w64 [0#32, 4#32, 0x1000#32] = .reject .wrongLength := by decide
theorem test_decodeTableWord : decodeTableWord 32 1 = some (.crc32 0#64 0#32) ∧ decodeTableWord 32 0 = some (.rev16 0#64 0#32) ∧
    decodeTableWord 32 3 = none := by decide
theorem test_step_runs_table_word :
    ((nextOf (step (State.reset.withFetchWord 32 1))).map fun t => (t.ret, t.phase, t.reqOp)) = some (0#32, .done, opCrc32) := by
  decide +kernel

/-! ### The instructions (95_test_vectors.md) -/

/-- V-R1. -/
theorem test_rev16_bytes : ((nextOf (step sRev)).map fun t => (Memory.readBytes t.mem 0x1000 4, t.ret)) =
    some ([2#8, 1#8, 4#8, 3#8], 0#32) := by decide +kernel

/-- V-R4 (odd data): the bytes beside the buffer are not touched. -/
theorem test_rev16_odd_data :
    ((nextOf (exec (.rev16 0x1001#64 2#32) sRev)).map fun t => Memory.readBytes t.mem 0x1000 4) = some [1#8, 3#8, 2#8, 4#8] := by
  decide +kernel

/-- V-C11. -/
theorem test_crc32_bytes : ((nextOf (step sCrc)).map fun t => (t.ret, t.mem)) = some (0xB63CFBCD#32, mem1234) := by decide +kernel

/-- V-C21 (odd length). -/
theorem test_crc32_odd_length : ((nextOf (exec (.crc32 0x1000#64 3#32) sCrc)).map (·.ret)) = some 0x55BC801D#32 := by decide +kernel

/-! ### Faults: V-R9, V-R13, V-F4, V-F6, V-F10, V-F11, V-F14 -/

/-- The code of the last fault recorded (60_exceptions.md R180). -/
def lastCode (o : Host.Outcome State Fault Refusal) : Option Nat := (nextOf o).bind fun t => t.fault.getLast?.map fun e => faultCode e.reason

theorem test_fault_odd : lastCode (exec (.rev16 0x1000#64 3#32) sRev) = some 3 := by decide +kernel
theorem test_fault_negative_before_odd : lastCode (exec (.rev16 0x1000#64 0xFFFFFFFF#32) sRev) = some 2 := by decide +kernel
theorem test_fault_illegal_first : lastCode (step (onPort [] [reqOf 2#32 0xFFFFFFFF#32 0x1000#32] [])) = some 1 := by decide +kernel
theorem test_fault_wrap : lastCode (exec (.crc32 0xFFFFFFF0#64 17#32) sCrc) = some 4 := by decide +kernel
theorem test_top_of_memory_is_legal : lastCode (exec (.crc32 0xFFFFFFF0#64 16#32) sCrc) = none := by decide +kernel

/-- The platform of V-F10: byte 0x1001 may be read and not written. -/
def cfgReadOnly : Config := ⟨.w32, 1, [⟨0, 0x1001, .readWrite⟩, ⟨0x1001, 1, .read⟩, ⟨0x1002, 2, .readWrite⟩]⟩

theorem test_fault_invalid_buffer : ((nextOf (exec (.rev16 0x1000#64 2#32) { sRev with cfg := cfgReadOnly })).bind fun t =>
    t.fault.getLast?.map (·.reason)) = some (.invalidBuffer 0x1001) := by decide +kernel
theorem test_read_only_buffer_is_legal_for_crc32 : lastCode (exec (.crc32 0x1000#64 2#32) { sCrc with cfg := cfgReadOnly }) = none := by
  decide +kernel
theorem test_fault_concurrent_store : lastCode (step (sBusyCrc [.store 7 0x1002 9#8])) = some 6 := by decide +kernel
theorem test_concurrent_load_of_crc32 : lastCode (step (sBusyCrc [.load 7 0x1002])) = none := by decide +kernel

/-! ### The datapath: V-W3, V-L7, V-T -/

theorem test_swap16 : swap16 2 0xAABBCCDD#32 = 0xBBAADDCC#32 := by decide +kernel
theorem test_swap16_wide : swap16 4 0x0807060504030201#64 = 0x0708050603040102#64 := by decide +kernel
theorem test_beat_of_eight_bytes :
    crcBeat 0xFFFFFFFF#32 [0x31#8, 0x32#8, 0x33#8, 0x34#8, 0x35#8, 0x36#8, 0x37#8, 0x38#8] = 0x651F2550#32 := by decide +kernel
theorem test_table_entry : crcTable 200#8 = 0x95BF4A82#32 := by
  decide +kernel

/-! ### Requester actions (30_encoding.md R91, P3) -/

theorem test_st32le : ((nextOf (step { sRev with obs := [.response 0 (some 0) 0xCBF43926#32], sched := [.storeVar 0 0x300A 0] })).map fun t =>
    Memory.readBytes t.mem 0x300A 4) = some [0x26#8, 0x39#8, 0xF4#8, 0xCB#8] := by decide +kernel

/-! ### Witnesses: states and operands that meet the hypotheses of the statements together -/

theorem witness_DecodeEncodeRoundTrip : wellFormed .w32 (.rev16 0xFFFFFFFF#64 0x7FFFFFFE#32) = true ∧
    wellFormed .w64 (.crc32 0xFFFFFFFFFFFFFFFF#64 1#32) = true := by decide

theorem witness_DecodedWordsAreTheEncoding : decode .w64 [1#32, 9#32, 0x1000#32, 2#32] = .instr (.crc32 0x200001000#64 9#32) := by decide

theorem witness_IllegalExactlyByCtrl :
    ¬ ((1#32).extractLsb' 0 2 = 2#2 ∨ (1#32).extractLsb' 0 2 = 3#2 ∨ (1#32).extractLsb' 2 30 ≠ 0#30) ∧
    decode .w32 (wireWords .w32 ⟨1#32, 9#32, 0x1000#32, 5#32⟩) = .instr (.crc32 0x1000#64 9#32) := by decide

theorem witness_IllegalRequestIsRecorded :
    let s := onPort [] [reqOf 2#32 4#32 0x1000#32] []
    s.sched = [] ∧ s.rst = false ∧ s.phase = .idle ∧ s.pending = [reqOf 2#32 4#32 0x1000#32] ∧
      (reqOf 2#32 4#32 0x1000#32).desc.ctrl.extractLsb' 0 2 = 2#2 := by decide

theorem witness_IllegalRequestIsRecorded_reserved : (0x80000001#32).extractLsb' 2 30 ≠ 0#30 := by decide

theorem witness_StepRunsTheDecodedRequest :
    (sRev.rst = false ∧ sRev.phase = .idle ∧ sRev.sched = [] ∧ sRev.pending = [reqOf 0#32 4#32 0x1000#32] ∧
      fetch sRev = .instr (.rev16 0x1000#64 4#32)) ∧
    (let s := onPort mem1234 [reqOf 0#32 4#32 0x1000#32, reqOf 1#32 4#32 0x1000#32] [.call 1]
     s.sched = [.call 1] ∧ 1 < s.pending.length ∧ fetch (grant 1 { s with sched := [] }) = .instr (.crc32 0x1000#64 4#32)) ∧
    (sRev.pending ≠ [] ∧ fetch (grantFree sRev) = .instr (.rev16 0x1000#64 4#32)) := by decide +kernel

theorem witness_NegativeLengthFaults : sRev.rst = false ∧ sRev.phase = .idle ∧ sRev.pending = [reqOf 0#32 4#32 0x1000#32] ∧
    (0x80000000#32).toInt < 0 ∧ (0xFFFFFFFF#32).toInt < 0 := by decide

theorem witness_OddLengthFaultsRev16Only : sRev.rst = false ∧ sRev.phase = .idle ∧ sRev.pending = [reqOf 0#32 4#32 0x1000#32] ∧
    Memory.wf sRev.mem = true ∧ 0 ≤ (1#32).toInt ∧ (1#32).toInt % 2 = 1 ∧ (0x7FFFFFFF#32).toInt % 2 = 1 ∧
    ¬ OutsideBuffer 0x1000 1 0x1000 ∧ 0x1000 < addrLimit sRev.cfg ∧ OutsideBuffer 0x1000 1 0x1001 ∧
    (nextOf (exec (.crc32 0x1000#64 3#32) sCrc)).isSome = true := by decide +kernel

theorem witness_RangeWrapFaults :
    (0 < (4#32).toInt ∧ (0xFFFFFFFE#64).toNat + (4#32).toInt > addrLimit sRev.cfg ∧ (4#32).toInt % 2 = 0) ∧
    ((0xFFFFFFFC#64).toNat + (4#32).toInt ≤ addrLimit sRev.cfg ∧ (nextOf (exec (.rev16 0xFFFFFFFC#64 4#32) sRev)).isSome = true) := by
  decide +kernel

theorem witness_InvalidBufferFaults :
    let s : State := { sRev with cfg := cfgReadOnly }
    s.rst = false ∧ s.phase = .idle ∧ s.pending = [reqOf 0#32 4#32 0x1000#32] ∧ 0 < (4#32).toInt ∧ (4#32).toInt % 2 = 0 ∧
      (0x1000#64).toNat + (4#32).toInt ≤ addrLimit s.cfg ∧ memValid s.cfg (kindOf opRev16) 0x1001 = false ∧
      memValid s.cfg (kindOf opRev16) 0x1000 = true := by decide +kernel

theorem witness_InvalidBufferFaults_crc32 :
    let s : State := { sCrc with cfg := cfgReadOnly }
    (0x1000#64).toNat + (5#32).toInt ≤ addrLimit s.cfg ∧ memValid s.cfg (kindOf opCrc32) 0x1004 = false ∧
      ∀ j < 4, memValid s.cfg (kindOf opCrc32) (0x1000 + j) = true := by decide +kernel

theorem witness_canAccept : canAccept sRev = true ∧ canAccept sCrc = true := by decide

/-- Each clause of the check at a boundary value, on a state that can accept. -/
theorem witness_TheFirstFailingCheckIsRecorded :
    (canAccept sRev = true ∧ (0xFFFFFFFF#32).toInt < 0) ∧
    (0 ≤ (0x7FFFFFFF#32).toInt ∧ (0x7FFFFFFF#32).toInt % 2 = 1) ∧
    (0 < (2#32).toInt ∧ (2#32).toInt % 2 = 0 ∧ (0xFFFFFFFF#64).toNat + (2#32).toInt > addrLimit sRev.cfg) ∧
    (let s : State := { sRev with cfg := cfgReadOnly }
     canAccept s = true ∧ (0x1000#64).toNat + (2#32).toInt ≤ addrLimit s.cfg ∧ (0x1000#64).toNat ≤ 0x1001 ∧
       0x1001 < (0x1000#64).toNat + (2#32).toNat ∧ memValid s.cfg (kindOf opRev16) 0x1001 = false ∧
       memValid s.cfg (kindOf opRev16) 0x1000 = true) ∧
    Legal sRev.cfg opRev16 (0xFFFFFFFE#64).toNat 2#32 := by decide +kernel

theorem witness_RequestsAreHeldWhileBusy :
    (sBusyRev []).phase ≠ .idle ∧ (sBusyRev []).sched.head? ≠ some .rstAssert ∧ (nextOf (step (sBusyRev []))).isSome = true ∧
    State.reset.pending = [] ∧ ({ sRev with rst := true } : State).rst = true := by decide +kernel

theorem witness_RequestsAreHeldWhileBusy_present :
    let s := sBusyRev [.present (reqOf 1#32 4#32 0x1000#32)]
    s.sched = [.present (reqOf 1#32 4#32 0x1000#32)] ∧ s.rst = false := by decide

theorem witness_ArbiterMayChooseAnyRequest :
    let s := onPort mem1234 [reqOf 0#32 4#32 0x1000#32, reqOf 1#32 4#32 0x1000#32] [.call 1]
    s.sched = [.call 1] ∧ s.rst = false ∧ s.phase = .idle ∧ s.pending[1]? = some (reqOf 1#32 4#32 0x1000#32) := by decide

theorem witness_Rev16RefSwapsUnits : ([1#8, 2#8, 3#8, 4#8] : List Byte).length % 2 = 0 ∧ 1 < ([1#8, 2#8, 3#8, 4#8] : List Byte).length / 2 := by
  decide

theorem witness_Rev16CompletesWithItsResult : sRev.rst = false ∧ sRev.phase = .idle ∧ sRev.pending = [reqOf 0#32 4#32 0x1000#32] ∧
    Memory.wf sRev.mem = true ∧ Legal sRev.cfg opRev16 (0x1000#64).toNat 4#32 := by decide +kernel

theorem witness_Rev16_at_the_top : Legal sRev.cfg opRev16 (0xFFFFFFFC#64).toNat 4#32 ∧ Legal sRev.cfg opRev16 (0#64).toNat 0#32 := by
  decide +kernel

theorem witness_Rev16OfLengthZero : sRev.rst = false ∧ sRev.phase = .idle ∧ sRev.pending = [reqOf 0#32 4#32 0x1000#32] := by decide

theorem witness_Rev16IsAnInvolution :
    ∃ t u : State, exec (.rev16 0x1000#64 4#32) sRev = .next t ∧ canAccept u = true ∧ u.cfg = sRev.cfg ∧ u.mem = t.mem ∧
      (nextOf (exec (.rev16 0x1000#64 4#32) u)).isSome = true :=
  ⟨runRev16 0x1000#64 4#32 sRev, { sRev with mem := (runRev16 0x1000#64 4#32 sRev).mem }, by rfl, by decide, rfl, rfl,
    by decide +kernel⟩

theorem witness_Rev16IsLocal :
    ∃ t u : State, exec (.rev16 0x1000#64 2#32) sRev = .next t ∧ canAccept u = true ∧ u.cfg = sRev.cfg ∧ u.mem = t.mem ∧
      (2#32).toNat % 2 = 0 ∧ (2#32).toNat ≤ (4#32).toNat ∧ (nextOf (exec (.rev16 (0x1000#64 + (2#32).zeroExtend 64) (4#32 - 2#32)) u)).isSome = true :=
  ⟨runRev16 0x1000#64 2#32 sRev, { sRev with mem := (runRev16 0x1000#64 2#32 sRev).mem }, by rfl, by decide, rfl, rfl, by decide, by decide,
    by decide +kernel⟩

theorem witness_SwapperLanesExchangeBytes : ([1#8, 2#8, 3#8, 4#8] : List Byte).length = 2 * 2 ∧ 1 < 2 := by decide

theorem witness_Crc32CompletesWithItsResult : sCrc.rst = false ∧ sCrc.phase = .idle ∧ sCrc.pending = [reqOf 1#32 4#32 0x1000#32] ∧
    Legal sCrc.cfg opCrc32 (0x1000#64).toNat 4#32 := by decide +kernel

theorem witness_Crc32OfLengthZero : sCrc.rst = false ∧ sCrc.phase = .idle ∧ sCrc.pending = [reqOf 1#32 4#32 0x1000#32] := by decide

theorem witness_Crc32WritesNoMemory : (nextOf (exec (.crc32 0x1000#64 4#32) sCrc)).isSome = true ∧
    (let s := sBusyCrc [.chunk 3]
     s.phase ≠ .idle ∧ s.reqOp = opCrc32 ∧ (nextOf (step s)).isSome = true ∧ s.sched.head? = some (.chunk 3)) := by decide +kernel

/-- "123456789" at 0x3001 (V-S3). -/
theorem witness_CrcCheckValue :
    let s := onPort [(0x3001, 0x31#8), (0x3002, 0x32#8), (0x3003, 0x33#8), (0x3004, 0x34#8), (0x3005, 0x35#8), (0x3006, 0x36#8),
      (0x3007, 0x37#8), (0x3008, 0x38#8), (0x3009, 0x39#8)] [reqOf 1#32 9#32 0x3001#32] []
    canAccept s = true ∧ Legal s.cfg opCrc32 (0x3001#64).toNat 9#32 ∧
      Memory.readBytes s.mem (0x3001#64).toNat 9 = [0x31#8, 0x32#8, 0x33#8, 0x34#8, 0x35#8, 0x36#8, 0x37#8, 0x38#8, 0x39#8] := by
  decide +kernel

theorem witness_GroupingDoesNotMatter : 0 < 2 := by decide

theorem witness_WordLaw : 1 ≤ ([1#8] : List Byte).length ∧ ([1#8, 2#8, 3#8, 4#8] : List Byte).length ≤ 4 ∧
    ([1#8, 2#8, 3#8, 4#8] : List Byte).length = 4 := by decide

theorem witness_Crc32IsAFunctionOfTheBytes :
    let s' : State := { sCrc with mem := [(0x2001, 1#8), (0x2002, 2#8)] }
    canAccept sCrc = true ∧ canAccept s' = true ∧ Legal sCrc.cfg opCrc32 (0x1000#64).toNat 2#32 ∧ Legal s'.cfg opCrc32 (0x2001#64).toNat 2#32 ∧
      ∀ k < 2, Memory.read sCrc.mem (0x1000 + k) = Memory.read s'.mem (0x2001 + k) := by decide +kernel

theorem witness_OneFlippedBitChangesTheChecksum : 7 < 8 := by decide

theorem witness_AcceptLatchesTheRequest :
    let s := onPort mem1234 [reqOf 2#32 4#32 0x1000#32, reqOf 1#32 4#32 0x1000#32] [.accept 1]
    s.sched = [.accept 1] ∧ s.rst = false ∧ s.phase = .idle ∧ s.pending[1]? = some (reqOf 1#32 4#32 0x1000#32) ∧
      decode s.cfg.addrWidth (wireWords s.cfg.addrWidth (reqOf 1#32 4#32 0x1000#32).desc) = .instr (.crc32 0x1000#64 4#32) ∧
      Legal s.cfg opCrc32 (0x1000#64).toNat 4#32 := by decide +kernel

/-- An odd REV16 request first, and an illegal one second. -/
theorem witness_AcceptRejectsAsTheOneStepCallDoes :
    let s := onPort mem1234 [reqOf 0#32 3#32 0x1000#32, reqOf 2#32 4#32 0x1000#32] []
    s.rst = false ∧ s.phase = .idle ∧ s.pending[0]? = some (reqOf 0#32 3#32 0x1000#32) ∧
      decode s.cfg.addrWidth (wireWords s.cfg.addrWidth (reqOf 0#32 3#32 0x1000#32).desc) = .instr (.rev16 0x1000#64 3#32) ∧
      ¬ Legal s.cfg opRev16 (0x1000#64).toNat 3#32 ∧ s.pending[1]? = some (reqOf 2#32 4#32 0x1000#32) ∧
      decode s.cfg.addrWidth (wireWords s.cfg.addrWidth (reqOf 2#32 4#32 0x1000#32).desc) = .reject .illegalRequest := by decide +kernel

/-- V-F1: the move `accept` records IllegalRequest and touches no memory. -/
theorem test_accept_records_illegal :
    ((nextOf (step (onPort mem1234 [reqOf 2#32 4#32 0x1000#32] [.accept 0]))).map fun t => (t.fault.map fun e => faultCode e.reason, t.mem, t.phase)) =
      some ([1], mem1234, .done) := by decide +kernel

theorem witness_Rev16ChunkSwapsItsUnits :
    let s := sBusyRev [.chunk 2]
    s.sched = [.chunk 2] ∧ s.reqOp = opRev16 ∧ canChunk 2 s = true ∧ canChunk 4 s = true ∧ Memory.wf s.mem = true := by decide +kernel

theorem witness_Crc32ChunkFoldsItsBytes :
    let s := sBusyCrc [.chunk 3]
    s.sched = [.chunk 3] ∧ s.reqOp = opCrc32 ∧ canChunk 3 s = true ∧ canChunk 1 s = true ∧ canChunk 4 s = true := by decide +kernel

theorem witness_CompleteSetsRet :
    (let s : State := { sBusyCrc [.complete] with off := 4#32 }
     s.sched = [.complete] ∧ s.call = some ⟨reqOf 1#32 4#32 0x1000#32, .legal⟩ ∧ s.rst = false ∧ s.phase = .busy ∧ s.off = s.reqDlen ∧
       s.unacked = false ∧ s.reqOp = opCrc32) ∧
    (let s : State := { sBusyRev [.complete] with off := 4#32 }
     s.off = s.reqDlen ∧ s.unacked = false ∧ s.reqOp = opRev16) ∧
    (sBusyRev [.complete]).off ≠ (sBusyRev [.complete]).reqDlen ∧
    ({ sBusyRev [.complete] with off := 4#32, unacked := true } : State).unacked = true := by decide

theorem witness_CompleteSetsRet_violated :
    let s : State := { sBusyRev [.complete] with off := 4#32, call := some ⟨reqOf 0#32 4#32 0x1000#32, .violated⟩ }
    s.sched = [.complete] ∧ s.rst = false ∧ s.phase = .busy ∧ s.call = some ⟨reqOf 0#32 4#32 0x1000#32, .violated⟩ ∧ s.off = s.reqDlen ∧
      s.unacked = false := by decide

theorem witness_RespondDeliversRet :
    let s : State := { sBusyCrc [.respond] with off := 4#32, phase := .done, ret := 0xB63CFBCD#32 }
    s.call = some ⟨reqOf 1#32 4#32 0x1000#32, .legal⟩ ∧ s.rst = false ∧ s.phase = .done ∧ s.sched = [.respond] := by decide

theorem witness_some_step : (nextOf (step sRev)).isSome = true ∧ (nextOf (step State.reset)).isSome = true := by decide +kernel

theorem witness_StepByStepEqualsOneStep :
    let s := onPort mem1234 [reqOf 1#32 4#32 0x1000#32] [.accept 0, .chunk 1, .chunk 3, .writeAck, .complete, .respond]
    s.rst = false ∧ s.phase = .idle ∧ s.pending = [reqOf 1#32 4#32 0x1000#32] ∧ fetch s = .instr (.crc32 0x1000#64 4#32) ∧
      Legal s.cfg opCrc32 (0x1000#64).toNat 4#32 ∧ (∀ k ∈ [1, 3], 1 ≤ k ∧ chunkOk opCrc32 k = true) ∧ [1, 3].sum = (4#32).toNat ∧
      s.sched = .accept 0 :: ([1, 3].map Event.chunk ++ [.writeAck, .complete]) ++ [.respond] := by decide +kernel

theorem witness_StepByStepEqualsOneStep_rev16 :
    (∀ k ∈ [2, 2], 1 ≤ k ∧ chunkOk opRev16 k = true) ∧ [2, 2].sum = (4#32).toNat ∧ fetch sRev = .instr (.rev16 0x1000#64 4#32) := by decide

theorem witness_ALegalCallIsAtomic :
    let s := onPort mem1234 [reqOf 0#32 4#32 0x1000#32] [.call 0, .respond]
    s.rst = false ∧ s.phase = .idle ∧ s.sched = [.call 0, .respond] ∧ s.pending = [reqOf 0#32 4#32 0x1000#32] ∧
      Memory.wf s.mem = true ∧ fetch s = .instr (.rev16 0x1000#64 4#32) ∧ Legal s.cfg opRev16 (0x1000#64).toNat 4#32 := by
  decide +kernel

theorem witness_ALegalCallIsAtomic_crc32 :
    let s := onPort mem1234 [reqOf 1#32 4#32 0x1000#32] [.call 0, .respond]
    s.pending = [reqOf 1#32 4#32 0x1000#32] ∧ Memory.wf s.mem = true ∧
      fetch s = .instr (.crc32 0x1000#64 4#32) ∧ Legal s.cfg opCrc32 (0x1000#64).toNat 4#32 := by decide +kernel

theorem witness_busy_BlockInv_rev16 : BlockInv (sBusyRev []) := by
  refine ⟨by decide, ⟨by decide, by decide, by decide, ?_, ?_⟩, (by decide +kernel), ?_⟩ <;>
  · rintro k ⟨⟩
    decide

theorem witness_busy_BlockInv_crc32 : BlockInv (sBusyCrc []) := by
  refine ⟨by decide, ⟨by decide, by decide, by decide, ?_, ?_⟩, (by decide +kernel), ?_⟩ <;>
  · rintro k ⟨⟩
    decide

/-- The invariant does not read the moves still to come. -/
theorem witness_busy_BlockInv (es : List Event) : BlockInv (sBusyRev es) ∧ BlockInv (sBusyCrc es) :=
  ⟨witness_busy_BlockInv_rev16, witness_busy_BlockInv_crc32⟩

theorem witness_ARunningCallReachesDone :
    (sBusyRev []).rst = false ∧ (sBusyRev []).phase = .busy ∧ (sBusyRev []).sched = [] := by decide

theorem witness_ARunningCallReachesDone_response :
    (sOdd []).call = some ⟨reqOf 0#32 3#32 0x1000#32, .rejected⟩ ∧ (sOdd []).rst = false ∧ (sOdd []).phase = .done ∧ (sOdd []).sched = [] := by
  decide

theorem witness_SequencerArithmeticIsExact : RequestInv (sBusyRev []) ∧ canChunk 4 (sBusyRev []) = true ∧ 3 < (sBusyRev []).reqDlen.toNat := by
  decide +kernel

theorem witness_ForbiddenAccessesFault :
    (let s := sBusyRev [.load 7 0x1003]
     s.call = some ⟨reqOf 0#32 4#32 0x1000#32, .legal⟩ ∧ inBuffer s 0x1003 = true ∧ inBuffer s 0x1000 = true ∧ 0x1003 < addrLimit s.cfg ∧
       s.sched = [.load 7 0x1003] ∧ s.reqOp = opRev16) ∧
    (let s := sBusyRev [.store 7 0x1000 9#8]
     s.sched = [.store 7 0x1000 9#8] ∧ inBuffer s 0x1000 = true) ∧
    (let s := sBusyCrc [.load 7 0x1003]
     s.sched = [.load 7 0x1003] ∧ s.reqOp = opCrc32 ∧ inBuffer s 0x1003 = true) := by decide +kernel

/-- An st32le whose last two bytes are the first two of the buffer, and one whose first byte is its last. -/
theorem witness_ForbiddenWordStoresFaultByteByByte :
    (let s := sBusyRev [.storeVar 7 0xFFE 0]
     s.call = some ⟨reqOf 0#32 4#32 0x1000#32, .legal⟩ ∧ 0xFFE + 3 < addrLimit s.cfg ∧ Memory.wf s.mem = true ∧
       s.sched = [.storeVar 7 0xFFE 0] ∧ inBuffer s (0xFFE + 2) = true ∧ inBuffer s (0xFFE + 1) = false ∧ s.reqOp = opRev16) ∧
    (let s := sBusyCrc [.storeVar 7 0x1003 0]
     inBuffer s (0x1003 + 0) = true ∧ inBuffer s (0x1003 + 1) = false ∧ s.reqOp = opCrc32) := by decide +kernel

/-- One ConcurrentAccess for each byte inside (notes/assumptions/22). -/
theorem test_word_store_faults_by_byte :
    ((nextOf (step (sBusyCrc [.storeVar 7 0xFFE 0]))).map fun t => t.fault.map (·.reason)) =
      some [.concurrentAccess 0x1000 7, .concurrentAccess 0x1001 7] := by decide +kernel

theorem witness_OtherAccessesArePlain :
    (let s := sBusyRev [.load 7 0x1004]
     Memory.wf s.mem = true ∧ 0x1004 < addrLimit s.cfg ∧ s.sched = [.load 7 0x1004] ∧ forbidden s 0x1004 false = false ∧
       unsettled s 0x1004 = false) ∧
    (let s := sBusyRev [.store 7 0xFFF 9#8]
     s.sched = [.store 7 0xFFF 9#8] ∧ forbidden s 0xFFF true = false ∧ unsettled s 0xFFF = false) ∧
    (let s := sBusyRev [.storeVar 0 0xFFC 0]
     s.sched = [.storeVar 0 0xFFC 0] ∧ (∀ j < 4, forbidden s (0xFFC + j) true = false ∧ unsettled s (0xFFC + j) = false) ∧
       0xFFC + 3 < addrLimit s.cfg) := by decide +kernel

theorem witness_RejectedRev16BytesAreUnspecified :
    let s := sOdd [.store 7 0x1002 9#8]
    s.call = some ⟨reqOf 0#32 3#32 0x1000#32, .rejected⟩ ∧
      decode s.cfg.addrWidth (wireWords s.cfg.addrWidth (reqOf 0#32 3#32 0x1000#32).desc) = .instr (.rev16 0x1000#64 3#32) ∧
      check s.cfg opRev16 (0x1000#64).toNat 3#32 = some .oddLength ∧ (0x1000#64).toNat ≤ 0x1002 ∧
      0x1002 < (0x1000#64).toNat + (3#32).toNat ∧ 0x1002 < addrLimit s.cfg ∧ Memory.wf s.mem = true ∧
      s.sched = [.store 7 0x1002 9#8] ∧ (sOdd [.load 7 0x1000]).sched = [.load 7 0x1000] := by decide +kernel

theorem witness_RejectedRev16BytesAreUnspecified_invalid : check cfgReadOnly opRev16 (0x1000#64).toNat 2#32 = some (.invalidBuffer 0x1001) := by
  decide +kernel

/-- The byte behind the buffer is stored to plainly, and a byte of it raises no fault (R189). -/
theorem test_store_beside_rejected_buffer :
    ((nextOf (step (sOdd [.store 7 0x1003 9#8]))).map fun t => (Memory.read t.mem 0x1003, t.draws)) = some (9#8, 0) ∧
    ((nextOf (step (sOdd [.store 7 0x1002 9#8]))).map fun t => (t.fault, t.draws)) = some ([], 1) := by decide +kernel

theorem witness_AccessesOutsideTheSpaceStop :
    (let s := onPort [] [] [.load 7 0x100000000]
     addrLimit s.cfg ≤ 0x100000000 ∧ s.sched = [.load 7 0x100000000]) ∧
    (onPort [] [] [.store 7 0x100000000 1#8]).sched = [.store 7 0x100000000 1#8] ∧
    (onPort [] [] [.storeVar 7 0x100000000 0]).sched = [.storeVar 7 0x100000000 0] := by decide +kernel

theorem witness_AccessesOutsideTheSpaceStop_edge :
    let s := onPort [] [] [.storeVar 7 0xFFFFFFFD 0]
    0xFFFFFFFD < addrLimit s.cfg ∧ addrLimit s.cfg ≤ 0xFFFFFFFD + 3 ∧ s.sched = [.storeVar 7 0xFFFFFFFD 0] := by decide

theorem witness_BusErrorEndsTheCall :
    let s := sBusyRev [.busError 0x1003]
    s.sched = [.busError 0x1003] ∧ s.call = some ⟨reqOf 0#32 4#32 0x1000#32, .legal⟩ ∧ s.rst = false ∧ s.phase = .busy ∧
      s.reqData.toNat ≤ 0x1003 ∧ 0x1003 < s.reqData.toNat + s.reqDlen.toNat ∧ s.reqData.toNat + s.off.toNat ≤ 0x1000 := by decide

/-- A write that waits for its acknowledgement, at the end of the buffer. -/
theorem witness_BusErrorEndsTheCall_unacked :
    let s : State := { sBusyRev [.busError 0x1000] with off := 4#32, unacked := true }
    s.sched = [.busError 0x1000] ∧ s.phase = .busy ∧ s.reqData.toNat ≤ 0x1000 ∧ ¬ s.reqData.toNat + s.off.toNat ≤ 0x1000 ∧ s.unacked = true := by
  decide

theorem witness_BusErrorEndsTheCall_crc32 : (sBusyCrc [.busError 0x1000]).reqOp = opCrc32 ∧ (sBusyCrc [.busError 0x1000]).phase = .busy := by decide

theorem witness_ExecChangesOnlyItsBuffer : (nextOf (exec (.rev16 0x1000#64 3#32) sRev)).isSome = true ∧ OutsideBuffer 0x1000 3 0x1003 ∧
    OutsideBuffer 0x1000 3 0xFFF ∧ (nextOf (exec (.rev16 0x1000#64 0xFFFFFFFF#32) sRev)).isSome = true := by decide +kernel

theorem witness_ResetLeavesTheResetValues : (sBusyRev [.rstAssert]).sched = [.rstAssert] := by decide

theorem witness_NothingHappensInReset :
    let s : State := { State.reset with rst := true, sched := [.present (reqOf 0#32 4#32 0x1000#32)] }
    (s.phase = .idle ↔ s.call = none) ∧ s.rst = true ∧ s.pending = [] ∧ s.unacked = false ∧ (nextOf (step s)).isSome = true := by decide +kernel

theorem witness_NothingHappensInReset_moves :
    (sBusyRev [.rstAssert]).sched = [.rstAssert] ∧
    (let s : State := { State.reset with rst := true, sched := [.rstRelease, .present (reqOf 1#32 4#32 0x1000#32), .accept 0] }
     s.phase = .idle ∧ s.pending = [] ∧ s.sched = .rstRelease :: .present (reqOf 1#32 4#32 0x1000#32) :: .accept 0 :: [] ∧
       decode s.cfg.addrWidth (wireWords s.cfg.addrWidth (reqOf 1#32 4#32 0x1000#32).desc) = .instr (.crc32 0x1000#64 4#32) ∧
       Legal s.cfg opCrc32 (0x1000#64).toNat 4#32) := by decide +kernel

theorem witness_NothingHappensInReset_inv :
    PhaseInv { State.reset with rst := true, sched := [.present (reqOf 0#32 4#32 0x1000#32)] } :=
  ⟨by decide, by decide, by decide, by rintro k ⟨⟩, by rintro k ⟨⟩⟩

theorem witness_ResetCutsRev16PerByte :
    let s := onPort mem1234 [reqOf 0#32 4#32 0x1000#32] [.accept 0, .chunk 2, .writeAck, .chunk 2, .writeAck, .complete, .rstAssert]
    s.rst = false ∧ s.phase = .idle ∧ s.pending = [reqOf 0#32 4#32 0x1000#32] ∧ Memory.wf s.mem = true ∧
      fetch s = .instr (.rev16 0x1000#64 4#32) ∧ Legal s.cfg opRev16 (0x1000#64).toNat 4#32 ∧
      s.sched = .accept 0 :: ([.chunk 2, .writeAck, .chunk 2, .writeAck, .complete] ++ [.rstAssert]) := by decide +kernel

theorem witness_ResetCutsRev16PerByte_moves :
    (∀ e ∈ [Event.chunk 2, .writeAck, .chunk 2, .writeAck, .complete], e = .writeAck ∨ e = .complete ∨ ∃ k, e = .chunk k) ∧
    (onPort mem1234 [reqOf 0#32 4#32 0x1000#32] [.call 0, .rstAssert]).sched = .call 0 :: ([] ++ [.rstAssert]) := by
  refine ⟨fun e he => ?_, rfl⟩
  simp only [List.mem_cons, List.not_mem_nil, or_false] at he
  rcases he with rfl | rfl | rfl | rfl | rfl <;> simp

theorem witness_ResetTouchesOnlyARev16Buffer : (sBusyRev [.rstAssert]).sched = [.rstAssert] ∧ (sBusyCrc [.rstAssert]).reqOp = opCrc32 ∧
    State.reset.call = none ∧ (sBusyRev [.rstAssert]).call = some ⟨reqOf 0#32 4#32 0x1000#32, .legal⟩ ∧
    (sBusyRev [.rstAssert]).reqOp = opRev16 ∧ 3 < (sBusyRev [.rstAssert]).reqDlen.toNat := by decide

theorem witness_EveryStepKeepsTheBlockInvariant : (nextOf (step (sBusyRev [.chunk 2]))).isSome = true := by decide +kernel

theorem witness_EveryStepKeepsTheMeaningOfCAndRet : ResultInv (sBusyCrc [.chunk 3]) ∧ (nextOf (step (sBusyCrc [.chunk 3]))).isSome = true := by
  refine ⟨?_, by decide +kernel⟩
  rintro k ⟨⟩
  decide

/-- A store of another agent beside the buffer leaves the call legal. -/
theorem witness_BufferKept :
    (nextOf (step (sBusyRev [.store 7 0x1004 9#8]))).bind (·.call) = (sBusyRev []).call ∧
    (nextOf (step (sBusyCrc [.store 7 0xFFF 9#8]))).bind (·.call) = (sBusyCrc []).call := by decide +kernel

/-- A call is accepted, and one is at DONE. -/
theorem witness_BufferBegins :
    (nextOf (step { sRev with sched := [.accept 0] })).bind (·.call) = some ⟨reqOf 0#32 4#32 0x1000#32, .legal⟩ ∧ sRev.call = none ∧
    ((nextOf (step sRev)).map fun t => (t.phase, t.call)) = some (.done, some ⟨reqOf 0#32 4#32 0x1000#32, .legal⟩) := by decide +kernel

theorem witness_MemoryChangesOnlyInARev16Buffer :
    ((nextOf (step (sBusyRev [.chunk 2]))).map fun t => Memory.read t.mem 0x1000) = some 2#8 ∧
    Memory.read (sBusyRev [.chunk 2]).mem 0x1000 = 1#8 := by decide +kernel

theorem witness_NoStateBetweenCalls :
    let s' : State := { sCrc with reqOp := 1#2, reqData := 5#64, reqDlen := 8#32, off := 8#32, c := 7#32, ret := 9#32 }
    SameToAgents sCrc s' ∧ sCrc ≠ s' ∧ (nextOf (step sCrc)).isSome = true := by decide +kernel

theorem witness_NoStateBetweenCalls_done :
    let s := sOdd []
    let s' : State := { sOdd [] with reqOp := 1#2, reqData := 5#64, reqDlen := 8#32, off := 8#32, c := 7#32 }
    SameVisible s s' ∧ s'.ret = s.ret ∧ s.phase = .done ∧ s ≠ s' ∧ (nextOf (step s)).isSome = true := by decide +kernel

theorem witness_NoStateBetweenCalls_rejected : (∀ k ∈ (sOdd []).call, k.status = .rejected) ∧ PhaseInv (sOdd []) ∧ PhaseInv sCrc := by
  refine ⟨?_, ⟨by decide, by decide, by decide, ?_, ?_⟩, ⟨by decide, by decide, by decide, ?_, ?_⟩⟩ <;>
  · rintro k ⟨⟩
    try decide

theorem witness_OutcomeDependsOnRequestAndBuffer :
    let s' : State := { sRev with mem := mem1234 ++ [(0x2000, 5#8)] }
    canAccept s' = true ∧ Memory.wf s'.mem = true ∧ Legal s'.cfg opRev16 (0x1000#64).toNat 4#32 ∧
      Memory.readBytes sRev.mem 0x1000 4 = Memory.readBytes s'.mem 0x1000 4 ∧ sRev ≠ s' := by decide +kernel

end Sys2Proof.Tests
end

section
/-! PROOF. No step changes the platform's parameters or takes back what an agent has learnt (00_scope.md R7, 10_state.md R26). -/

namespace Sys2Proof.Machine

/-- `t` has the parameters of `s` and every observation of `s`, the newest ones in front. -/
def Extends (s t : State) : Prop := t.cfg = s.cfg ∧ s.obs <:+ t.obs

theorem extends_of_eq {s t : State} (hcfg : t.cfg = s.cfg) (hobs : t.obs = s.obs) : Extends s t :=
  ⟨hcfg, hobs ▸ List.suffix_rfl⟩

theorem Extends.trans {s t u : State} (h : Extends s t) (h' : Extends t u) : Extends s u :=
  ⟨h'.1.trans h.1, h.2.trans h'.2⟩

theorem extends_runHead {s t : State} (ha : canAccept s = true) (h : runHead s = .next t) : Extends s t := by
  rcases runHead_cases ha h with rfl | ⟨i, -, ⟨reason, -, rfl⟩ | ⟨-, ⟨data, dlen, -, rfl⟩ | ⟨data, dlen, -, rfl⟩⟩⟩ <;>
    exact extends_of_eq rfl rfl

theorem extends_acceptHead (s : State) : Extends s (acceptHead s) := by
  rcases acceptHead_cases s with h | ⟨i, -, ⟨reason, -, h⟩ | ⟨-, h⟩⟩ <;>
    exact h ▸ extends_of_eq rfl rfl

theorem extends_chunk (k : Nat) (s : State) : Extends s (chunk k s) := by
  unfold chunk
  split
  · exact extends_of_eq rfl rfl
  · split <;> exact extends_of_eq rfl rfl

theorem extends_loadByte (agent a : Nat) (s : State) : Extends s (loadByte agent a s) := by
  rcases loadByte_cases agent a s with ⟨-, h⟩ | ⟨-, -, h⟩ | ⟨-, -, h⟩ <;>
    exact h ▸ ⟨rfl, List.suffix_cons _ _⟩

theorem extends_storeByte (agent a : Nat) (b : Byte) (s : State) : Extends s (storeByte agent a b s) := by
  rcases storeByte_cases agent a b s with ⟨-, h⟩ | ⟨-, -, h⟩ | ⟨-, -, h⟩ <;>
    exact h ▸ extends_of_eq rfl rfl

theorem extends_storeWord (agent a : Nat) (w : Word32) (s : State) : Extends s (storeWord agent a w s) :=
  (((extends_storeByte _ _ _ _).trans (extends_storeByte _ _ _ _)).trans (extends_storeByte _ _ _ _)).trans
    (extends_storeByte _ _ _ _)

theorem Granted.extends {u v : State} (h : Granted u v) : Extends u v := by
  obtain ⟨r, n, d, -, rfl⟩ := h
  exact extends_of_eq rfl rfl

theorem Moved.extends {e : Option Event} {u t : State} (h : Moved e u t) : Extends u t := by
  cases h with
  | run hg ha hr => exact hg.extends.trans (extends_runHead ha hr)
  | accept _ hg _ => exact hg.extends.trans (extends_acceptHead _)
  | chunk _ => exact extends_chunk _ u
  | respond _ _ => exact ⟨rfl, List.suffix_append _ _⟩
  | load _ _ => exact extends_loadByte _ _ u
  | store _ _ => exact extends_storeByte _ _ _ u
  | storeVar _ _ => exact extends_storeWord _ _ _ u
  | stutter | ack | busError _ _ | complete _ | present _ | rstAssert _ | rstRelease => exact extends_of_eq rfl rfl

/-- Settles O57: each operation a step can be keeps the parameters and the observations, and only a response and a load add one. -/
theorem parametersStayAndObservationsOnlyGrow : Obligations.ParametersStayAndObservationsOnlyGrow := by
  unfold Obligations.ParametersStayAndObservationsOnlyGrow
  intro s t h
  exact (step_moved h).extends

end Sys2Proof.Machine
end

section
/-! SUPPORT. What exec answers for a rejected and for a legal call, and what a legal call leaves in RET and in memory. -/

namespace Sys2Proof.Machine

theorem exec_of_check_eq_some {i : Instr} {s : State} {reason : FaultReason} (ha : canAccept s = true)
    (hc : check s.cfg (opOf i) (dataOf i).toNat (dlenOf i) = some reason) :
    exec i s = .next (rejectCall (opOf i) (dataOf i) (dlenOf i) reason s) := by
  rcases exec_of_canAccept (i := i) ha with ⟨reason', hc', he⟩ | ⟨hl, -⟩
  · cases hc.symm.trans hc'
    exact he
  · cases hc.symm.trans (check_of_legal hl)

theorem exec_rev16_of_legal {s : State} {data : BitVec 64} {dlen : Word32} (ha : canAccept s = true)
    (hl : Legal s.cfg opRev16 data.toNat dlen) : exec (.rev16 data dlen) s = .next (runRev16 data dlen s) := by
  simp [exec, execRev16, ha, check_of_legal hl]

theorem exec_crc32_of_legal {s : State} {data : BitVec 64} {dlen : Word32} (ha : canAccept s = true)
    (hl : Legal s.cfg opCrc32 data.toNat dlen) : exec (.crc32 data dlen) s = .next (runCrc32 data dlen s) := by
  simp [exec, execCrc32, ha, check_of_legal hl]

/-- The call that ACCEPT has just put into the block carries no fault. -/
theorem isViolated_of_call_eq_headCall {s t : State} (h : t.call = headCall .legal s) : isViolated t = false := by
  unfold isViolated
  rw [h]
  unfold headCall
  cases s.pending <;> simp

theorem cursor_accept (op : BitVec 2) (data : BitVec 64) (dlen : Word32) (s : State) :
    cursor (accept op data dlen s) = data.toNat := by
  simp [cursor]

theorem runRev16_ret (data : BitVec 64) (dlen : Word32) (s : State) : (runRev16 data dlen s).ret = 0x00000000#32 := by
  have hv : isViolated (ackWrites (rev16Chunk dlen.toNat (accept opRev16 data dlen s))) = false :=
    isViolated_of_call_eq_headCall (s := s) rfl
  have hop : opRev16 ≠ opCrc32 := by decide
  simp [runRev16, completeRet, hv, hop]

theorem runRev16_mem (data : BitVec 64) (dlen : Word32) (s : State) :
    (runRev16 data dlen s).mem = swapUnits data.toNat (dlen.toNat / 2) s.mem := by
  simp [runRev16, cursor_accept]

theorem runCrc32_ret (data : BitVec 64) (dlen : Word32) (s : State) :
    (runCrc32 data dlen s).ret = crc32Ref (Memory.readBytes s.mem data.toNat dlen.toNat) := by
  have hv : isViolated (crc32Chunk dlen.toNat (accept opCrc32 data dlen s)) = false :=
    isViolated_of_call_eq_headCall (s := s) rfl
  simp [runCrc32, completeRet, hv, cursor_accept, crcFold_eq_raw, crc32Ref]

@[simp] theorem runCrc32_mem (data : BitVec 64) (dlen : Word32) (s : State) : (runCrc32 data dlen s).mem = s.mem := rfl

end Sys2Proof.Machine
end

section
/-! PROOF. A legal call's RET and the bytes it leaves in its buffer are functions of the request and of the buffer's bytes (00_scope.md R3, R13). -/

namespace Sys2Proof.Machine

/-- `RET` of a legal call whose buffer holds `bs` (41_rev16.md R140, 42_crc32.md R155). -/
def resultOf : Instr → List Byte → Word32
  | .rev16 _ _, _ => 0x00000000#32
  | .crc32 _ _, bs => crc32Ref bs

/-- The bytes a legal call leaves in a buffer that held `bs` (41_rev16.md R131, 42_crc32.md R157). -/
def bufferAfter : Instr → List Byte → List Byte
  | .rev16 _ _, bs => rev16Ref bs
  | .crc32 _ _, bs => bs

/-- A legal call completes with the result and the buffer that its request and its buffer's bytes fix. -/
theorem exec_of_legal {i : Instr} {s : State} (ha : canAccept s = true) (hw : Memory.wf s.mem = true)
    (hl : Legal s.cfg (opOf i) (dataOf i).toNat (dlenOf i)) :
    ∃ t, exec i s = .next t ∧ t.ret = resultOf i (Memory.readBytes s.mem (dataOf i).toNat (dlenOf i).toNat) ∧
      Memory.readBytes t.mem (dataOf i).toNat (dlenOf i).toNat =
        bufferAfter i (Memory.readBytes s.mem (dataOf i).toNat (dlenOf i).toNat) := by
  cases i with
  | rev16 data dlen =>
    refine ⟨_, exec_rev16_of_legal ha hl, runRev16_ret data dlen s, ?_⟩
    rw [runRev16_mem]
    exact readBytes_swapUnits_of_even hw data.toNat (Legal.even hl)
  | crc32 data dlen => exact ⟨_, exec_crc32_of_legal ha hl, runCrc32_ret data dlen s, rfl⟩

/-- Settles O56: both calls complete with what `resultOf` and `bufferAfter` say of the same bytes. -/
theorem outcomeDependsOnRequestAndBuffer : Obligations.OutcomeDependsOnRequestAndBuffer := by
  unfold Obligations.OutcomeDependsOnRequestAndBuffer
  intro s s' i ha ha' hw hw' hl hl' hbytes
  obtain ⟨t, ht, hret, hbuf⟩ := exec_of_legal ha hw hl
  obtain ⟨t', ht', hret', hbuf'⟩ := exec_of_legal ha' hw' hl'
  rw [← hbytes] at hret' hbuf'
  exact ⟨t, t', ht, ht', hret.trans hret'.symm, hbuf.trans hbuf'.symm⟩

end Sys2Proof.Machine
end

section
/-! PROOF. Nothing of an earlier call shows in a later one (00_scope.md R3, 40_call.md R112): a block that is idle, or holds a rejected call, reads no hidden
register but `RET`, so every move of every agent takes two states that differ in the others to two such states, or to equal ones. -/

namespace Sys2Proof.Machine

/-! ### Twins: a dormant block, and the same block with other hidden registers -/

/-- The block runs no call and waits for no write: it is idle, or holds a rejected call until its response. -/
structure Dormant (s : State) : Prop where
  notBusy  : s.phase ≠ .busy
  acked    : s.unacked = false
  rejected : ∀ k ∈ s.call, k.status = .rejected

/-- `s` with the call-scoped registers of `u` (10_state.md R24). -/
def hiddenFrom (u s : State) : State :=
  { s with reqOp := u.reqOp, reqData := u.reqData, reqDlen := u.reqDlen, off := u.off, c := u.c, ret := u.ret }

/-- A dormant state, and the same state with any hidden registers, but for a `RET` that is still to be delivered. -/
inductive Twins : State → State → Prop
  | intro {s : State} (u : State) (hd : Dormant s) (hret : s.phase = .done → u.ret = s.ret) : Twins s (hiddenFrom u s)

theorem sameToAgents_refl (s : State) : SameToAgents s s := ⟨rfl, fun _ => ⟨rfl, .inl rfl⟩⟩

theorem Twins.sameToAgents {s s' : State} (h : Twins s s') : SameToAgents s s' := by
  obtain ⟨u, hd, hret⟩ := h
  refine ⟨rfl, fun hidle => ?_⟩
  have hdone : s.phase = .done := by
    cases hp : s.phase with
    | idle => exact absurd hp hidle
    | busy => exact absurd hp hd.notBusy
    | done => rfl
  exact ⟨hret hdone, .inr ⟨hdone, hd.rejected⟩⟩

theorem unacked_eq_false_of_phaseInv {s : State} (hinv : PhaseInv s) (hp : s.phase ≠ .busy) : s.unacked = false := by
  obtain ⟨-, -, hun, -, -⟩ := hinv
  exact Bool.eq_false_iff.2 fun h => hp (hun h).1

/-- Two states no agent can tell apart are equal, or twins. -/
theorem eq_or_twins_of_sameToAgents {s s' : State} (hinv : PhaseInv s) (h : SameToAgents s s') : s' = s ∨ Twins s s' := by
  obtain ⟨hvis, hrest⟩ := h
  by_cases hidle : s.phase = .idle
  · have hnb : s.phase ≠ .busy := by simp [hidle]
    have hcall : s.call = none := hinv.1.1 hidle
    rw [hvis]
    exact .inr (.intro s' ⟨hnb, unacked_eq_false_of_phaseInv hinv hnb, by simp [hcall]⟩ (by simp [hidle]))
  · obtain ⟨hret, rfl | ⟨hdone, hrej⟩⟩ := hrest hidle
    · exact .inl rfl
    · have hnb : s.phase ≠ .busy := by simp [hdone]
      rw [hvis]
      exact .inr (.intro s' ⟨hnb, unacked_eq_false_of_phaseInv hinv hnb, hrej⟩ fun _ => hret)

/-! ### What a dormant block does not do -/

theorem Dormant.chunkStep_eq {s : State} (h : Dormant s) (k : Nat) : chunkStep k s = s := by
  simp [chunkStep, canChunk, h.notBusy]

theorem Dormant.completeStep_eq {s : State} (h : Dormant s) : completeStep s = s := by
  simp [completeStep, canComplete, h.notBusy]

theorem Dormant.busErrorStep_eq {s : State} (h : Dormant s) (a : Nat) : busErrorStep a s = s := by
  simp [busErrorStep, canBusError, h.notBusy]

theorem Dormant.writeAckStep_eq {s : State} (h : Dormant s) : writeAckStep s = s := by
  unfold writeAckStep ackWrites
  rw [← h.acked]

/-- A dormant block moves by itself only to run a pending request or to have its response taken. -/
theorem Dormant.blockMove_eq {s : State} (hd : Dormant s) :
    blockMove s = if canAccept s then .run (grantFree s) else .did (.next (respondStep s)) := by
  unfold blockMove
  cases hr : s.rst with
  | true => simp [respondStep, hr]
  | false =>
    cases hp : s.phase with
    | idle => simp [respondStep, hp]
    | busy => exact absurd hp hd.notBusy
    | done => simp

theorem Dormant.forbidden_eq {s : State} (h : Dormant s) (a : Nat) (w : Bool) : forbidden s a w = false := by
  refine Bool.eq_false_iff.2 fun hf => ?_
  obtain ⟨k, hk, hstatus, -⟩ := forbidden_eq_true.1 hf
  exact hstatus (h.rejected k hk)

theorem Dormant.resetMem_eq {s : State} (h : Dormant s) : resetMem s = s.mem := by
  unfold resetMem
  split
  · next k hk => simp [h.rejected k hk]
  · rfl

theorem Dormant.loadByte_eq {s : State} (h : Dormant s) (agent a : Nat) :
    loadByte agent a s =
      if unsettled s a then { s with obs := .loaded agent a (Config.freeByte s.draws a) :: s.obs, draws := s.draws + 1 }
      else { s with obs := .loaded agent a (Memory.read s.mem a) :: s.obs } := by
  simp [loadByte, h.forbidden_eq]

theorem Dormant.storeByte_eq {s : State} (h : Dormant s) (agent a : Nat) (b : Byte) :
    storeByte agent a b s =
      if unsettled s a then { s with mem := Memory.write s.mem a (Config.freeByte s.draws a), draws := s.draws + 1 }
      else { s with mem := Memory.write s.mem a b } := by
  simp [storeByte, h.forbidden_eq]

/-! ### What reads no hidden register -/

@[simp] theorem hiddenFrom_cfg (u s : State) : (hiddenFrom u s).cfg = s.cfg := rfl
@[simp] theorem hiddenFrom_rst (u s : State) : (hiddenFrom u s).rst = s.rst := rfl
@[simp] theorem hiddenFrom_phase (u s : State) : (hiddenFrom u s).phase = s.phase := rfl
@[simp] theorem hiddenFrom_pending (u s : State) : (hiddenFrom u s).pending = s.pending := rfl
@[simp] theorem hiddenFrom_call (u s : State) : (hiddenFrom u s).call = s.call := rfl
@[simp] theorem hiddenFrom_obs (u s : State) : (hiddenFrom u s).obs = s.obs := rfl
@[simp] theorem hiddenFrom_sched (u s : State) : (hiddenFrom u s).sched = s.sched := rfl
@[simp] theorem hiddenFrom_ret (u s : State) : (hiddenFrom u s).ret = u.ret := rfl
@[simp] theorem canAccept_hiddenFrom (u s : State) : canAccept (hiddenFrom u s) = canAccept s := rfl
@[simp] theorem fetch_hiddenFrom (u s : State) : fetch (hiddenFrom u s) = fetch s := rfl
@[simp] theorem unsettled_hiddenFrom (u s : State) (a : Nat) : unsettled (hiddenFrom u s) a = unsettled s a := rfl

theorem grant_hiddenFrom (n : Nat) (u s : State) : grant n (hiddenFrom u s) = hiddenFrom u (grant n s) := by
  cases hn : s.pending[n]? <;> simp [grant, hiddenFrom, hn]

theorem grantFree_hiddenFrom (u s : State) : grantFree (hiddenFrom u s) = hiddenFrom u (grantFree s) := by
  unfold grantFree
  rw [hiddenFrom_pending]
  split
  · rfl
  · rfl
  · rw [grant_hiddenFrom]
    rfl

/-- A rejected call leaves the hidden registers as they were, and a `RET` that does not depend on them. -/
theorem sameToAgents_reject (reason : FaultReason) (m : Memory) (u s : State) :
    SameToAgents (reject reason m s) (reject reason m (hiddenFrom u s)) :=
  ⟨rfl, fun _ => ⟨rfl, .inr ⟨rfl, fun _ hk => status_of_mem_headCall hk⟩⟩⟩

/-- ACCEPT writes every call-scoped register (40_call.md R112). -/
theorem accept_hiddenFrom (op : BitVec 2) (data : BitVec 64) (dlen : Word32) (u s : State) :
    accept op data dlen (hiddenFrom u s) = accept op data dlen s := rfl

theorem runRev16_hiddenFrom (data : BitVec 64) (dlen : Word32) (u s : State) :
    runRev16 data dlen (hiddenFrom u s) = runRev16 data dlen s := by
  unfold runRev16
  rw [accept_hiddenFrom]

theorem runCrc32_hiddenFrom (data : BitVec 64) (dlen : Word32) (u s : State) :
    runCrc32 data dlen (hiddenFrom u s) = runCrc32 data dlen s := by
  unfold runCrc32
  rw [accept_hiddenFrom]

theorem sameToAgents_acceptHead (u s : State) : SameToAgents (acceptHead s) (acceptHead (hiddenFrom u s)) := by
  unfold acceptHead
  rw [fetch_hiddenFrom]
  cases fetch s with
  | reject e => exact sameToAgents_reject _ _ u s
  | instr i =>
    simp only [hiddenFrom_cfg]
    cases check s.cfg (opOf i) (dataOf i).toNat (dlenOf i) with
    | some reason => exact sameToAgents_reject _ _ u s
    | none => exact sameToAgents_refl _

/-! ### Outcomes and moves of twins -/

/-- Where `o` is a next state, `o'` is one that no agent can tell from it. -/
def Mirrors (o o' : Host.Outcome State Fault Refusal) : Prop :=
  ∀ t, o = .next t → ∃ t', o' = .next t' ∧ SameToAgents t t'

theorem mirrors_next {t t' : State} (h : SameToAgents t t') : Mirrors (.next t) (.next t') := by
  rintro _ ⟨⟩
  exact ⟨t', rfl, h⟩

/-- An access at an address that does not exist has no next state to mirror. -/
theorem mirrors_fault (r : Fault) (o' : Host.Outcome State Fault Refusal) : Mirrors (.fault r) o' := by
  rintro _ ⟨⟩

theorem mirrors_exec {s : State} (ha : canAccept s = true) (i : Instr) (u : State) : Mirrors (exec i s) (exec i (hiddenFrom u s)) := by
  have ha' : canAccept (hiddenFrom u s) = true := ha
  rcases exec_of_canAccept (i := i) ha with ⟨reason, hc, he⟩ | ⟨hl, ⟨data, dlen, rfl, he⟩ | ⟨data, dlen, rfl, he⟩⟩
  · rw [he, exec_of_check_eq_some ha' hc]
    exact mirrors_next (sameToAgents_reject _ _ u s)
  · rw [he, exec_rev16_of_legal (data := data) (dlen := dlen) ha' hl, runRev16_hiddenFrom]
    exact mirrors_next (sameToAgents_refl _)
  · rw [he, exec_crc32_of_legal (data := data) (dlen := dlen) ha' hl, runCrc32_hiddenFrom]
    exact mirrors_next (sameToAgents_refl _)

theorem mirrors_runHead {s : State} (ha : canAccept s = true) (u : State) : Mirrors (runHead s) (runHead (hiddenFrom u s)) := by
  unfold runHead
  rw [fetch_hiddenFrom]
  cases fetch s with
  | instr i => exact mirrors_exec ha i u
  | reject e => exact mirrors_next (sameToAgents_reject _ _ u s)

/-- Two moves with the same effect for every agent. -/
inductive MovesAlike : Move → Move → Prop
  | run {v : State} (u : State) (ha : canAccept v = true) : MovesAlike (.run v) (.run (hiddenFrom u v))
  | did {o o' : Host.Outcome State Fault Refusal} (h : Mirrors o o') : MovesAlike (.did o) (.did o')

theorem movesAlike_next {t t' : State} (h : SameToAgents t t') : MovesAlike (.did (.next t)) (.did (.next t')) := .did (mirrors_next h)

/-! ### Operations that keep twins twins -/

theorem dormant_hiddenFrom {s : State} (h : Dormant s) (u : State) : Dormant (hiddenFrom u s) := ⟨h.notBusy, h.acked, h.rejected⟩

section
variable {s s' : State} (h : Twins s s')
include h

theorem Twins.withSched (es : List Event) : Twins { s with sched := es } { s' with sched := es } := by
  obtain ⟨u, hd, hret⟩ := h
  exact .intro u ⟨hd.notBusy, hd.acked, hd.rejected⟩ hret

/-- An operation that leaves a dormant block as it is keeps twins twins. -/
theorem Twins.of_unchanged {f : State → State} (hf : ∀ v, Dormant v → f v = v) : Twins (f s) (f s') := by
  obtain ⟨u, hd, hret⟩ := h
  rw [hf _ hd, hf _ (dormant_hiddenFrom hd u)]
  exact .intro u hd hret

theorem twins_presentStep (req : Request) : Twins (presentStep req s) (presentStep req s') := by
  obtain ⟨u, hd, hret⟩ := h
  unfold presentStep
  rw [hiddenFrom_rst]
  split
  · exact .intro u hd hret
  · exact .intro u ⟨hd.notBusy, hd.acked, hd.rejected⟩ hret

theorem twins_rstReleaseStep : Twins (rstReleaseStep s) (rstReleaseStep s') := by
  obtain ⟨u, hd, hret⟩ := h
  exact .intro u ⟨hd.notBusy, hd.acked, hd.rejected⟩ hret

/-- The response of a rejected call is its `RET`, which twins share. -/
theorem twins_respondStep : Twins (respondStep s) (respondStep s') := by
  obtain ⟨u, hd, hret⟩ := h
  unfold respondStep
  rw [hiddenFrom_rst, hiddenFrom_phase]
  split
  · next hr =>
    have hp : s.phase = .done := by simpa using (Bool.and_eq_true_iff.1 hr).2
    have hobs : responseObs (hiddenFrom u s) = responseObs s := by simp [responseObs, hret hp]
    have hcomm : respond (hiddenFrom u s) = hiddenFrom u (respond s) := by
      unfold respond
      rw [hobs]
      rfl
    rw [hcomm]
    exact .intro u ⟨by simp, hd.acked, by simp⟩ (by simp)
  · exact .intro u hd hret

theorem twins_loadByte (agent a : Nat) : Twins (loadByte agent a s) (loadByte agent a s') := by
  obtain ⟨u, hd, hret⟩ := h
  rw [hd.loadByte_eq, (dormant_hiddenFrom hd u).loadByte_eq, unsettled_hiddenFrom]
  split <;> exact .intro u ⟨hd.notBusy, hd.acked, hd.rejected⟩ hret

theorem twins_storeByte (agent a : Nat) (b : Byte) : Twins (storeByte agent a b s) (storeByte agent a b s') := by
  obtain ⟨u, hd, hret⟩ := h
  rw [hd.storeByte_eq, (dormant_hiddenFrom hd u).storeByte_eq, unsettled_hiddenFrom]
  split <;> exact .intro u ⟨hd.notBusy, hd.acked, hd.rejected⟩ hret

theorem twins_storeWord (agent a : Nat) (w : Word32) : Twins (storeWord agent a w s) (storeWord agent a w s') :=
  twins_storeByte (twins_storeByte (twins_storeByte (twins_storeByte h _ _ _) _ _ _) _ _ _) _ _ _

theorem Twins.cfg_eq : s'.cfg = s.cfg := by
  obtain ⟨u, -, -⟩ := h
  exact hiddenFrom_cfg u s

theorem Twins.sched_eq : s'.sched = s.sched := by
  obtain ⟨u, -, -⟩ := h
  exact hiddenFrom_sched u s

theorem Twins.obs_eq : s'.obs = s.obs := by
  obtain ⟨u, -, -⟩ := h
  exact hiddenFrom_obs u s

/-- A reset writes every call-scoped register, and a dormant block has no buffer it could cut short (70_reset_and_hazards.md R212). -/
theorem rstAssertStep_eq_of_twins : rstAssertStep s' = rstAssertStep s := by
  obtain ⟨u, hd, -⟩ := h
  unfold rstAssertStep
  rw [hd.resetMem_eq, (dormant_hiddenFrom hd u).resetMem_eq]
  rfl

theorem sameToAgents_acceptStep (n : Nat) : SameToAgents (acceptStep n s) (acceptStep n s') := by
  have hsame := h.sameToAgents
  obtain ⟨u, -, -⟩ := h
  unfold acceptStep
  rw [grant_hiddenFrom, canAccept_hiddenFrom, hiddenFrom_pending]
  split
  · exact sameToAgents_acceptHead u _
  · exact hsame

/-! ### The step -/

theorem movesAlike_eventMove (e : Event) : MovesAlike (eventMove e s) (eventMove e s') := by
  cases e with
  | call n =>
    have hsame := h.sameToAgents
    obtain ⟨u, -, -⟩ := h
    unfold eventMove
    dsimp only
    rw [grant_hiddenFrom, canAccept_hiddenFrom, hiddenFrom_pending]
    split
    · next hc =>
      simp only [Bool.and_eq_true, decide_eq_true_eq] at hc
      exact .run u ((granted_grant hc.2).canAccept hc.1)
    · exact movesAlike_next hsame
  | present req => exact movesAlike_next (twins_presentStep h req).sameToAgents
  | accept n => exact movesAlike_next (sameToAgents_acceptStep h n)
  | chunk k => exact movesAlike_next (h.of_unchanged fun _ hd => hd.chunkStep_eq k).sameToAgents
  | writeAck => exact movesAlike_next (h.of_unchanged fun _ hd => hd.writeAckStep_eq).sameToAgents
  | busError a => exact movesAlike_next (h.of_unchanged fun _ hd => hd.busErrorStep_eq a).sameToAgents
  | complete => exact movesAlike_next (h.of_unchanged fun _ hd => hd.completeStep_eq).sameToAgents
  | respond => exact movesAlike_next (twins_respondStep h).sameToAgents
  | load agent a =>
    refine .did ?_
    unfold loadStep
    rw [h.cfg_eq]
    split
    · exact mirrors_next (twins_loadByte h agent a).sameToAgents
    · exact mirrors_fault _ _
  | store agent a b =>
    refine .did ?_
    unfold storeStep
    rw [h.cfg_eq]
    split
    · exact mirrors_next (twins_storeByte h agent a b).sameToAgents
    · exact mirrors_fault _ _
  | storeVar agent a v =>
    refine .did ?_
    unfold storeVarStep
    rw [h.cfg_eq, h.obs_eq]
    split
    · exact mirrors_next (twins_storeWord h agent a _).sameToAgents
    · exact mirrors_fault _ _
  | rstAssert =>
    rw [eventMove, eventMove, rstAssertStep_eq_of_twins h]
    exact movesAlike_next (sameToAgents_refl _)
  | rstRelease => exact movesAlike_next (twins_rstReleaseStep h).sameToAgents

theorem movesAlike_blockMove : MovesAlike (blockMove s) (blockMove s') := by
  have hresp := (twins_respondStep h).sameToAgents
  obtain ⟨u, hd, -⟩ := h
  rw [hd.blockMove_eq, (dormant_hiddenFrom hd u).blockMove_eq, grantFree_hiddenFrom, canAccept_hiddenFrom]
  split
  · next hc => exact .run u ((granted_grantFree (canAccept_iff.1 hc).2.2).canAccept hc)
  · exact movesAlike_next hresp

theorem movesAlike_nextMove : MovesAlike (nextMove s) (nextMove s') := by
  unfold nextMove
  rw [h.sched_eq]
  cases s.sched with
  | nil => exact movesAlike_blockMove h
  | cons e es => exact movesAlike_eventMove (h.withSched es) e

theorem mirrors_step : Mirrors (step s) (step s') := by
  have hm := movesAlike_nextMove h
  unfold step
  generalize nextMove s = m at hm ⊢
  generalize nextMove s' = m' at hm ⊢
  cases hm with
  | run u ha => exact mirrors_runHead ha u
  | did ho => exact ho

end

/-- Settles O55: the two states are equal, or twins, and twins step alike. -/
theorem noStateBetweenCalls : Obligations.NoStateBetweenCalls := by
  unfold Obligations.NoStateBetweenCalls
  intro s s' t hinv hsame hstep
  rcases eq_or_twins_of_sameToAgents hinv hsame with rfl | htwins
  · exact ⟨t, hstep, sameToAgents_refl t⟩
  · exact mirrors_step htwins t hstep

end Sys2Proof.Machine
end

section
/-! SUPPORT. What becomes of a request that leaves the port, and what an access to memory leaves alone whatever it meets. -/

namespace Sys2Proof.Machine

/-- What the block does with the request at the head of the port: it rejects it, accepts it, or runs it to DONE. -/
inductive HeadTaken (v : State) : State → Prop
  | illegal : HeadTaken v (rejectIllegal v)
  | rejected {i : Instr} (reason : FaultReason) (hf : fetch v = .instr i) :
      HeadTaken v (rejectCall (opOf i) (dataOf i) (dlenOf i) reason v)
  | accepted {i : Instr} (hf : fetch v = .instr i) (hl : Legal v.cfg (opOf i) (dataOf i).toNat (dlenOf i)) :
      HeadTaken v (accept (opOf i) (dataOf i) (dlenOf i) v)
  | ranRev16 {data : BitVec 64} {dlen : Word32} (hf : fetch v = .instr (.rev16 data dlen)) (hl : Legal v.cfg opRev16 data.toNat dlen) :
      HeadTaken v (runRev16 data dlen v)
  | ranCrc32 {data : BitVec 64} {dlen : Word32} (hf : fetch v = .instr (.crc32 data dlen)) (hl : Legal v.cfg opCrc32 data.toNat dlen) :
      HeadTaken v (runCrc32 data dlen v)

theorem headTaken_runHead {v t : State} (ha : canAccept v = true) (h : runHead v = .next t) : HeadTaken v t := by
  rcases runHead_cases ha h with rfl | ⟨i, hf, ⟨reason, -, rfl⟩ | ⟨hl, ⟨data, dlen, rfl, rfl⟩ | ⟨data, dlen, rfl, rfl⟩⟩⟩
  · exact .illegal
  · exact .rejected reason hf
  · exact .ranRev16 hf hl
  · exact .ranCrc32 hf hl

theorem headTaken_acceptHead (v : State) : HeadTaken v (acceptHead v) := by
  rcases acceptHead_cases v with h | ⟨i, hf, ⟨reason, -, h⟩ | ⟨hl, h⟩⟩ <;> rw [h]
  · exact .illegal
  · exact .rejected reason hf
  · exact .accepted hf hl

/-- The call put into a block that can accept is the request at the head of the port. -/
theorem headCall_eq_some {s : State} (h : canAccept s = true) (status : CallStatus) :
    ∃ k, headCall status s = some k ∧ k.status = status := by
  obtain ⟨k, hk⟩ := Option.ne_none_iff_exists'.1 (headCall_ne_none h status)
  exact ⟨k, hk, status_of_mem_headCall hk⟩

theorem Granted.mem_eq {u v : State} (h : Granted u v) : v.mem = u.mem := by
  obtain ⟨r, n, d, -, rfl⟩ := h
  rfl

theorem Granted.fault_eq {u v : State} (h : Granted u v) : v.fault = u.fault := by
  obtain ⟨r, n, d, -, rfl⟩ := h
  rfl

/-- A block that accepts a request after the arbiter's choice was out of reset and idle before it. -/
theorem idle_of_granted {u v : State} (h : Granted u v) (ha : canAccept v = true) : u.rst = false ∧ u.phase = .idle := by
  obtain ⟨r, n, d, -, rfl⟩ := h
  obtain ⟨hrst, hidle, -⟩ := canAccept_iff.1 ha
  exact ⟨hrst, hidle⟩

theorem canChunk_iff {k : Nat} {s : State} : canChunk k s = true ↔
    s.rst = false ∧ s.phase = .busy ∧ 1 ≤ k ∧ s.off.toNat + k ≤ s.reqDlen.toNat ∧ chunkOk s.reqOp k = true := by
  simp [canChunk, and_assoc]

theorem canComplete_iff {s : State} : canComplete s = true ↔
    s.rst = false ∧ s.phase = .busy ∧ s.off = s.reqDlen ∧ s.unacked = false := by
  simp [canComplete, and_assoc]

theorem even_of_chunkOk {k : Nat} (h : chunkOk opRev16 k = true) : k % 2 = 0 := by
  simpa [chunkOk] using h

/-- A bus error answers an access of a running call inside its buffer. -/
theorem busy_of_canBusError {a : Nat} {s : State} (h : canBusError a s = true) : s.rst = false ∧ s.phase = .busy := by
  simp only [canBusError, Bool.and_eq_true, Bool.not_eq_true', decide_eq_true_eq] at h
  obtain ⟨⟨⟨hr, hb⟩, -⟩, -⟩ := h
  exact ⟨hr, hb⟩

/-- A chunk runs one of the two engines, or does nothing where neither operation is latched. -/
theorem chunk_cases (k : Nat) (s : State) :
    (s.reqOp = opRev16 ∧ chunk k s = rev16Chunk k s) ∨ (s.reqOp = opCrc32 ∧ chunk k s = crc32Chunk k s) ∨
      (s.reqOp ≠ opRev16 ∧ s.reqOp ≠ opCrc32 ∧ chunk k s = s) := by
  unfold chunk
  split
  · next h => exact .inl ⟨h, rfl⟩
  · next h =>
    split
    · next h' => exact .inr (.inl ⟨h', rfl⟩)
    · next h' => exact .inr (.inr ⟨h, h', rfl⟩)

/-! ### Accesses to memory -/

/-- What an access to memory, the block's CHUNK or another agent's load or store, leaves alone: reset, the phase, the port, the request of
the call in the block, and the faults recorded before. -/
structure AccessFrame (s t : State) : Prop where
  rst     : t.rst = s.rst
  phase   : t.phase = s.phase
  pending : t.pending = s.pending
  request : t.call.map Call.req = s.call.map Call.req
  fault   : s.fault <+: t.fault

theorem AccessFrame.trans {s t u : State} (h : AccessFrame s t) (h' : AccessFrame t u) : AccessFrame s u :=
  ⟨h'.rst.trans h.rst, h'.phase.trans h.phase, h'.pending.trans h.pending, h'.request.trans h.request, h.fault.trans h'.fault⟩

theorem map_req_violate (reason : FaultReason) (s : State) : (violate reason s).call.map Call.req = s.call.map Call.req := by
  cases h : s.call <;> simp [h]

theorem accessFrame_chunk (k : Nat) (s : State) : AccessFrame s (chunk k s) := by
  rcases chunk_cases k s with ⟨-, h⟩ | ⟨-, h⟩ | ⟨-, -, h⟩ <;> rw [h] <;> exact ⟨rfl, rfl, rfl, rfl, List.prefix_rfl⟩

theorem accessFrame_loadByte (agent a : Nat) (s : State) : AccessFrame s (loadByte agent a s) := by
  rcases loadByte_cases agent a s with ⟨-, h⟩ | ⟨-, -, h⟩ | ⟨-, -, h⟩ <;> rw [h]
  · exact ⟨rfl, rfl, rfl, map_req_violate (.concurrentAccess a agent) s, List.prefix_append _ _⟩
  · exact ⟨rfl, rfl, rfl, rfl, List.prefix_rfl⟩
  · exact ⟨rfl, rfl, rfl, rfl, List.prefix_rfl⟩

theorem accessFrame_storeByte (agent a : Nat) (b : Byte) (s : State) : AccessFrame s (storeByte agent a b s) := by
  rcases storeByte_cases agent a b s with ⟨-, h⟩ | ⟨-, -, h⟩ | ⟨-, -, h⟩ <;> rw [h]
  · exact ⟨rfl, rfl, rfl, map_req_violate (.concurrentAccess a agent) s, List.prefix_append _ _⟩
  · exact ⟨rfl, rfl, rfl, rfl, List.prefix_rfl⟩
  · exact ⟨rfl, rfl, rfl, rfl, List.prefix_rfl⟩

/-- What four byte stores in a row keep, where each of them keeps it. -/
theorem storeWord_induction {P : State → Prop} {s : State} {agent a : Nat} (w : Word32)
    (hstore : ∀ u x b, u.cfg = s.cfg → a ≤ x → x < a + 4 → P u → P (storeByte agent x b u)) (h : P s) : P (storeWord agent a w s) := by
  have hcfg : ∀ x b u, u.cfg = s.cfg → (storeByte agent x b u).cfg = s.cfg := fun x b u hu =>
    (extends_storeByte agent x b u).1.trans hu
  have h0 := hcfg a (w.extractLsb' 0 8) s rfl
  have h1 := hcfg (a + 1) (w.extractLsb' 8 8) _ h0
  have h2 := hcfg (a + 2) (w.extractLsb' 16 8) _ h1
  exact hstore _ _ _ h2 (by omega) (by omega) (hstore _ _ _ h1 (by omega) (by omega)
    (hstore _ _ _ h0 (by omega) (by omega) (hstore _ _ _ rfl (by omega) (by omega) h)))

theorem accessFrame_storeWord (agent a : Nat) (w : Word32) (s : State) : AccessFrame s (storeWord agent a w s) :=
  storeWord_induction w (fun u x b _ _ _ hu => hu.trans (accessFrame_storeByte agent x b u)) ⟨rfl, rfl, rfl, rfl, List.prefix_rfl⟩

end Sys2Proof.Machine
end

section
/-! PROOF. Every step of every agent keeps the block's invariant (10_state.md R25, 40_call.md R103, R107, R115, 20_memory.md R50): each operation a step can
be keeps it. BlockInv reads neither C, RET, FAULT, what agents have learnt, the schedule nor the draws, so an update of those alone needs no argument. -/

namespace Sys2Proof.Machine

/-- Settles O51: the block is idle, its latched request is empty, and memory lists nothing. -/
theorem blockInvariantAtReset : Obligations.BlockInvariantAtReset := by
  unfold Obligations.BlockInvariantAtReset
  have hmem : MemInv State.reset := ⟨rfl, rfl⟩
  have hphase : PhaseInv State.reset := ⟨by decide, by decide, by decide, by rintro k ⟨⟩, by rintro k ⟨⟩⟩
  have hreq : RequestInv State.reset := by decide +kernel
  exact ⟨⟨hmem, hphase, hreq, by rintro k ⟨⟩⟩, by rintro k ⟨⟩⟩

section
variable {s : State}

/-! ### Memory -/

theorem memInv_write {a : Nat} (h : MemInv s) (ha : a < addrLimit s.cfg) (b : Byte) :
    MemInv { s with mem := Memory.write s.mem a b } :=
  ⟨Memory.wf_write h.1 a b, Memory.below_write b ha h.2⟩

theorem memInv_rejectedMem (h : MemInv s) (op : BitVec 2) (data : Nat) (dlen : Word32) (reason : FaultReason) :
    MemInv { s with mem := rejectedMem op data dlen reason s } :=
  ⟨wf_rejectedMem h.1, below_rejectedMem h.2⟩

theorem memInv_violatedMem (h : MemInv s) : MemInv { s with mem := violatedMem s } :=
  ⟨wf_violatedMem h.1, below_violatedMem h.2⟩

/-- The buffer of the latched request ends at or below `2^ADDR_W`, be it empty or not (40_call.md R115). -/
theorem buffer_le_addrLimit (h : RequestInv s) : s.reqData.toNat + s.reqDlen.toNat ≤ addrLimit s.cfg := by
  obtain ⟨-, hlegal, hdata, -, -⟩ := h
  rcases Nat.eq_zero_or_pos s.reqDlen.toNat with hz | hpos
  · omega
  · exact hlegal.fits hpos

theorem memInv_swapUnits {k : Nat} (h : MemInv s) (hreq : RequestInv s) (hk : s.off.toNat + k ≤ s.reqDlen.toNat) :
    MemInv { s with mem := swapUnits (cursor s) (k / 2) s.mem } := by
  have hfit := buffer_le_addrLimit hreq
  exact ⟨wf_swapUnits _ _ h.1, below_swapUnits (limit := addrLimit s.cfg) (fun _ => by unfold cursor; omega) h.2⟩

theorem length_bufferAtAccept (h : s.off.toNat ≤ s.reqDlen.toNat) : (bufferAtAccept s).length = s.reqDlen.toNat := by
  simp only [bufferAtAccept, List.length_append, length_rev16Ref, Memory.length_readBytes]
  omega

theorem length_bufferAtEnd (h : s.off.toNat ≤ s.reqDlen.toNat) : (bufferAtEnd s).length = s.reqDlen.toNat := by
  simp only [bufferAtEnd, List.length_append, length_rev16Ref, Memory.length_readBytes]
  omega

/-- A reset leaves memory alone, or writes bytes over the buffer of a legal REV16 call (70_reset_and_hazards.md R212). -/
theorem resetMem_cases (hoff : s.off.toNat ≤ s.reqDlen.toNat) :
    resetMem s = s.mem ∨
    ∃ k bs, s.call = some k ∧ k.status = .legal ∧ s.reqOp = opRev16 ∧ bs.length = s.reqDlen.toNat ∧
      resetMem s = Memory.writeBytes s.mem s.reqData.toNat bs := by
  unfold resetMem
  split
  · next k hk =>
    split
    · next h => exact .inr ⟨k, _, hk, h.1, h.2, by simp [length_bufferAtAccept hoff, length_bufferAtEnd hoff], rfl⟩
    · exact .inl rfl
  · exact .inl rfl

theorem memInv_resetMem (h : MemInv s) (hreq : RequestInv s) : MemInv { s with mem := resetMem s } := by
  have hfit := buffer_le_addrLimit hreq
  obtain ⟨-, -, -, hoff, -⟩ := hreq
  rcases resetMem_cases hoff with hr | ⟨k, bs, -, -, -, hlen, hr⟩ <;> rw [hr]
  · exact h
  · exact ⟨Memory.wf_writeBytes bs _ h.1, Memory.below_writeBytes (limit := addrLimit s.cfg) bs _ (by omega) h.2⟩

/-! ### ACCEPT -/

theorem blockInv_granted {v : State} (h : BlockInv s) (hg : Granted s v) : BlockInv v := by
  obtain ⟨r, n, d, hn, rfl⟩ := hg
  obtain ⟨hmem, ⟨hidle, hrst, hun, hbusy, hdone⟩, hreq, hlatch⟩ := h
  have hnrst : s.rst = true → s.phase = .idle ∧ r :: s.pending.eraseIdx n = [] := fun hr => by simp [(hrst hr).2] at hn
  exact ⟨hmem, ⟨hidle, hnrst, hun, hbusy, hdone⟩, hreq, hlatch⟩

/-- A rejected request leaves the registers as they were, and a call the other clauses say nothing of. -/
theorem blockInv_reject {m : Memory} (h : BlockInv s) (ha : canAccept s = true) (hm : MemInv { s with mem := m })
    (reason : FaultReason) : BlockInv (reject reason m s) := by
  obtain ⟨-, ⟨-, -, hun, -, -⟩, hreq, -⟩ := h
  obtain ⟨hrst, hp, -⟩ := canAccept_iff.1 ha
  have hcall := headCall_ne_none ha .rejected
  refine ⟨hm, ⟨by simp [hcall], by simp [hrst], fun hu => ?_, by simp, fun k hk _ hs => ?_⟩, hreq, fun k hk hs => ?_⟩
  · exact absurd (hun hu).1 (by simp [hp])
  · simp [status_of_mem_headCall hk] at hs
  · exact absurd (status_of_mem_headCall hk) hs

theorem latchedInstr_accept (i : Instr) : latchedInstr (accept (opOf i) (dataOf i) (dlenOf i) s) = i := by
  cases i with
  | rev16 data dlen => rfl
  | crc32 data dlen => rfl

theorem blockInv_accept {i : Instr} (h : BlockInv s) (ha : canAccept s = true) (hf : fetch s = .instr i)
    (hl : Legal s.cfg (opOf i) (dataOf i).toNat (dlenOf i)) : BlockInv (accept (opOf i) (dataOf i) (dlenOf i) s) := by
  have hrst := (canAccept_iff.1 ha).1
  have hcall := headCall_ne_none ha .legal
  refine ⟨h.1, ⟨by simp [hcall], by simp [hrst], by simp, fun k hk _ => ?_, by simp⟩,
    ⟨op_eq_or_eq i, hl, data_lt_of_decode hf, by simp, by simp⟩, fun k hk _ => ?_⟩
  · simp [status_of_mem_headCall hk]
  · rw [latchedInstr_accept]
    exact decode_of_mem_headCall (s := s) hf hk

/-! ### The running call -/

theorem off_add_toNat {k : Nat} (hk : s.off.toNat + k ≤ s.reqDlen.toNat) : (s.off + BitVec.ofNat 32 k).toNat = s.off.toNat + k := by
  have := s.reqDlen.isLt
  rw [BitVec.toNat_add, BitVec.toNat_ofNat, Nat.mod_eq_of_lt (a := k) (by omega), Nat.mod_eq_of_lt (by omega)]

theorem requestInv_advance {k : Nat} (h : RequestInv s) (hk : s.off.toNat + k ≤ s.reqDlen.toNat)
    (heven : s.reqOp = opRev16 → k % 2 = 0) : RequestInv { s with off := s.off + BitVec.ofNat 32 k } := by
  obtain ⟨hop, hlegal, hdata, -, hunit⟩ := h
  refine ⟨hop, hlegal, hdata, ?_, fun hr => ?_⟩
  · simpa only [off_add_toNat hk] using hk
  · have := hunit hr
    have := heven hr
    simp only [off_add_toNat hk]
    omega

/-- While a call runs, OFF may be anything, and writes may be outstanding where it is REV16. -/
theorem phaseInv_advance {unacked : Bool} (h : PhaseInv s) (hb : s.phase = .busy) (hw : unacked = true → s.reqOp = opRev16)
    (off : Word32) : PhaseInv { s with off := off, unacked := unacked } := by
  obtain ⟨hidle, hrst, -, hbusy, -⟩ := h
  exact ⟨hidle, hrst, fun hu => ⟨hb, hw hu⟩, hbusy, by simp [hb]⟩

theorem blockInv_rev16Chunk {k : Nat} (h : BlockInv s) (hb : s.phase = .busy) (hop : s.reqOp = opRev16)
    (hk : s.off.toNat + k ≤ s.reqDlen.toNat) (heven : k % 2 = 0) : BlockInv (rev16Chunk k s) := by
  obtain ⟨hmem, hphase, hreq, hlatch⟩ := h
  exact ⟨memInv_swapUnits hmem hreq hk, phaseInv_advance hphase hb (fun _ => hop) _, requestInv_advance hreq hk fun _ => heven, hlatch⟩

theorem blockInv_crc32Chunk {k : Nat} (h : BlockInv s) (hb : s.phase = .busy) (hop : s.reqOp = opCrc32)
    (hk : s.off.toNat + k ≤ s.reqDlen.toNat) : BlockInv (crc32Chunk k s) := by
  obtain ⟨hmem, hphase, hreq, hlatch⟩ := h
  have ⟨_, _, hun, _, _⟩ := hphase
  have hne : opCrc32 ≠ opRev16 := by decide
  have hw : s.unacked = true → s.reqOp = opRev16 := fun hu => (hun hu).2
  exact ⟨hmem, phaseInv_advance hphase hb hw _, requestInv_advance hreq hk fun hr => absurd (hop.symm.trans hr) hne, hlatch⟩

theorem blockInv_chunk {k : Nat} (h : BlockInv s) (hk : canChunk k s = true) : BlockInv (chunk k s) := by
  obtain ⟨-, hb, -, hk, hok⟩ := canChunk_iff.1 hk
  rcases chunk_cases k s with ⟨hop, he⟩ | ⟨hop, he⟩ | ⟨-, -, he⟩ <;> rw [he]
  · rw [hop] at hok
    exact blockInv_rev16Chunk h hb hop hk (even_of_chunkOk hok)
  · exact blockInv_crc32Chunk h hb hop hk
  · exact h

theorem blockInv_ackWrites (h : BlockInv s) : BlockInv (ackWrites s) := by
  obtain ⟨hmem, ⟨hidle, hrst, -, hbusy, hdone⟩, hreq, hlatch⟩ := h
  exact ⟨hmem, ⟨hidle, hrst, by simp, hbusy, hdone⟩, hreq, hlatch⟩

/-- A running call may end where no write is outstanding and, unless a fault was raised on it, every byte is processed. -/
theorem blockInv_done (h : BlockInv s) (hb : s.phase = .busy) (hoff : ∀ k ∈ s.call, k.status = .legal → s.off = s.reqDlen) :
    BlockInv { s with phase := .done, unacked := false } := by
  obtain ⟨hmem, ⟨hidle, hrst, -, -, -⟩, hreq, hlatch⟩ := h
  simp only [hb, reduceCtorEq, false_iff, false_and, imp_false] at hidle hrst
  exact ⟨hmem, ⟨by simp [hidle], by simp [hrst], by simp, by simp, fun k hk _ => hoff k hk⟩, hreq, hlatch⟩

theorem blockInv_complete (h : BlockInv s) (hb : s.phase = .busy) (hoff : s.off = s.reqDlen) (hun : s.unacked = false) :
    BlockInv (complete s) := by
  have hd := blockInv_done h hb fun _ _ _ => hoff
  rw [← hun] at hd
  exact hd

theorem blockInv_runRev16 {data : BitVec 64} {dlen : Word32} (h : BlockInv s) (ha : canAccept s = true)
    (hf : fetch s = .instr (.rev16 data dlen)) (hl : Legal s.cfg opRev16 data.toNat dlen) : BlockInv (runRev16 data dlen s) := by
  have hacc : BlockInv (accept opRev16 data dlen s) := blockInv_accept h ha hf hl
  have hchunk : BlockInv (rev16Chunk dlen.toNat (accept opRev16 data dlen s)) :=
    blockInv_rev16Chunk hacc rfl rfl (by simp) hl.even
  exact blockInv_complete (blockInv_ackWrites hchunk) rfl (by simp) rfl

theorem blockInv_runCrc32 {data : BitVec 64} {dlen : Word32} (h : BlockInv s) (ha : canAccept s = true)
    (hf : fetch s = .instr (.crc32 data dlen)) (hl : Legal s.cfg opCrc32 data.toNat dlen) : BlockInv (runCrc32 data dlen s) := by
  have hacc : BlockInv (accept opCrc32 data dlen s) := blockInv_accept h ha hf hl
  exact blockInv_complete (blockInv_crc32Chunk hacc rfl rfl (by simp)) rfl (by simp) rfl

theorem blockInv_headTaken {t : State} (h : BlockInv s) (ha : canAccept s = true) (ht : HeadTaken s t) : BlockInv t := by
  cases ht with
  | illegal => exact blockInv_reject h ha h.1 _
  | rejected reason hf => exact blockInv_reject h ha (memInv_rejectedMem h.1 _ _ _ _) _
  | accepted hf hl => exact blockInv_accept h ha hf hl
  | ranRev16 hf hl => exact blockInv_runRev16 h ha hf hl
  | ranCrc32 hf hl => exact blockInv_runCrc32 h ha hf hl

/-! ### Faults after ACCEPT, and accesses of other agents -/

theorem not_rejected_of_busy (h : BlockInv s) (hb : s.phase = .busy) : ∀ k ∈ s.call, k.status ≠ .rejected := by
  obtain ⟨-, ⟨-, -, -, hbusy, -⟩, -, -⟩ := h
  exact fun k hk => hbusy k hk hb

/-- A fault raised on an accepted call leaves its request latched, and no legal call. -/
theorem blockInv_violate (h : BlockInv s) (hk : ∀ k ∈ s.call, k.status ≠ .rejected) (reason : FaultReason) :
    BlockInv (violate reason s) := by
  obtain ⟨hmem, ⟨hidle, hrst, hun, -, -⟩, hreq, hlatch⟩ := h
  have hviolated : ∀ k ∈ (violate reason s).call, k.status = .violated := by simp
  refine ⟨memInv_violatedMem hmem, ⟨by simpa using hidle, hrst, hun, fun k hk' _ => by simp [hviolated k hk'],
    fun k hk' _ hs => by simp [hviolated k hk'] at hs⟩, hreq, fun k hk' _ => ?_⟩
  obtain ⟨k₀, hk₀, rfl⟩ := Option.map_eq_some_iff.1 hk'
  exact hlatch k₀ hk₀ (hk k₀ hk₀)

theorem blockInv_violate_of_forbidden {a : Nat} {w : Bool} (h : BlockInv s) (hf : forbidden s a w = true) (reason : FaultReason) :
    BlockInv (violate reason s) := by
  obtain ⟨k₀, hcall, hs, -⟩ := forbidden_eq_true.1 hf
  exact blockInv_violate h (by simp [hcall, hs]) reason

theorem blockInv_busError {a : Nat} (h : BlockInv s) (ha : canBusError a s = true) :
    BlockInv { violate (.busError a) s with phase := .done, unacked := false } := by
  have hb := (busy_of_canBusError ha).2
  have hv := blockInv_violate h (not_rejected_of_busy h hb) (.busError a)
  exact blockInv_done hv hb (by simp)

theorem blockInv_loadByte (h : BlockInv s) (agent a : Nat) : BlockInv (loadByte agent a s) := by
  rcases loadByte_cases agent a s with ⟨hf, he⟩ | ⟨-, -, he⟩ | ⟨-, -, he⟩ <;> rw [he]
  · exact blockInv_violate_of_forbidden h hf (.concurrentAccess a agent)
  · exact h
  · exact h

theorem blockInv_storeByte {a : Nat} (h : BlockInv s) (ha : a < addrLimit s.cfg) (agent : Nat) (b : Byte) :
    BlockInv (storeByte agent a b s) := by
  rcases storeByte_cases agent a b s with ⟨hf, he⟩ | ⟨-, -, he⟩ | ⟨-, -, he⟩ <;> rw [he]
  · have hv := blockInv_violate_of_forbidden h hf (.concurrentAccess a agent)
    exact ⟨memInv_write hv.1 ha _, hv.2⟩
  · exact ⟨memInv_write h.1 ha _, h.2⟩
  · exact ⟨memInv_write h.1 ha b, h.2⟩

theorem blockInv_storeWord {a : Nat} (h : BlockInv s) (ha : a + 3 < addrLimit s.cfg) (agent : Nat) (w : Word32) :
    BlockInv (storeWord agent a w s) :=
  storeWord_induction w (fun u x b hcfg _ _ hu => blockInv_storeByte hu (by rw [hcfg]; omega) agent b) h

/-! ### RESPOND, the port and reset -/

theorem blockInv_respond (h : BlockInv s) (hr : s.rst = false) (hp : s.phase = .done) : BlockInv (respond s) := by
  obtain ⟨hmem, hphase, hreq, -⟩ := h
  have hun := unacked_eq_false_of_phaseInv hphase (by simp [hp])
  exact ⟨hmem, ⟨by simp, by simp [hr], by simp [hun], by rintro k ⟨⟩, by rintro k ⟨⟩⟩, hreq, by rintro k ⟨⟩⟩

theorem blockInv_present (h : BlockInv s) (hr : s.rst = false) (req : Request) :
    BlockInv { s with pending := s.pending ++ [req] } := by
  obtain ⟨hmem, ⟨hidle, -, hun, hbusy, hdone⟩, hreq, hlatch⟩ := h
  exact ⟨hmem, ⟨hidle, by simp [hr], hun, hbusy, hdone⟩, hreq, hlatch⟩

theorem blockInv_rstAssert (h : BlockInv s) : BlockInv (rstAssertStep s) := by
  obtain ⟨hmem, -, hreq, -⟩ := h
  have hpos : 0 < addrLimit s.cfg := Nat.two_pow_pos _
  exact ⟨memInv_resetMem hmem hreq, ⟨by simp, by simp, by simp, by rintro k ⟨⟩, by rintro k ⟨⟩⟩,
    ⟨.inl rfl, by simp [Legal], hpos, by simp, by simp⟩, by rintro k ⟨⟩⟩

theorem blockInv_rstRelease (h : BlockInv s) : BlockInv (rstReleaseStep s) := by
  obtain ⟨hmem, ⟨hidle, -, hun, hbusy, hdone⟩, hreq, hlatch⟩ := h
  exact ⟨hmem, ⟨hidle, by simp, hun, hbusy, hdone⟩, hreq, hlatch⟩

/-! ### The step -/

theorem Moved.blockInv {e : Option Event} {t : State} (h : BlockInv s) (hm : Moved e s t) : BlockInv t := by
  cases hm with
  | stutter => exact h
  | run hg ha hr => exact blockInv_headTaken (blockInv_granted h hg) ha (headTaken_runHead ha hr)
  | accept _ hg ha => exact blockInv_headTaken (blockInv_granted h hg) ha (headTaken_acceptHead _)
  | chunk hk => exact blockInv_chunk h hk
  | ack => exact blockInv_ackWrites h
  | busError _ ha => exact blockInv_busError h ha
  | complete hc =>
    obtain ⟨-, hb, hoff, hun⟩ := canComplete_iff.1 hc
    exact blockInv_complete h hb hoff hun
  | respond hr hp => exact blockInv_respond h hr hp
  | present hr => exact blockInv_present h hr _
  | load _ _ => exact blockInv_loadByte h _ _
  | store _ ha => exact blockInv_storeByte h ha _ _
  | storeVar _ ha => exact blockInv_storeWord h ha _ _
  | rstAssert _ => exact blockInv_rstAssert h
  | rstRelease => exact blockInv_rstRelease h

end

/-- Settles O52: the invariant does not read the schedule, and each operation a step can be keeps it. -/
theorem everyStepKeepsTheBlockInvariant : Obligations.EveryStepKeepsTheBlockInvariant := by
  unfold Obligations.EveryStepKeepsTheBlockInvariant
  intro s t h hstep
  have hu : BlockInv { s with sched := s.sched.tail } := h
  exact (step_moved hstep).blockInv hu

end Sys2Proof.Machine
end

section
/-! PROOF. A byte changes only by an agent's store, or inside the buffer of a REV16 request (20_memory.md R51, R52, R53): outside both, each operation a
step can be leaves the byte alone. -/

namespace Sys2Proof.Machine

/-- Byte `a` lies in the buffer of the request in the block, and that request is REV16. -/
def InRev16Buffer (s : State) (a : Nat) : Prop :=
  ∃ k data dlen, s.call = some k ∧ decode s.cfg.addrWidth (wireWords s.cfg.addrWidth k.req.desc) = .instr (.rev16 data dlen) ∧
    data.toNat ≤ a ∧ a < data.toNat + dlen.toNat

theorem inRev16Buffer_congr {s t : State} {a : Nat} (hcfg : t.cfg = s.cfg) (hreq : t.call.map Call.req = s.call.map Call.req)
    (h : InRev16Buffer t a) : InRev16Buffer s a := by
  obtain ⟨k, data, dlen, hk, hd, hlo, hhi⟩ := h
  rw [hk, Option.map_some, eq_comm, Option.map_eq_some_iff] at hreq
  obtain ⟨k', hk', hreq⟩ := hreq
  exact ⟨k', data, dlen, hk', by rw [hreq, ← hcfg, hd], hlo, hhi⟩

/-- The latched buffer of an accepted REV16 call is its descriptor's. -/
theorem outsideBuffer_of_latched {s : State} {a : Nat} {k : Call} (h : BlockInv s) (hk : s.call = some k) (hs : k.status ≠ .rejected)
    (hop : s.reqOp = opRev16) (hn : ¬ InRev16Buffer s a) : OutsideBuffer s.reqData.toNat s.reqDlen.toNat a := by
  obtain ⟨-, -, -, hlatch⟩ := h
  have hd := hlatch k hk hs
  rw [latchedInstr, if_pos hop] at hd
  by_contra hout
  exact hn ⟨k, s.reqData, s.reqDlen, hk, hd, by omega, by omega⟩

/-- The request taken from the head of the port is the one its descriptor says. -/
theorem outsideBuffer_of_headCall {v t : State} {a : Nat} {data : BitVec 64} {dlen : Word32} {status : CallStatus} (hn : ¬ InRev16Buffer t a)
    (ha : canAccept v = true) (hf : fetch v = .instr (.rev16 data dlen)) (hcfg : t.cfg = v.cfg) (hcall : t.call = headCall status v) :
    OutsideBuffer data.toNat dlen.toNat a := by
  obtain ⟨k, hk, -⟩ := headCall_eq_some ha status
  have hd := decode_of_mem_headCall hf hk
  by_contra hout
  exact hn ⟨k, data, dlen, hcall.trans hk, by rw [hcfg, hd], by omega, by omega⟩

theorem read_headTaken {v t : State} {a : Nat} (ha : canAccept v = true) (h : HeadTaken v t) (hn : ¬ InRev16Buffer t a) :
    Memory.read t.mem a = Memory.read v.mem a := by
  cases h with
  | illegal => rfl
  | accepted _ _ => rfl
  | ranCrc32 _ _ => rfl
  | ranRev16 hf hl =>
    have hout := outsideBuffer_of_headCall hn ha hf rfl rfl
    have heven := hl.even
    rw [runRev16_mem]
    exact read_swapUnitsOther _ _ _ (by omega)
  | @rejected i reason hf =>
    cases i with
    | crc32 data dlen => rfl
    | rev16 data dlen => exact read_rejectedMemOther reason v (outsideBuffer_of_headCall hn ha hf rfl rfl)

theorem read_violatedMem {s : State} {a : Nat} {k : Call} (h : BlockInv s) (hk : s.call = some k) (hs : k.status ≠ .rejected)
    (hn : ¬ InRev16Buffer s a) : Memory.read (violatedMem s) a = Memory.read s.mem a := by
  by_cases hop : s.reqOp = opRev16
  · exact read_violatedMemOther (outsideBuffer_of_latched h hk hs hop hn)
  · rw [violatedMem, if_neg hop]

/-- A block that runs a call holds one that was not rejected. -/
theorem call_of_busy {s : State} (h : BlockInv s) (hb : s.phase = .busy) : ∃ k, s.call = some k ∧ k.status ≠ .rejected := by
  have ⟨_, ⟨hidle, _⟩, _⟩ := h
  obtain ⟨k, hk⟩ := Option.ne_none_iff_exists'.1 fun hc => by simp [hidle.2 hc] at hb
  exact ⟨k, hk, not_rejected_of_busy h hb k hk⟩

theorem read_chunk {s : State} {a n : Nat} (h : BlockInv s) (hc : canChunk n s = true) (hn : ¬ InRev16Buffer s a) :
    Memory.read (chunk n s).mem a = Memory.read s.mem a := by
  obtain ⟨-, hb, -, hoff, -⟩ := canChunk_iff.1 hc
  obtain ⟨k, hk, hs⟩ := call_of_busy h hb
  rcases chunk_cases n s with ⟨hop, he⟩ | ⟨-, he⟩ | ⟨-, -, he⟩ <;> rw [he]
  · have hout := outsideBuffer_of_latched h hk hs hop hn
    exact read_swapUnitsOther _ _ _ (by unfold cursor; omega)
  · rfl

theorem read_loadByte {s : State} {a : Nat} (h : BlockInv s) (hn : ¬ InRev16Buffer s a) (agent x : Nat) :
    Memory.read (loadByte agent x s).mem a = Memory.read s.mem a := by
  rcases loadByte_cases agent x s with ⟨hf, he⟩ | ⟨-, -, he⟩ | ⟨-, -, he⟩ <;> rw [he]
  obtain ⟨k, hk, hs, -⟩ := forbidden_eq_true.1 hf
  exact read_violatedMem h hk hs hn

theorem read_storeByte {s : State} {a x : Nat} (h : BlockInv s) (hn : ¬ InRev16Buffer s a) (hne : x ≠ a) (agent : Nat) (b : Byte) :
    Memory.read (storeByte agent x b s).mem a = Memory.read s.mem a := by
  rcases storeByte_cases agent x b s with ⟨hf, he⟩ | ⟨-, -, he⟩ | ⟨-, -, he⟩ <;> rw [he]
  · obtain ⟨k, hk, hs, -⟩ := forbidden_eq_true.1 hf
    exact (Memory.read_writeOther hne _ _).trans (read_violatedMem h hk hs hn)
  · exact Memory.read_writeOther hne _ _
  · exact Memory.read_writeOther hne _ _

theorem read_storeWord {s : State} {a x : Nat} (h : BlockInv s) (hn : ¬ InRev16Buffer s a) (hx : x + 3 < addrLimit s.cfg)
    (hout : a < x ∨ x + 4 ≤ a) (agent : Nat) (w : Word32) : Memory.read (storeWord agent x w s).mem a = Memory.read s.mem a := by
  obtain ⟨-, -, hread⟩ : BlockInv (storeWord agent x w s) ∧ ¬ InRev16Buffer (storeWord agent x w s) a ∧
      Memory.read (storeWord agent x w s).mem a = Memory.read s.mem a := by
    refine storeWord_induction (P := fun u => BlockInv u ∧ ¬ InRev16Buffer u a ∧ Memory.read u.mem a = Memory.read s.mem a) w
      (fun u y b hcfg hlo hhi ⟨hinv, hnu, hread⟩ => ⟨?_, ?_, ?_⟩) ⟨h, hn, rfl⟩
    · exact blockInv_storeByte hinv (by rw [hcfg]; omega) agent b
    · exact mt (inRev16Buffer_congr (extends_storeByte agent y b u).1 (accessFrame_storeByte agent y b u).request) hnu
    · exact (read_storeByte hinv hnu (by omega) agent b).trans hread
  exact hread

theorem read_resetMem {s : State} {a : Nat} (h : BlockInv s) (hn : ¬ InRev16Buffer s a) :
    Memory.read (resetMem s) a = Memory.read s.mem a := by
  have ⟨_, _, ⟨_, _, _, hoff, _⟩, _⟩ := h
  rcases resetMem_cases hoff with he | ⟨k, bs, hk, hs, hop, hlen, he⟩ <;> rw [he]
  have hout := outsideBuffer_of_latched h hk (by simp [hs]) hop hn
  exact Memory.read_writeBytesOther bs s.mem (by omega)

/-- Outside the REV16 buffers of the block before and after it, a step that is no store to byte `a` leaves the byte alone. -/
theorem Moved.read_mem {e : Option Event} {s t : State} {a : Nat} (h : BlockInv s) (hm : Moved e s t) (hs : ¬ InRev16Buffer s a)
    (ht : ¬ InRev16Buffer t a) (hstore : ∀ agent b, e ≠ some (.store agent a b))
    (hword : ∀ agent x v, e = some (.storeVar agent x v) → a < x ∨ x + 4 ≤ a) : Memory.read t.mem a = Memory.read s.mem a := by
  cases hm with
  | run hg ha hr =>
    rw [← hg.mem_eq]
    exact read_headTaken ha (headTaken_runHead ha hr) ht
  | accept _ hg ha =>
    rw [← hg.mem_eq]
    exact read_headTaken ha (headTaken_acceptHead _) ht
  | chunk hk => exact read_chunk h hk hs
  | busError _ ha =>
    obtain ⟨k, hk, hst⟩ := call_of_busy h (busy_of_canBusError ha).2
    exact read_violatedMem h hk hst hs
  | load _ _ => exact read_loadByte h hs _ _
  | @store agent x b he _ => exact read_storeByte h hs (by rintro rfl; exact hstore agent b he) agent b
  | storeVar he ha => exact read_storeWord h hs ha (hword _ _ _ he) _ _
  | rstAssert _ => exact read_resetMem h hs
  | stutter | ack | complete _ | respond _ _ | present _ | rstRelease => rfl

/-- Settles O54: a byte that no store names and no REV16 buffer holds, before or after the step, keeps its value. -/
theorem memoryChangesOnlyInARev16Buffer : Obligations.MemoryChangesOnlyInARev16Buffer := by
  unfold Obligations.MemoryChangesOnlyInARev16Buffer
  intro s t a h hstep hne
  have hcfg : t.cfg = s.cfg := (step_moved hstep).extends.1
  have hu : BlockInv { s with sched := s.sched.tail } := h
  by_contra hnone
  simp only [not_or, not_exists, not_and] at hnone
  obtain ⟨hstore, hword, hbuf⟩ := hnone
  have hs : ¬ InRev16Buffer { s with sched := s.sched.tail } a := by
    rintro ⟨k, data, dlen, hk, hd, hlo, hhi⟩
    exact hbuf k data dlen (.inl hk) hd hlo hhi
  have ht : ¬ InRev16Buffer t a := by
    rintro ⟨k, data, dlen, hk, hd, hlo, hhi⟩
    rw [hcfg] at hd
    exact hbuf k data dlen (.inr hk) hd hlo hhi
  have hword' : ∀ agent x v, s.sched.head? = some (.storeVar agent x v) → a < x ∨ x + 4 ≤ a := fun agent x v he => by
    have := hword agent x v he
    omega
  have hread := (step_moved hstep).read_mem hu hs ht hstore hword'
  exact hne hread

end Sys2Proof.Machine
end

section
/-! PROOF. What every step leaves of the fault record, of the port while the block is not idle, and of the phase (10_state.md R25, R31, 40_call.md R101). -/

namespace Sys2Proof.Machine

/-! ### The fault record -/

theorem fault_prefix_headTaken {v t : State} (h : HeadTaken v t) : v.fault <+: t.fault := by
  cases h with
  | illegal => exact List.prefix_append _ _
  | rejected _ _ => exact List.prefix_append _ _
  | accepted _ _ | ranRev16 _ _ | ranCrc32 _ _ => exact List.prefix_rfl

theorem Moved.fault_prefix {e : Option Event} {u t : State} (h : Moved e u t) : u.fault <+: t.fault := by
  cases h with
  | run hg ha hr => exact hg.fault_eq ▸ fault_prefix_headTaken (headTaken_runHead ha hr)
  | accept _ hg _ => exact hg.fault_eq ▸ fault_prefix_headTaken (headTaken_acceptHead _)
  | chunk _ => exact (accessFrame_chunk _ u).fault
  | busError _ _ => exact List.prefix_append _ _
  | load _ _ => exact (accessFrame_loadByte _ _ u).fault
  | store _ _ => exact (accessFrame_storeByte _ _ _ u).fault
  | storeVar _ _ => exact (accessFrame_storeWord _ _ _ u).fault
  | stutter | ack | complete _ | respond _ _ | present _ | rstAssert _ | rstRelease => exact List.prefix_rfl

/-- Settles O45: a fault is added behind the ones recorded before, and nothing else touches the record. -/
theorem faultRecordOnlyGrows : Obligations.FaultRecordOnlyGrows := by
  unfold Obligations.FaultRecordOnlyGrows
  intro s t h
  exact (step_moved h).fault_prefix

/-! ### The port -/

theorem step_present {s : State} {req : Request} {es : List Event} (hs : s.sched = .present req :: es) (hr : s.rst = false) :
    step s = .next { s with pending := s.pending ++ [req], sched := es } := by
  simp [step, nextMove, hs, eventMove, presentStep, hr]

/-- A block that is not idle takes no request from the port. -/
theorem Moved.pending_prefix {e : Option Event} {u t : State} (h : Moved e u t) (hp : u.phase ≠ .idle) (he : e ≠ some .rstAssert) :
    u.pending <+: t.pending := by
  cases h with
  | run hg ha _ => exact absurd (idle_of_granted hg ha).2 hp
  | accept _ hg ha => exact absurd (idle_of_granted hg ha).2 hp
  | rstAssert he' => exact absurd he' he
  | present _ => exact List.prefix_append _ _
  | chunk _ => exact (accessFrame_chunk _ u).pending ▸ List.prefix_rfl
  | load _ _ => exact (accessFrame_loadByte _ _ u).pending ▸ List.prefix_rfl
  | store _ _ => exact (accessFrame_storeByte _ _ _ u).pending ▸ List.prefix_rfl
  | storeVar _ _ => exact (accessFrame_storeWord _ _ _ u).pending ▸ List.prefix_rfl
  | stutter | ack | busError _ _ | complete _ | respond _ _ | rstRelease => exact List.prefix_rfl

/-- Settles O12: `present` appends to the port, exec needs a block that can accept, and no other operation of a block that is not idle touches the port. -/
theorem requestsAreHeldWhileBusy : Obligations.RequestsAreHeldWhileBusy := by
  unfold Obligations.RequestsAreHeldWhileBusy
  refine ⟨fun s req es hs hr => step_present hs hr, fun s i h => exec_of_not_canAccept i ?_,
    fun s t hp he h => (step_moved h).pending_prefix hp he⟩
  refine Bool.eq_false_iff.2 fun ha => ?_
  obtain ⟨hrst, hidle, hpend⟩ := canAccept_iff.1 ha
  simp [hrst, hidle, hpend] at h

/-! ### The phase -/

/-- The call in the block ended with the fault record `f` it began with, or was rejected with a fault recorded. -/
def EndedAtOnce (f : List FaultEntry) (t : State) : Prop :=
  ∃ k, t.call = some k ∧ ((k.status = .legal ∧ t.fault = f) ∨ (k.status = .rejected ∧ t.fault ≠ f))

theorem endedAtOnce_reject {v : State} (ha : canAccept v = true) (reason : FaultReason) (m : Memory) :
    EndedAtOnce v.fault (reject reason m v) := by
  obtain ⟨k, hk, hs⟩ := headCall_eq_some ha .rejected
  exact ⟨k, hk, .inr ⟨hs, by simp⟩⟩

theorem endedAtOnce_runHead {v t : State} (ha : canAccept v = true) (h : runHead v = .next t) : t.phase = .done ∧ EndedAtOnce v.fault t := by
  obtain ⟨k, hk, hs⟩ := headCall_eq_some ha .legal
  rcases runHead_cases ha h with rfl | ⟨i, -, ⟨reason, -, rfl⟩ | ⟨-, ⟨data, dlen, -, rfl⟩ | ⟨data, dlen, -, rfl⟩⟩⟩
  · exact ⟨rfl, endedAtOnce_reject ha _ _⟩
  · exact ⟨rfl, endedAtOnce_reject ha _ _⟩
  · exact ⟨rfl, k, hk, .inl ⟨hs, rfl⟩⟩
  · exact ⟨rfl, k, hk, .inl ⟨hs, rfl⟩⟩

theorem acceptHead_phase {v : State} (ha : canAccept v = true) :
    (acceptHead v).phase = .busy ∨ (acceptHead v).phase = .done ∧ EndedAtOnce v.fault (acceptHead v) := by
  rcases acceptHead_cases v with h | ⟨i, -, ⟨reason, -, h⟩ | ⟨-, h⟩⟩ <;> rw [h]
  · exact .inr ⟨rfl, endedAtOnce_reject ha _ _⟩
  · exact .inr ⟨rfl, endedAtOnce_reject ha _ _⟩
  · exact .inl rfl

theorem respond_obs_of_call {s : State} {k : Call} (h : s.call = some k) :
    (respond s).obs = .response k.req.requester k.req.dst s.ret :: s.obs := by
  simp [responseObs, h]

/-- Settles O36: each operation a step can be leaves the phase, or changes it as one line of the lifecycle says. -/
theorem phasesChangeAsTheLifecycleSays : Obligations.PhasesChangeAsTheLifecycleSays := by
  unfold Obligations.PhasesChangeAsTheLifecycleSays
  intro s t h
  cases step_moved h with
  | run hg ha hr =>
    obtain ⟨hrst, hidle⟩ := idle_of_granted hg ha
    obtain ⟨hdone, hended⟩ := endedAtOnce_runHead ha hr
    exact .inr (.inr (.inl ⟨hidle, hrst, hdone, hg.fault_eq ▸ hended⟩))
  | @accept v n he hg ha =>
    obtain ⟨hrst, hidle⟩ := idle_of_granted hg ha
    rcases acceptHead_phase ha with hbusy | ⟨hdone, hended⟩
    · exact .inr (.inl ⟨hidle, hrst, hbusy, n, he⟩)
    · exact .inr (.inr (.inl ⟨hidle, hrst, hdone, hg.fault_eq ▸ hended⟩))
  | busError he ha =>
    obtain ⟨hrst, hbusy⟩ := busy_of_canBusError ha
    exact .inr (.inr (.inr (.inl ⟨hbusy, hrst, rfl, .inr ⟨_, he, by simp⟩⟩)))
  | complete hc =>
    obtain ⟨hrst, hbusy, hoff, hun⟩ := canComplete_iff.1 hc
    exact .inr (.inr (.inr (.inl ⟨hbusy, hrst, rfl, .inl ⟨hoff, hun⟩⟩)))
  | respond hr hp =>
    exact .inr (.inr (.inr (.inr (.inl ⟨hp, hr, rfl, rfl, fun k hk => respond_obs_of_call hk⟩))))
  | rstAssert he => exact .inr (.inr (.inr (.inr (.inr ⟨rfl, he⟩))))
  | chunk _ => exact .inl (accessFrame_chunk _ _).phase
  | load _ _ => exact .inl (accessFrame_loadByte _ _ _).phase
  | store _ _ => exact .inl (accessFrame_storeByte _ _ _ _).phase
  | storeVar _ _ => exact .inl (accessFrame_storeWord _ _ _ _).phase
  | stutter | ack | present _ | rstRelease => exact .inl rfl

end Sys2Proof.Machine
end

section
/-! PROOF. Reset as a level (70_reset_and_hazards.md R210, R213): while it is asserted the block is idle with no request and no call, so only an access of
another agent, or the Reset agent, does anything. -/

namespace Sys2Proof.Machine

theorem step_rstAssert {s : State} {es : List Event} (hs : s.sched = .rstAssert :: es) :
    step s = .next (rstAssertStep { s with sched := es }) := by
  simp [step, nextMove, hs, eventMove]

theorem step_rstRelease {s : State} {es : List Event} (hs : s.sched = .rstRelease :: es) :
    step s = .next { s with rst := false, sched := es } := by
  simp [step, nextMove, hs, eventMove, rstReleaseStep]

/-! ### Accesses where the block holds no call -/

section
variable {s : State} (h : s.call = none)
include h

theorem loadByte_of_no_call (agent a : Nat) :
    loadByte agent a s = { s with obs := .loaded agent a (Memory.read s.mem a) :: s.obs } := by
  simp [loadByte, forbidden, unsettled, h]

theorem storeByte_of_no_call (agent a : Nat) (b : Byte) : storeByte agent a b s = { s with mem := Memory.write s.mem a b } := by
  simp [storeByte, forbidden, unsettled, h]

theorem storeWord_of_no_call (agent a : Nat) (w : Word32) : ∃ m, storeWord agent a w s = { s with mem := m } := by
  refine storeWord_induction (P := fun u => ∃ m, u = { s with mem := m }) w ?_ ⟨s.mem, rfl⟩
  rintro _ x b - - - ⟨m, rfl⟩
  exact ⟨_, storeByte_of_no_call (s := { s with mem := m }) h agent x b⟩

theorem resetMem_of_no_call : resetMem s = s.mem := by
  simp [resetMem, h]

end

/-! ### The level -/

/-- Only the release lowers reset: the block's own moves need it lowered already. -/
theorem rst_of_step {s t : State} (hr : s.rst = true) (hne : s.sched.head? ≠ some .rstRelease) (h : step s = .next t) :
    t.rst = true := by
  unfold step nextMove at h
  cases hs : s.sched with
  | nil =>
    simp [hs, blockMove, canAccept, hr] at h
    rw [← h]
    exact hr
  | cons e es =>
    rw [hs] at h hne
    cases e with
    | rstRelease => simp at hne
    | rstAssert => cases h; rfl
    | writeAck => cases h; exact hr
    | load agent a =>
      simp only [eventMove, loadStep] at h
      split at h
      · cases h; exact (accessFrame_loadByte _ _ _).rst.trans hr
      · cases h
    | store agent a b =>
      simp only [eventMove, storeStep] at h
      split at h
      · cases h; exact (accessFrame_storeByte _ _ _ _).rst.trans hr
      · cases h
    | storeVar agent a v =>
      simp only [eventMove, storeVarStep] at h
      split at h
      · cases h; exact (accessFrame_storeWord _ _ _ _).rst.trans hr
      · cases h
    | call n | accept n | present req | chunk k | busError a | complete | respond =>
      simp [eventMove, acceptStep, presentStep, chunkStep, busErrorStep, completeStep, respondStep, canAccept, canChunk, canBusError,
        canComplete, hr] at h
      rw [← h]

/-- What a step leaves alone while reset is asserted, where it is no load and no store. -/
theorem Moved.quiet_in_reset {e : Option Event} {u t : State} (hinv : PhaseInv u) (hr : u.rst = true) (hm : Moved e u t) :
    t.phase = .idle ∧ t.pending = [] ∧ t.fault = u.fault ∧ ((∀ agent a, e ≠ some (.load agent a)) → t.obs = u.obs) ∧
      ((∀ agent a b, e ≠ some (.store agent a b)) → (∀ agent a v, e ≠ some (.storeVar agent a v)) → t.mem = u.mem) := by
  obtain ⟨hidle, hrst, -, -, -⟩ := hinv
  obtain ⟨hphase, hpend⟩ := hrst hr
  have hcall : u.call = none := hidle.1 hphase
  have hheld : ¬ u.rst = false := by simp [hr]
  cases hm with
  | run hg ha _ => exact absurd (idle_of_granted hg ha).1 hheld
  | accept _ hg ha => exact absurd (idle_of_granted hg ha).1 hheld
  | chunk hk => exact absurd (canChunk_iff.1 hk).1 hheld
  | busError _ ha => exact absurd (busy_of_canBusError ha).1 hheld
  | complete hc => exact absurd (canComplete_iff.1 hc).1 hheld
  | respond hr' _ => exact absurd hr' hheld
  | present hr' => exact absurd hr' hheld
  | load he _ =>
    rw [loadByte_of_no_call hcall]
    exact ⟨hphase, hpend, rfl, fun hno => absurd he (hno _ _), fun _ _ => rfl⟩
  | store he _ =>
    rw [storeByte_of_no_call hcall]
    exact ⟨hphase, hpend, rfl, fun _ => rfl, fun hno _ => absurd he (hno _ _ _)⟩
  | @storeVar agent a v he _ =>
    obtain ⟨m, hm⟩ := storeWord_of_no_call hcall agent a (varValue u.obs agent v)
    rw [hm]
    exact ⟨hphase, hpend, rfl, fun _ => rfl, fun _ hno => absurd he (hno _ _ _)⟩
  | rstAssert _ => exact ⟨rfl, rfl, rfl, fun _ => rfl, fun _ _ => resetMem_of_no_call hcall⟩
  | stutter | ack | rstRelease => exact ⟨hphase, hpend, rfl, fun _ => rfl, fun _ _ => rfl⟩

/-! ### The release -/

theorem acceptHead_of_legal {s : State} {i : Instr} (hf : fetch s = .instr i) (hl : Legal s.cfg (opOf i) (dataOf i).toNat (dlenOf i)) :
    acceptHead s = accept (opOf i) (dataOf i) (dlenOf i) s := by
  simp [acceptHead, hf, check_of_legal hl]

/-- A legal request presented right after the release is accepted by the next move (70_reset_and_hazards.md R213). -/
theorem accepted_after_release {s : State} {r : Request} {i : Instr} {es : List Event} (hidle : s.phase = .idle) (hpend : s.pending = [])
    (hd : decode s.cfg.addrWidth (wireWords s.cfg.addrWidth r.desc) = .instr i)
    (hl : Legal s.cfg (opOf i) (dataOf i).toNat (dlenOf i)) (hs : s.sched = .rstRelease :: .present r :: .accept 0 :: es) :
    runSteps 3 s = .next (accept (opOf i) (dataOf i) (dlenOf i) { s with rst := false, pending := [r], sched := es }) := by
  have hpresent := step_present (s := { s with rst := false, sched := .present r :: .accept 0 :: es }) rfl rfl
  have hacceptable : canAccept { s with rst := false, pending := [r] } = true := by simp [canAccept, hidle]
  have hf : fetch { s with rst := false, pending := [r], sched := es } = .instr i := hd
  have haccept := (step_accept (n := 0) es hacceptable rfl).trans (congrArg _ (acceptHead_of_legal hf hl))
  simp only [hpend, List.nil_append] at hpresent
  rw [runSteps_succ 2 (step_rstRelease hs), hpend, runSteps_succ 1 hpresent, runSteps_succ 0 haccept]
  rfl

/-- Settles O48: the reset agent's two moves set the level, every other operation finds the block idle and empty, and the release lets a call start. -/
theorem nothingHappensInReset : Obligations.NothingHappensInReset := by
  unfold Obligations.NothingHappensInReset
  refine ⟨fun s es hs => ⟨_, step_rstAssert hs, rfl, rfl⟩, fun s t hinv hr h => ?_, fun s es hs => step_rstRelease hs,
    fun s r i es hidle hpend hd hl hs => ⟨_, accepted_after_release hidle hpend hd hl hs, rfl, rfl, rfl, rfl⟩⟩
  have hinv' : PhaseInv { s with sched := s.sched.tail } := hinv
  obtain ⟨hphase, hpend, hfault, hobs, hmem⟩ := (step_moved h).quiet_in_reset hinv' hr
  have hlevel : t.rst = false → s.sched.head? = some .rstRelease := fun hlow => by
    by_contra hne
    simp [rst_of_step hr hne h] at hlow
  exact ⟨hphase, hpend, hfault, hlevel, hobs, hmem⟩

end Sys2Proof.Machine
end

section
/-! SUPPORT. Rev16Ref and Raw on a buffer cut in two, and the steps of one agent that a schedule names. -/

namespace Sys2Proof.Machine

/-! ### Byte lists -/

@[simp] theorem rev16Ref_rev16Ref : ∀ bs : List Byte, rev16Ref (rev16Ref bs) = bs
  | [] => rfl
  | [_] => rfl
  | _ :: _ :: bs => by simp [rev16Ref_rev16Ref bs]

/-- A cut between two units leaves each unit whole (41_rev16.md R137). -/
theorem rev16Ref_append : ∀ {xs : List Byte} (ys : List Byte), xs.length % 2 = 0 → rev16Ref (xs ++ ys) = rev16Ref xs ++ rev16Ref ys
  | [], _, _ => rfl
  | [_], _, h => by simp at h
  | _ :: _ :: xs, ys, h => by
    have heven : xs.length % 2 = 0 := by
      rw [List.length_cons, List.length_cons] at h
      omega
    simp [rev16Ref_append ys heven]

theorem raw_append : ∀ (c : Word32) (xs ys : List Byte), raw c (xs ++ ys) = raw (raw c xs) ys
  | _, [], _ => rfl
  | c, x :: xs, ys => raw_append (byteStep c x) xs ys

/-! ### Single moves -/

section
variable {s : State} {agent a : Nat} {es : List Event}

theorem step_respond (hs : s.sched = .respond :: es) (hr : s.rst = false) (hp : s.phase = .done) :
    step s = .next (respond { s with sched := es }) := by
  simp [step, nextMove, hs, eventMove, respondStep, hr, hp]

theorem step_load (hs : s.sched = .load agent a :: es) (ha : a < addrLimit s.cfg) :
    step s = .next (loadByte agent a { s with sched := es }) := by
  simp [step, nextMove, hs, eventMove, loadStep, ha]

theorem step_store {b : Byte} (hs : s.sched = .store agent a b :: es) (ha : a < addrLimit s.cfg) :
    step s = .next (storeByte agent a b { s with sched := es }) := by
  simp [step, nextMove, hs, eventMove, storeStep, ha]

theorem step_storeVar {v : Nat} (hs : s.sched = .storeVar agent a v :: es) (ha : a + 3 < addrLimit s.cfg) :
    step s = .next (storeWord agent a (varValue s.obs agent v) { s with sched := es }) := by
  simp [step, nextMove, hs, eventMove, storeVarStep, ha]

end

end Sys2Proof.Machine
end

section
/-! PROOF. Every step of every agent keeps what C, RET and the buffer of a legal call mean (20_memory.md R60, R61, R62, 42_crc32.md R151, R154, R155,
41_rev16.md R131, R140). Only CHUNK moves such a call on, COMPLETE ends it, and a request taken from the port starts one; every other operation leaves it
and its buffer alone, or leaves no legal call. -/

namespace Sys2Proof.Machine

/-! ### The buffer of the call in the block -/

theorem inBuffer_iff {s : State} {a : Nat} : inBuffer s a = true ↔ s.reqData.toNat ≤ a ∧ a < s.reqData.toNat + s.reqDlen.toNat := by
  simp [inBuffer]

/-- Where every byte is processed, the buffer at ACCEPT is what memory holds, swapped back. -/
theorem bufferAtAccept_of_processed {s : State} (h : s.off = s.reqDlen) :
    bufferAtAccept s = rev16Ref (Memory.readBytes s.mem s.reqData.toNat s.reqDlen.toNat) := by
  simp [bufferAtAccept, h, Memory.readBytes]

/-- Where every byte is processed, memory holds the buffer the call makes. -/
theorem bufferAtEnd_of_processed {s : State} (h : s.off = s.reqDlen) :
    bufferAtEnd s = Memory.readBytes s.mem s.reqData.toNat s.reqDlen.toNat := by
  simp [bufferAtEnd, h, Memory.readBytes]

/-- Where no byte is processed yet, memory holds the buffer as it was at ACCEPT. -/
theorem bufferAtAccept_of_unprocessed {s : State} (h : s.off = 0#32) :
    bufferAtAccept s = Memory.readBytes s.mem s.reqData.toNat s.reqDlen.toNat := by
  simp [bufferAtAccept, cursor, h, Memory.readBytes]

/-- Where no byte is processed yet, the call is to make Rev16Ref of what memory holds. -/
theorem bufferAtEnd_of_unprocessed {s : State} (h : s.off = 0#32) :
    bufferAtEnd s = rev16Ref (Memory.readBytes s.mem s.reqData.toNat s.reqDlen.toNat) := by
  simp [bufferAtEnd, cursor, h, Memory.readBytes]

/-- At DONE every byte of a legal call is processed, so its buffer is what it was to become. -/
theorem bufferEnds_of_phaseInv {s : State} (h : PhaseInv s) : BufferEnds s := by
  obtain ⟨-, -, -, -, hdone⟩ := h
  exact fun k hk hs hp _ => (bufferAtEnd_of_processed (hdone k hk hp hs)).symm

/-! ### Operations that leave a legal call alone -/

/-- From `s` to `t` the call in the block stays as it is: its registers, its phase, and the bytes of its buffer. -/
structure CallUntouched (s t : State) : Prop where
  call    : t.call = s.call
  phase   : t.phase = s.phase
  reqOp   : t.reqOp = s.reqOp
  reqData : t.reqData = s.reqData
  reqDlen : t.reqDlen = s.reqDlen
  off     : t.off = s.off
  c       : t.c = s.c
  ret     : t.ret = s.ret
  buffer  : ∀ a, inBuffer s a = true → Memory.read t.mem a = Memory.read s.mem a

/-- From `s` to `t` a call that is still legal in `t` is left alone. -/
def LegalCallUntouched (s t : State) : Prop := ∀ k, t.call = some k → k.status = .legal → CallUntouched s t

/-- C, RET and the buffer read nothing of acknowledgements, reset, the port, what agents have learnt, or the draws. -/
theorem callUntouched_of_eq {s t : State}
    (h : t = { s with unacked := t.unacked, rst := t.rst, pending := t.pending, obs := t.obs, draws := t.draws }) :
    CallUntouched s t := by
  rw [h]
  exact ⟨rfl, rfl, rfl, rfl, rfl, rfl, rfl, rfl, fun _ _ => rfl⟩

theorem CallUntouched.trans {s t u : State} (h : CallUntouched s t) (h' : CallUntouched t u) : CallUntouched s u where
  call := h'.call.trans h.call
  phase := h'.phase.trans h.phase
  reqOp := h'.reqOp.trans h.reqOp
  reqData := h'.reqData.trans h.reqData
  reqDlen := h'.reqDlen.trans h.reqDlen
  off := h'.off.trans h.off
  c := h'.c.trans h.c
  ret := h'.ret.trans h.ret
  buffer a ha := by
    have hta : inBuffer t a = true := by simpa [inBuffer, h.reqData, h.reqDlen] using ha
    exact (h'.buffer a hta).trans (h.buffer a ha)

theorem LegalCallUntouched.trans {s t u : State} (h : LegalCallUntouched s t) (h' : LegalCallUntouched t u) : LegalCallUntouched s u := by
  intro k hk hs
  have hu := h' k hk hs
  exact (h k (hu.call.symm.trans hk) hs).trans hu

theorem legalCallUntouched_of_no_legal {s t : State} (h : ∀ k ∈ t.call, k.status ≠ .legal) : LegalCallUntouched s t :=
  fun k hk hs => absurd hs (h k hk)

theorem no_legal_violate (reason : FaultReason) (s : State) : ∀ k ∈ (violate reason s).call, k.status ≠ .legal := by
  simp

theorem legalCallUntouched_loadByte (agent a : Nat) (s : State) : LegalCallUntouched s (loadByte agent a s) := by
  rcases loadByte_cases agent a s with ⟨-, he⟩ | ⟨-, -, he⟩ | ⟨-, -, he⟩ <;> rw [he]
  · exact legalCallUntouched_of_no_legal (no_legal_violate (.concurrentAccess a agent) s)
  · exact fun _ _ _ => callUntouched_of_eq rfl
  · exact fun _ _ _ => callUntouched_of_eq rfl

/-- A write that the borrow does not forbid is outside the buffer of a legal call (20_memory.md R60). -/
theorem callUntouched_write {s : State} {a : Nat} {k : Call} (hk : s.call = some k) (hs : k.status = .legal)
    (hf : forbidden s a true = false) (b : Byte) (draws : Nat) :
    CallUntouched s { s with mem := Memory.write s.mem a b, draws := draws } := by
  refine ⟨rfl, rfl, rfl, rfl, rfl, rfl, rfl, rfl, fun x hx => Memory.read_writeOther ?_ b s.mem⟩
  rintro rfl
  have hforbidden : forbidden s a true = true := forbidden_eq_true.2 ⟨k, hk, by simp [hs], hx, .inr rfl⟩
  simp [hf] at hforbidden

theorem legalCallUntouched_storeByte (agent a : Nat) (b : Byte) (s : State) : LegalCallUntouched s (storeByte agent a b s) := by
  rcases storeByte_cases agent a b s with ⟨-, he⟩ | ⟨hf, -, he⟩ | ⟨hf, -, he⟩ <;> rw [he]
  · exact legalCallUntouched_of_no_legal (no_legal_violate (.concurrentAccess a agent) s)
  · exact fun k hk hs => callUntouched_write (s := s) hk hs hf _ _
  · exact fun k hk hs => callUntouched_write (s := s) hk hs hf b s.draws

theorem legalCallUntouched_storeWord (agent a : Nat) (w : Word32) (s : State) : LegalCallUntouched s (storeWord agent a w s) :=
  storeWord_induction w (fun u x b _ _ _ hu => hu.trans (legalCallUntouched_storeByte agent x b u)) fun _ _ _ => callUntouched_of_eq rfl

/-! ### What is to be kept -/

/-- In `t` C and RET mean what they should, and from `s` to `t` the buffer begins or goes on as it should. -/
def MeaningKept (s t : State) : Prop := ResultInv t ∧ BufferBegins s t ∧ BufferKept s t

/-- Reading inside an untouched buffer. -/
theorem CallUntouched.readBytes_eq {s t : State} (h : CallUntouched s t) {a n : Nat} (hlo : s.reqData.toNat ≤ a)
    (hhi : a + n ≤ s.reqData.toNat + s.reqDlen.toNat) : Memory.readBytes t.mem a n = Memory.readBytes s.mem a n :=
  Memory.readBytes_congr fun x _ _ => h.buffer x (inBuffer_iff.2 ⟨by omega, by omega⟩)

theorem LegalCallUntouched.meaningKept {s t : State} (hoff : s.off.toNat ≤ s.reqDlen.toNat) (hres : ResultInv s)
    (h : LegalCallUntouched s t) : MeaningKept s t := by
  refine ⟨fun k hk hs => ?_, fun hnone k hk hs => ?_, fun k _ hk hs => ?_⟩
  · have hu := h k hk hs
    have hbefore := hu.readBytes_eq (n := s.off.toNat) le_rfl (by omega)
    have hall := hu.readBytes_eq (n := s.reqDlen.toNat) le_rfl le_rfl
    have hsres := hres k (hu.call ▸ hk) hs
    rwa [hu.phase, hu.reqOp, hu.reqData, hu.reqDlen, hu.off, hu.c, hu.ret, hbefore, hall]
  · have hcall := (h k hk hs).call
    cases hnone.symm.trans (hcall.symm.trans hk)
  · have hu := h k hk hs
    have hbefore := hu.readBytes_eq (n := s.off.toNat) le_rfl (by omega)
    have hrest := hu.readBytes_eq (a := cursor s) (n := s.reqDlen.toNat - s.off.toNat) (by unfold cursor; omega) (by unfold cursor; omega)
    have hcursor : cursor t = cursor s := by simp [cursor, hu.reqData, hu.off]
    refine ⟨hu.reqOp, hu.reqData, hu.reqDlen, fun _ => ⟨?_, ?_⟩, fun _ => hu.readBytes_eq le_rfl le_rfl⟩
    · simp only [bufferAtAccept, hcursor, hu.reqData, hu.reqDlen, hu.off, hbefore, hrest]
    · simp only [bufferAtEnd, hcursor, hu.reqData, hu.reqDlen, hu.off, hbefore, hrest]

/-! ### The request at the head of the port -/

theorem opRev16_ne_opCrc32 : opRev16 ≠ opCrc32 := by decide

theorem bufferKept_of_no_call {s : State} (h : s.call = none) (t : State) : BufferKept s t := by
  intro k hk
  cases h.symm.trans hk

theorem meaningKept_runRev16 {s : State} {data : BitVec 64} {dlen : Word32} (hw : Memory.wf s.mem = true) (hnone : s.call = none)
    (hl : Legal s.cfg opRev16 data.toNat dlen) : MeaningKept s (runRev16 data dlen s) := by
  have hop : (runRev16 data dlen s).reqOp ≠ opCrc32 := opRev16_ne_opCrc32
  have hoff : (runRev16 data dlen s).off = (runRev16 data dlen s).reqDlen := by simp [runRev16]
  have hmem : Memory.readBytes (runRev16 data dlen s).mem data.toNat dlen.toNat = rev16Ref (Memory.readBytes s.mem data.toNat dlen.toNat) := by
    rw [runRev16_mem]
    exact readBytes_swapUnits_of_even hw data.toNat hl.even
  have haccept : bufferAtAccept (runRev16 data dlen s) = Memory.readBytes s.mem data.toNat dlen.toNat :=
    (bufferAtAccept_of_processed hoff).trans ((congrArg rev16Ref hmem).trans (rev16Ref_rev16Ref _))
  have hend : bufferAtEnd (runRev16 data dlen s) = rev16Ref (Memory.readBytes s.mem data.toNat dlen.toNat) :=
    (bufferAtEnd_of_processed hoff).trans hmem
  exact ⟨fun k _ _ => ⟨fun hc => absurd hc hop, fun hc => absurd hc hop, fun _ _ => runRev16_ret data dlen s⟩,
    fun _ k _ _ => ⟨fun _ => ⟨haccept, hend⟩, fun hc => absurd hc hop⟩, bufferKept_of_no_call hnone _⟩

theorem meaningKept_runCrc32 {s : State} (hnone : s.call = none) (data : BitVec 64) (dlen : Word32) :
    MeaningKept s (runCrc32 data dlen s) := by
  have hop : (runCrc32 data dlen s).reqOp ≠ opRev16 := opRev16_ne_opCrc32.symm
  exact ⟨fun k _ _ => ⟨by simp [runCrc32], fun _ _ => runCrc32_ret data dlen s, fun hc => absurd hc hop⟩,
    fun _ k _ _ => ⟨fun hc => absurd hc hop, fun _ => rfl⟩, bufferKept_of_no_call hnone _⟩

theorem meaningKept_accept {s : State} (hnone : s.call = none) (op : BitVec 2) (data : BitVec 64) (dlen : Word32) :
    MeaningKept s (accept op data dlen s) :=
  ⟨fun k _ _ => ⟨fun _ _ => by simp [Memory.readBytes], by simp, by simp⟩,
    fun _ k _ _ => ⟨fun _ => ⟨bufferAtAccept_of_unprocessed rfl, bufferAtEnd_of_unprocessed rfl⟩, fun _ => rfl⟩,
    bufferKept_of_no_call hnone _⟩

theorem meaningKept_of_no_legal {s t : State} (h : BlockInv s) (hres : ResultInv s) (ht : ∀ k ∈ t.call, k.status ≠ .legal) :
    MeaningKept s t := by
  obtain ⟨-, -, ⟨-, -, -, hoff, -⟩, -⟩ := h
  exact LegalCallUntouched.meaningKept hoff hres (legalCallUntouched_of_no_legal ht)

theorem meaningKept_headTaken {s t : State} (h : BlockInv s) (hres : ResultInv s) (ha : canAccept s = true) (ht : HeadTaken s t) :
    MeaningKept s t := by
  have ⟨⟨hw, _⟩, ⟨hidle, _⟩, _⟩ := h
  have hnone : s.call = none := hidle.1 (canAccept_iff.1 ha).2.1
  have hrejected : ∀ k ∈ headCall .rejected s, k.status ≠ .legal := fun k hk => by simp [status_of_mem_headCall hk]
  cases ht with
  | illegal => exact meaningKept_of_no_legal h hres hrejected
  | rejected _ _ => exact meaningKept_of_no_legal h hres hrejected
  | accepted _ _ => exact meaningKept_accept hnone _ _ _
  | ranRev16 _ hl => exact meaningKept_runRev16 hw hnone hl
  | ranCrc32 _ _ => exact meaningKept_runCrc32 hnone _ _

/-- The arbiter's choice leaves the call in the block and memory as they are. -/
theorem meaningKept_of_granted {s v t : State} (h : BlockInv s) (hres : ResultInv s) (hg : Granted s v) (ha : canAccept v = true)
    (ht : HeadTaken v t) : MeaningKept s t := by
  have hkept : ResultInv v → MeaningKept v t := fun hv => meaningKept_headTaken (blockInv_granted h hg) hv ha ht
  obtain ⟨r, n, d, -, rfl⟩ := hg
  exact hkept hres

/-! ### CHUNK and COMPLETE -/

section
variable {s : State} {k : Nat} (hk : s.off.toNat + k ≤ s.reqDlen.toNat)
include hk

/-- A REV16 chunk moves its own bytes from what is to be swapped to what is (41_rev16.md R132). -/
theorem buffer_rev16Chunk (hw : Memory.wf s.mem = true) (hunit : s.off.toNat % 2 = 0) (heven : k % 2 = 0) :
    bufferAtAccept (rev16Chunk k s) = bufferAtAccept s ∧ bufferAtEnd (rev16Chunk k s) = bufferAtEnd s := by
  have hoff : (rev16Chunk k s).off.toNat = s.off.toNat + k := off_add_toNat hk
  have hcursor : cursor (rev16Chunk k s) = cursor s + k := by
    simp only [cursor, hoff, rev16Chunk_reqData]
    omega
  have hbefore : Memory.readBytes (rev16Chunk k s).mem s.reqData.toNat s.off.toNat = Memory.readBytes s.mem s.reqData.toNat s.off.toNat :=
    Memory.readBytes_congr fun x _ _ => read_swapUnitsOther _ _ _ (by unfold cursor; omega)
  have hchunk : Memory.readBytes (rev16Chunk k s).mem (cursor s) k = rev16Ref (Memory.readBytes s.mem (cursor s) k) :=
    readBytes_swapUnits_of_even hw (cursor s) heven
  have hafter : ∀ n, Memory.readBytes (rev16Chunk k s).mem (cursor s + k) n = Memory.readBytes s.mem (cursor s + k) n := fun n =>
    Memory.readBytes_congr fun x _ _ => read_swapUnitsOther _ _ _ (by omega)
  have hleft : s.reqDlen.toNat - s.off.toNat = k + (s.reqDlen.toNat - (s.off.toNat + k)) := by omega
  have hdone : Memory.readBytes (rev16Chunk k s).mem s.reqData.toNat (s.off.toNat + k) =
      Memory.readBytes s.mem s.reqData.toNat s.off.toNat ++ rev16Ref (Memory.readBytes s.mem (cursor s) k) := by
    rw [Memory.readBytes_append, hbefore]
    exact congrArg _ hchunk
  constructor
  · rw [bufferAtAccept, bufferAtAccept, hoff, hcursor, rev16Chunk_reqData, rev16Chunk_reqDlen, hdone, hafter, hleft, Memory.readBytes_append,
      rev16Ref_append _ (by simpa using hunit), rev16Ref_rev16Ref, List.append_assoc]
  · rw [bufferAtEnd, bufferAtEnd, hoff, hcursor, rev16Chunk_reqData, rev16Chunk_reqDlen, hdone, hafter, hleft, Memory.readBytes_append,
      rev16Ref_append _ (by simpa using heven), List.append_assoc]

/-- A CRC32 chunk folds the bytes that follow those folded before (42_crc32.md R154, R160). -/
theorem c_crc32Chunk (hc : s.c = raw 0xFFFFFFFF#32 (Memory.readBytes s.mem s.reqData.toNat s.off.toNat)) :
    (crc32Chunk k s).c =
      raw 0xFFFFFFFF#32 (Memory.readBytes s.mem s.reqData.toNat (s.off + BitVec.ofNat 32 k).toNat) := by
  rw [crc32Chunk_c, crcFold_eq_raw, off_add_toNat hk, Memory.readBytes_append, raw_append, ← hc, cursor]

end

/-- The block that goes on with a call held it before. -/
theorem bufferBegins_of_call_eq {s t : State} (h : t.call = s.call) : BufferBegins s t := by
  intro hnone k hk
  cases hnone.symm.trans (h.symm.trans hk)

theorem meaningKept_chunk {s : State} {k : Nat} (h : BlockInv s) (hres : ResultInv s) (hc : canChunk k s = true) :
    MeaningKept s (chunk k s) := by
  obtain ⟨-, hb, -, hk, hok⟩ := canChunk_iff.1 hc
  obtain ⟨⟨hw, -⟩, -, ⟨-, -, -, hoff, hunit⟩, -⟩ := h
  rcases chunk_cases k s with ⟨hop, he⟩ | ⟨hop, he⟩ | ⟨-, -, he⟩ <;> rw [he]
  · rw [hop] at hok
    have hkept := buffer_rev16Chunk hk hw (hunit hop) (even_of_chunkOk hok)
    have hne : s.reqOp ≠ opCrc32 := hop ▸ opRev16_ne_opCrc32
    exact ⟨fun j _ _ => ⟨fun hc => absurd hc hne, fun hc => absurd hc hne, fun _ hd => by simp [hb] at hd⟩, bufferBegins_of_call_eq rfl,
      fun j _ _ _ => ⟨rfl, rfl, rfl, fun _ => hkept, fun hc => absurd hc hne⟩⟩
  · have hne : s.reqOp ≠ opRev16 := hop ▸ opRev16_ne_opCrc32.symm
    refine ⟨fun j hj hs => ⟨fun _ _ => ?_, fun _ hd => by simp [hb] at hd, fun hc => absurd hc hne⟩, bufferBegins_of_call_eq rfl,
      fun j _ _ _ => ⟨rfl, rfl, rfl, fun hc => absurd hc hne, fun _ => rfl⟩⟩
    obtain ⟨hraw, -, -⟩ := hres j hj hs
    exact c_crc32Chunk hk (hraw hop hb)
  · exact LegalCallUntouched.meaningKept hoff hres fun _ _ _ => callUntouched_of_eq rfl

theorem completeRet_of_legal {s : State} {k : Call} (hk : s.call = some k) (hs : k.status = .legal) :
    completeRet s = if s.reqOp = opCrc32 then s.c ^^^ 0xFFFFFFFF#32 else 0x00000000#32 := by
  simp [completeRet, isViolated, hk, hs]

theorem meaningKept_complete {s : State} (hres : ResultInv s) (hc : canComplete s = true) : MeaningKept s (complete s) := by
  obtain ⟨-, hb, hoff, -⟩ := canComplete_iff.1 hc
  refine ⟨fun k (hk : s.call = some k) hs => ⟨by simp, fun (hop : s.reqOp = opCrc32) _ => ?_, fun (hop : s.reqOp = opRev16) _ => ?_⟩,
    bufferBegins_of_call_eq rfl, fun k _ _ _ => ⟨rfl, rfl, rfl, fun _ => ⟨rfl, rfl⟩, fun _ => rfl⟩⟩
  · obtain ⟨hraw, -, -⟩ := hres k hk hs
    rw [complete_ret, completeRet_of_legal hk hs, if_pos hop, hraw hop hb, hoff]
    rfl
  · rw [complete_ret, completeRet_of_legal hk hs, if_neg (hop ▸ opRev16_ne_opCrc32)]

/-! ### The step -/

theorem Moved.meaningKept {e : Option Event} {s t : State} (h : BlockInv s) (hres : ResultInv s) (hm : Moved e s t) : MeaningKept s t := by
  have ⟨_, _, ⟨_, _, _, hoff, _⟩, _⟩ := h
  have huntouched : LegalCallUntouched s t → MeaningKept s t := LegalCallUntouched.meaningKept hoff hres
  cases hm with
  | run hg ha hr => exact meaningKept_of_granted h hres hg ha (headTaken_runHead ha hr)
  | accept _ hg ha => exact meaningKept_of_granted h hres hg ha (headTaken_acceptHead _)
  | chunk hk => exact meaningKept_chunk h hres hk
  | complete hc => exact meaningKept_complete hres hc
  | @busError a _ _ => exact meaningKept_of_no_legal h hres (no_legal_violate (.busError a) s)
  | load _ _ => exact huntouched (legalCallUntouched_loadByte _ _ s)
  | store _ _ => exact huntouched (legalCallUntouched_storeByte _ _ _ s)
  | storeVar _ _ => exact huntouched (legalCallUntouched_storeWord _ _ _ s)
  | respond _ _ | rstAssert _ => exact meaningKept_of_no_legal h hres (by simp)
  | stutter | ack | present _ | rstRelease => exact huntouched fun _ _ _ => callUntouched_of_eq rfl

/-- Settles O53: neither the meaning nor the buffer reads the schedule, each operation a step can be keeps both, and BlockInv after the step gives the
buffer's end. -/
theorem everyStepKeepsTheMeaningOfCAndRet : Obligations.EveryStepKeepsTheMeaningOfCAndRet := by
  unfold Obligations.EveryStepKeepsTheMeaningOfCAndRet
  intro s t h hres hstep
  have hu : BlockInv { s with sched := s.sched.tail } := h
  have hresu : ResultInv { s with sched := s.sched.tail } := hres
  have hmoved := step_moved hstep
  have ⟨_, hphase, _⟩ := hmoved.blockInv hu
  obtain ⟨hrest, hbegins, hkept⟩ := hmoved.meaningKept hu hresu
  exact ⟨hrest, hbegins, hkept, bufferEnds_of_phaseInv hphase⟩

end Sys2Proof.Machine
end

section
/-! PROOF. A call as one step and its RESPOND: what a legal call leaves for its requester (20_memory.md R63), and which bytes any call leaves alone
(20_memory.md R51, 60_exceptions.md R191). -/

namespace Sys2Proof.Machine

theorem read_runRev16Other {s : State} {data : BitVec 64} {dlen : Word32} {a : Nat} (hl : Legal s.cfg opRev16 data.toNat dlen)
    (h : OutsideBuffer data.toNat dlen.toNat a) : Memory.read (runRev16 data dlen s).mem a = Memory.read s.mem a := by
  have heven := hl.even
  rw [runRev16_mem]
  exact read_swapUnitsOther _ _ _ (by omega)

/-- A negative length comes before every other check, whatever the operation (60_exceptions.md R189). -/
theorem check_of_negative {cfg : Config} {op : BitVec 2} {data : Nat} {dlen : Word32} (h : dlen.toInt < 0) :
    check cfg op data dlen = some .negativeLength := by
  simp [check, h]

/-- Settles O46: a held call changes nothing, a rejected one at most its buffer and for a negative length nothing, a legal REV16 its buffer, and CRC32
nothing. -/
theorem execChangesOnlyItsBuffer : Obligations.ExecChangesOnlyItsBuffer := by
  unfold Obligations.ExecChangesOnlyItsBuffer
  intro s t i h
  cases ha : canAccept s with
  | false =>
    cases (exec_of_not_canAccept i ha).symm.trans h
    exact ⟨fun _ _ => rfl, fun _ => rfl⟩
  | true =>
    rcases exec_of_canAccept (i := i) ha with ⟨reason, hc, he⟩ | ⟨hl, ⟨data, dlen, rfl, he⟩ | ⟨data, dlen, rfl, he⟩⟩ <;>
      cases he.symm.trans h
    · refine ⟨fun a hout => read_rejectedMemOther reason s hout, fun hneg => ?_⟩
      cases hc.symm.trans (check_of_negative hneg)
      simp [rejectCall, rejectedMem, leavesBytes]
    · exact ⟨fun a hout => read_runRev16Other hl hout, fun hneg => absurd hl.1 (by simpa [dlenOf] using hneg)⟩
    · exact ⟨fun _ _ => rfl, fun _ => rfl⟩

/-- The move `call 0` runs the request that is first on the port. -/
theorem step_call_first {s : State} {r : Request} {rest : List Request} {es : List Event} {i : Instr} (hs : s.sched = .call 0 :: es)
    (ha : canAccept s = true) (hp : s.pending = r :: rest) (hf : fetch s = .instr i) : step s = exec i { s with sched := es } := by
  have hcall := step_call (n := 0) (r := r) es ha (by simp [hp])
  rw [← hs, hp, List.eraseIdx_cons_zero, ← hp] at hcall
  have hf' : fetch { s with sched := es } = .instr i := hf
  rw [hcall, runHead, hf']

/-- The state a call leaves that ran to DONE as one step, and then its response taken. -/
theorem runSteps_call_respond {s t : State} {r : Request} {rest : List Request} {es : List Event} {i : Instr}
    (hs : s.sched = .call 0 :: .respond :: es) (ha : canAccept s = true) (hp : s.pending = r :: rest) (hf : fetch s = .instr i)
    (he : exec i { s with sched := .respond :: es } = .next t) (ht : t.sched = .respond :: es) (hr : t.rst = false) (hd : t.phase = .done) :
    runSteps 2 s = .next (respond { t with sched := es }) := by
  rw [runSteps_succ 1 ((step_call_first hs ha hp hf).trans he), runSteps_succ 0 (step_respond ht hr hd), runSteps_zero]

theorem headCall_of_pending {s : State} {r : Request} {rest : List Request} (h : s.pending = r :: rest) (status : CallStatus) :
    headCall status s = some ⟨r, status⟩ := by
  simp [headCall, h]

/-- Settles O38: the call runs to DONE as one step with its reference result, and RESPOND delivers RET and leaves memory alone. -/
theorem aLegalCallIsAtomic : Obligations.ALegalCallIsAtomic := by
  unfold Obligations.ALegalCallIsAtomic
  intro s r rest i es hr hidle hs hp hw hf hl
  have ha : canAccept s = true := canAccept_iff.2 ⟨hr, hidle, by simp [hp]⟩
  have hrest : s.pending.tail = rest := by simp [hp]
  have hcall := headCall_of_pending hp .legal
  cases i with
  | rev16 data dlen =>
    have he := exec_rev16_of_legal (s := { s with sched := .respond :: es }) ha hl
    refine ⟨_, runSteps_call_respond hs ha hp hf he rfl hr rfl, rfl, rfl, hrest, rfl, ?_, by rintro _ _ ⟨⟩⟩
    rintro _ _ ⟨⟩
    refine ⟨?_, ?_, fun a hout => read_runRev16Other (s := { s with sched := .respond :: es }) hl hout⟩
    · exact (respond_obs_of_call hcall).trans (by rw [runRev16_ret]; rfl)
    · exact (congrArg (Memory.readBytes · _ _) (runRev16_mem data dlen _)).trans (readBytes_swapUnits_of_even hw data.toNat hl.even)
  | crc32 data dlen =>
    have he := exec_crc32_of_legal (s := { s with sched := .respond :: es }) ha hl
    refine ⟨_, runSteps_call_respond hs ha hp hf he rfl hr rfl, rfl, rfl, hrest, rfl, by rintro _ _ ⟨⟩, ?_⟩
    rintro _ _ ⟨⟩
    exact ⟨(respond_obs_of_call hcall).trans (by rw [runCrc32_ret]; rfl), rfl⟩

end Sys2Proof.Machine
end

section
/-! PROOF. Other agents' accesses outside a borrowed or unsettled buffer are plain loads and stores (20_memory.md R60, R61, R91). -/

namespace Sys2Proof.Machine

section
variable {s : State} {a : Nat}

theorem loadByte_of_plain (hf : forbidden s a false = false) (hu : unsettled s a = false) (agent : Nat) :
    loadByte agent a s = { s with obs := .loaded agent a (Memory.read s.mem a) :: s.obs } := by
  simp [loadByte, hf, hu]

theorem storeByte_of_plain (hf : forbidden s a true = false) (hu : unsettled s a = false) (agent : Nat) (b : Byte) :
    storeByte agent a b s = { s with mem := Memory.write s.mem a b } := by
  simp [storeByte, hf, hu]

/-- Four plain stores write the word's bytes, least significant first (30_encoding.md R91): a store before them changes no borrow. -/
theorem storeWord_of_plain (h : ∀ j, j < 4 → forbidden s (a + j) true = false ∧ unsettled s (a + j) = false) (agent : Nat) (w : Word32) :
    storeWord agent a w s = { s with mem := Memory.writeBytes s.mem a (le4 w) } := by
  have hstore : ∀ (m : Memory) (j : Nat) (b : Byte), j < 4 →
      storeByte agent (a + j) b { s with mem := m } = { s with mem := Memory.write m (a + j) b } := fun m j b hj =>
    storeByte_of_plain (s := { s with mem := m }) (h j hj).1 (h j hj).2 agent b
  have hfirst : storeByte agent a (w.extractLsb' 0 8) s = { s with mem := Memory.write s.mem a (w.extractLsb' 0 8) } :=
    hstore s.mem 0 _ (by omega)
  rw [storeWord, hfirst, hstore _ 1 _ (by omega), hstore _ 2 _ (by omega), hstore _ 3 _ (by omega)]
  rfl

end

/-- Settles O42: none of the three accesses meets a borrowed or unsettled byte, so each reads or writes memory and nothing else. -/
theorem otherAccessesArePlain : Obligations.OtherAccessesArePlain := by
  unfold Obligations.OtherAccessesArePlain
  intro s agent a es hw ha
  refine ⟨fun hs hf hu => ?_, fun v hs hf hu => ?_, fun v hs hplain hfits => ?_⟩
  · rw [step_load hs ha, loadByte_of_plain (s := { s with sched := es }) hf hu]
  · refine ⟨_, by rw [step_store hs ha, storeByte_of_plain (s := { s with sched := es }) hf hu], fun b => ?_⟩
    exact (Memory.read_write hw a v b).trans (if_congr eq_comm rfl rfl)
  · have hlen : (le4 (varValue s.obs agent v)).length = 4 := rfl
    refine ⟨_, by rw [step_storeVar hs hfits, storeWord_of_plain (s := { s with sched := es }) hplain],
      Memory.readBytes_writeBytes _ a hw, fun b hout => Memory.read_writeBytesOther _ s.mem ?_⟩
    rw [hlen]
    omega

end Sys2Proof.Machine
end

section
/-! PROOF. The encoding (30_encoding.md): the descriptor field by field, the address its words hold, and decoder and encoder as inverses. -/

namespace Sys2Proof.Machine

/-- The `CTRL` word of an operation (30_encoding.md R86). -/
def ctrlOf : Instr → Word32
  | .rev16 _ _ => ctrlRev16
  | .crc32 _ _ => ctrlCrc32

/-- The address that the words of a descriptor hold: `DATA[31:0]`, and above it `DATA[63:32]` when `ADDR_W = 64` (30_encoding.md R81). -/
def addressOf (aw : AddrWidth) (d : Descriptor) : BitVec 64 := (if aw = .w64 then d.dataHi else 0#32) ++ d.dataLo

/-- The four words of a request, whether or not the address width sends the last one (30_encoding.md R81). -/
def descriptorOfInstr (i : Instr) : Descriptor :=
  ⟨ctrlOf i, dlenOf i, (dataOf i).extractLsb' 0 32, (dataOf i).extractLsb' 32 32⟩

/-! ### The operation map -/

theorem opOf_eq_ctrlOf (i : Instr) : opOf i = (ctrlOf i).extractLsb' 0 2 := by
  cases i <;> rfl

theorem decodeCtrl_eq_instr {ctrl dlen : Word32} {data : BitVec 64} {i : Instr} :
    decodeCtrl ctrl dlen data = .instr i ↔ ctrlOf i = ctrl ∧ dlenOf i = dlen ∧ dataOf i = data := by
  have hne : ctrlCrc32 ≠ ctrlRev16 := by decide
  constructor
  · intro h
    unfold decodeCtrl at h
    split at h
    · next hc => cases h; exact ⟨hc.symm, rfl, rfl⟩
    · split at h
      · next hc => cases h; exact ⟨hc.symm, rfl, rfl⟩
      · cases h
  · rintro ⟨rfl, rfl, rfl⟩
    cases i with
    | rev16 data dlen => exact if_pos rfl
    | crc32 data dlen => exact (if_neg hne).trans (if_pos rfl)

theorem decodeCtrl_eq_reject {ctrl dlen : Word32} {data : BitVec 64} {e : DecodeError} :
    decodeCtrl ctrl dlen data = .reject e ↔ e = .illegalRequest ∧ ¬ (ctrl = ctrlRev16 ∨ ctrl = ctrlCrc32) := by
  unfold decodeCtrl
  split
  · next hc => simp [hc]
  · next hrev =>
    split
    · next hc => simp [hc]
    · next hcrc => simp [hrev, hcrc, eq_comm]

/-- The two `CTRL` words of the operation map are those with OP 0 or 1 and CTRL[31:2] zero (30_encoding.md R86, R87). -/
theorem ctrl_mem_map_iff (ctrl : Word32) :
    ctrl = ctrlRev16 ∨ ctrl = ctrlCrc32 ↔
      ¬ (ctrl.extractLsb' 0 2 = 2#2 ∨ ctrl.extractLsb' 0 2 = 3#2 ∨ ctrl.extractLsb' 2 30 ≠ 0#30) := by
  constructor
  · rintro (rfl | rfl) <;> decide
  · intro h
    obtain ⟨h2, h3, hreserved⟩ : ctrl.extractLsb' 0 2 ≠ 2#2 ∧ ctrl.extractLsb' 0 2 ≠ 3#2 ∧ ctrl.extractLsb' 2 30 = 0#30 := by
      simpa only [not_or, not_not] using h
    have hctrl : ctrl = 0#30 ++ ctrl.extractLsb' 0 2 := by
      rw [← hreserved, BitVec.extractLsb'_append_extractLsb'_eq_extractLsb' (by decide), BitVec.extractLsb'_eq_self]
    have hop : ∀ op : BitVec 2, op ≠ 2#2 → op ≠ 3#2 → 0#30 ++ op = ctrlRev16 ∨ 0#30 ++ op = ctrlCrc32 := by decide
    rw [hctrl]
    exact hop _ h2 h3

/-! ### The words of a descriptor -/

theorem encode_eq_wireWords (aw : AddrWidth) (i : Instr) : encode aw i = wireWords aw (descriptorOfInstr i) := by
  cases aw <;> cases i <;> rfl

theorem decode_wireWords (aw : AddrWidth) (d : Descriptor) :
    decode aw (wireWords aw d) = decodeCtrl d.ctrl d.dlen (addressOf aw d) := by
  cases aw with
  | w32 => exact congrArg (decodeCtrl d.ctrl d.dlen) (BitVec.setWidth_eq_append (by decide))
  | w64 => rfl

/-- A list of words that decodes has the number of words of a descriptor (30_encoding.md R81, R89). -/
theorem exists_wireWords_of_decode {aw : AddrWidth} {ws : List Word32} {i : Instr} (h : decode aw ws = .instr i) :
    ∃ d, wireWords aw d = ws := by
  unfold decode at h
  split at h
  · next ctrl dlen lo => exact ⟨⟨ctrl, dlen, lo, 0#32⟩, rfl⟩
  · next ctrl dlen lo hi => exact ⟨⟨ctrl, dlen, lo, hi⟩, rfl⟩
  · cases h

/-! ### The address in its words -/

theorem wellFormed_iff (aw : AddrWidth) (i : Instr) : wellFormed aw i = true ↔ (dataOf i).toNat < 2 ^ addrBits aw := by
  cases aw with
  | w32 => cases i <;> exact decide_eq_true_iff
  | w64 => cases i <;> exact iff_of_true rfl (BitVec.isLt _)

theorem addressOf_extract_lo (aw : AddrWidth) (d : Descriptor) : (addressOf aw d).extractLsb' 0 32 = d.dataLo :=
  BitVec.extractLsb'_append_eq_right

theorem addressOf_extract_hi (aw : AddrWidth) (d : Descriptor) :
    (addressOf aw d).extractLsb' 32 32 = if aw = .w64 then d.dataHi else 0#32 :=
  BitVec.extractLsb'_append_eq_left

theorem extract_hi_of_lt {data : BitVec 64} (h : data.toNat < 2 ^ 32) : data.extractLsb' 32 32 = 0#32 := by
  apply BitVec.eq_of_toNat_eq
  rw [BitVec.extractLsb'_toNat, Nat.shiftRight_eq_div_pow, Nat.div_eq_of_lt h]
  rfl

/-- An address of `ADDR_W` bits is what its words hold (30_encoding.md R81, R82). -/
theorem addressOf_descriptorOfInstr {aw : AddrWidth} {i : Instr} (h : wellFormed aw i = true) :
    addressOf aw (descriptorOfInstr i) = dataOf i := by
  have hhi : (if aw = .w64 then (dataOf i).extractLsb' 32 32 else 0#32) = (dataOf i).extractLsb' 32 32 := by
    cases aw with
    | w32 => exact (extract_hi_of_lt ((wellFormed_iff .w32 i).1 h)).symm
    | w64 => rfl
  calc addressOf aw (descriptorOfInstr i)
    _ = (dataOf i).extractLsb' 32 32 ++ (dataOf i).extractLsb' 0 32 := congrArg (· ++ _) hhi
    _ = (dataOf i).extractLsb' 0 64 := BitVec.extractLsb'_append_extractLsb'_eq_extractLsb' rfl
    _ = dataOf i := BitVec.extractLsb'_eq_self

/-- A descriptor whose fields are a request's has that request's words; the high address word is on the wire only when `ADDR_W = 64`. -/
theorem wireWords_descriptorOfInstr {aw : AddrWidth} {d : Descriptor} {i : Instr} (hctrl : ctrlOf i = d.ctrl) (hdlen : dlenOf i = d.dlen)
    (hdata : dataOf i = addressOf aw d) : wireWords aw (descriptorOfInstr i) = wireWords aw d := by
  have hlo : (dataOf i).extractLsb' 0 32 = d.dataLo := hdata ▸ addressOf_extract_lo aw d
  cases aw with
  | w32 => simp [wireWords, descriptorOfInstr, hctrl, hdlen, hlo]
  | w64 =>
    have hhi : (dataOf i).extractLsb' 32 32 = d.dataHi := hdata ▸ addressOf_extract_hi .w64 d
    simp [wireWords, descriptorOfInstr, hctrl, hdlen, hlo, hhi]

/-! ### Decoder and encoder are inverses -/

/-- Settles O2: the encoding has the operation's `CTRL` word, its length and the words of its address, and each field is read back. -/
theorem decodeEncodeRoundTrip : Obligations.DecodeEncodeRoundTrip := by
  unfold Obligations.DecodeEncodeRoundTrip
  intro aw i hwf
  rw [encode_eq_wireWords, decode_wireWords, decodeCtrl_eq_instr]
  exact ⟨rfl, rfl, (addressOf_descriptorOfInstr hwf).symm⟩

/-- Settles O3: the words that decode are a descriptor's, and every field of it is a field of the request. -/
theorem decodedWordsAreTheEncoding : Obligations.DecodedWordsAreTheEncoding := by
  unfold Obligations.DecodedWordsAreTheEncoding
  intro aw ws i h
  refine ⟨?_, (wellFormed_iff aw i).2 (data_lt_of_decode h)⟩
  obtain ⟨d, rfl⟩ := exists_wireWords_of_decode h
  rw [decode_wireWords, decodeCtrl_eq_instr] at h
  obtain ⟨hctrl, hdlen, hdata⟩ := h
  rw [encode_eq_wireWords, wireWords_descriptorOfInstr hctrl hdlen hdata]

/-- Settles O4: the decoder rejects exactly the `CTRL` words outside the operation map, and reads the fields of every other descriptor. -/
theorem illegalExactlyByCtrl : Obligations.IllegalExactlyByCtrl := by
  unfold Obligations.IllegalExactlyByCtrl
  intro aw d
  rw [decode_wireWords, ← ctrl_mem_map_iff]
  refine ⟨?_, fun hmap => ?_⟩
  · rw [decodeCtrl_eq_reject, ctrl_mem_map_iff, not_not]
    exact and_iff_right rfl
  · cases hd : decodeCtrl d.ctrl d.dlen (addressOf aw d) with
    | reject e => exact absurd hmap (decodeCtrl_eq_reject.1 hd).2
    | instr i =>
      obtain ⟨hctrl, hdlen, hdata⟩ := decodeCtrl_eq_instr.1 hd
      refine ⟨i, rfl, ?_, hdlen, ?_, ?_⟩
      · rw [opOf_eq_ctrlOf, hctrl]
      · rw [hdata, addressOf_extract_lo]
      · rw [hdata, addressOf_extract_hi]

/-- Settles O1: each list is evaluated by the decoder. -/
theorem writtenOutWordsDecode : Obligations.WrittenOutWordsDecode := by
  unfold Obligations.WrittenOutWordsDecode
  decide

end Sys2Proof.Machine
end

section
/-! SUPPORT. The block's own steps one by one (40_call.md R102 to R113), as the schedule names them or as the block takes them by itself, and what CHUNK
and a fault after ACCEPT leave of the running call. -/

namespace Sys2Proof.Machine

/-! ### Single moves of the block -/

section
variable {s : State} {es : List Event}

theorem step_accept_of_sched {n : Nat} {r : Request} (hs : s.sched = .accept n :: es) (ha : canAccept s = true) (hn : s.pending[n]? = some r) :
    step s = .next (acceptHead { s with sched := es, pending := r :: s.pending.eraseIdx n }) := by
  rw [← step_accept es ha hn, ← hs]

theorem step_call_of_sched {n : Nat} {r : Request} (hs : s.sched = .call n :: es) (ha : canAccept s = true) (hn : s.pending[n]? = some r) :
    step s = runHead { s with sched := es, pending := r :: s.pending.eraseIdx n } := by
  rw [← step_call es ha hn, ← hs]

theorem step_chunk {k : Nat} (hs : s.sched = .chunk k :: es) (hk : canChunk k s = true) : step s = .next (chunk k { s with sched := es }) := by
  have hk' : canChunk k { s with sched := es } = true := hk
  simp [step, nextMove, hs, eventMove, chunkStep, hk']

theorem step_writeAck (hs : s.sched = .writeAck :: es) : step s = .next (ackWrites { s with sched := es }) := by
  simp [step, nextMove, hs, eventMove, writeAckStep]

theorem step_complete (hs : s.sched = .complete :: es) : step s = .next (completeStep { s with sched := es }) := by
  simp [step, nextMove, hs, eventMove]

theorem step_busError {a : Nat} (hs : s.sched = .busError a :: es) (ha : canBusError a s = true) :
    step s = .next { violate (.busError a) { s with sched := es } with phase := .done, unacked := false } := by
  have ha' : canBusError a { s with sched := es } = true := ha
  simp [step, nextMove, hs, eventMove, busErrorStep, ha']

/-- With no move scheduled, a block that can accept runs the request that the arbiter's free value chooses. -/
theorem step_of_no_sched_of_canAccept (hs : s.sched = []) (ha : canAccept s = true) : step s = runHead (grantFree s) := by
  simp [step, nextMove, hs, blockMove, ha]

/-- With no move scheduled, a running call processes a beat, has its writes acknowledged, or completes. -/
theorem step_of_no_sched_of_busy (hs : s.sched = []) (hr : s.rst = false) (hb : s.phase = .busy) :
    step s = .next (if s.off.toNat < s.reqDlen.toNat then chunkStep (min (beatBytes s.cfg) (s.reqDlen.toNat - s.off.toNat)) s
      else if s.unacked then ackWrites s else completeStep s) := by
  have ha : canAccept s = false := by simp [canAccept, hb]
  simp only [step, nextMove, hs, blockMove, ha, hr, hb, Bool.false_eq_true, if_false]
  split_ifs <;> rfl

/-- With no move scheduled, a block in DONE has its response taken. -/
theorem step_of_no_sched_of_done (hs : s.sched = []) (hr : s.rst = false) (hp : s.phase = .done) : step s = .next (respond s) := by
  simp [step, nextMove, hs, blockMove, canAccept, respondStep, hr, hp]

end

/-! ### CHUNK -/

section
variable {s : State} {j k : Nat}

theorem chunk_of_rev16 (h : s.reqOp = opRev16) : chunk k s = rev16Chunk k s := if_pos h

theorem chunk_of_crc32 (h : s.reqOp = opCrc32) : chunk k s = crc32Chunk k s :=
  (if_neg (h ▸ opRev16_ne_opCrc32.symm)).trans (if_pos h)

/-- A chunk writes memory, OFF, C and the outstanding writes, and nothing else. -/
theorem chunk_frame (k : Nat) (s : State) :
    chunk k s = { s with mem := (chunk k s).mem, off := (chunk k s).off, c := (chunk k s).c, unacked := (chunk k s).unacked } := by
  rcases chunk_cases k s with ⟨-, h⟩ | ⟨-, h⟩ | ⟨-, -, h⟩ <;> rw [h] <;> rfl

@[simp] theorem chunk_rst : (chunk k s).rst = s.rst := by rw [chunk_frame]
@[simp] theorem chunk_phase : (chunk k s).phase = s.phase := by rw [chunk_frame]
@[simp] theorem chunk_reqOp : (chunk k s).reqOp = s.reqOp := by rw [chunk_frame]
@[simp] theorem chunk_reqDlen : (chunk k s).reqDlen = s.reqDlen := by rw [chunk_frame]
@[simp] theorem chunk_fault : (chunk k s).fault = s.fault := by rw [chunk_frame]
@[simp] theorem chunk_sched : (chunk k s).sched = s.sched := by rw [chunk_frame]

/-- A chunk reads no schedule. -/
theorem chunk_withSched (es : List Event) : ({ chunk k s with sched := es } : State) = chunk k { s with sched := es } := by
  unfold chunk
  split
  · rfl
  · split <;> rfl

theorem chunk_off (hop : s.reqOp = opRev16 ∨ s.reqOp = opCrc32) : (chunk k s).off = s.off + BitVec.ofNat 32 k := by
  rcases hop with h | h
  · rw [chunk_of_rev16 h, rev16Chunk_off]
  · rw [chunk_of_crc32 h, crc32Chunk_off]

end

/-! ### COMPLETE -/

section
variable {s : State} {k : Call}

theorem completeStep_of_canComplete (h : canComplete s = true) : completeStep s = complete s := if_pos h

theorem complete_of_legal (hk : s.call = some k) (hs : k.status = .legal) :
    complete s = { s with ret := if s.reqOp = opCrc32 then s.c ^^^ 0xFFFFFFFF#32 else 0x00000000#32, phase := .done } := by
  have hv : isViolated s = false := by simp [isViolated, hk, hs]
  simp [complete, completeRet_of_legal hk hs, hv]

theorem complete_of_violated (hk : s.call = some k) (hs : k.status = .violated) :
    complete s = { s with ret := Config.freeWord s.draws, draws := s.draws + 1, phase := .done } := by
  have hv : isViolated s = true := by simp [isViolated, hk, hs]
  simp [complete, completeRet, hv]

/-! ### A fault after ACCEPT -/

theorem violate_of_call (hk : s.call = some k) (reason : FaultReason) :
    violate reason s = { s with
      fault := s.fault ++ [⟨reason, wireWords s.cfg.addrWidth k.req.desc⟩]
      mem := violatedMem s
      ret := Config.freeWord s.draws
      draws := s.draws + 1
      call := some ⟨k.req, .violated⟩ } := by
  simp [violate, callWords, hk]

theorem violatedMem_of_crc32 (hop : s.reqOp = opCrc32) : violatedMem s = s.mem :=
  if_neg (hop ▸ opRev16_ne_opCrc32.symm)

/-- A fault after ACCEPT leaves each byte of a REV16 buffer with a free value (60_exceptions.md R191 (e)). -/
theorem read_violatedMem_of_inBuffer {a : Nat} (hop : s.reqOp = opRev16) (hw : Memory.wf s.mem = true) (ha : inBuffer s a = true)
    (hlt : a < addrLimit s.cfg) : Memory.read (violatedMem s) a = Config.freeByte s.draws a := by
  obtain ⟨hlo, hhi⟩ := inBuffer_iff.1 ha
  rw [violatedMem, if_pos hop, read_scramble hw hlo hhi hlt]

end

end Sys2Proof.Machine
end

section
/-! PROOF. A legal call run chunk by chunk ends as its single step does (40_call.md R108, R111): two chunks in a row are one chunk of their sum, so every
way to cut the length leaves what one chunk of the whole length leaves. -/

namespace Sys2Proof.Machine

/-- The block runs a call of one of the two operations, out of reset. -/
structure Running (s : State) : Prop where
  rst   : s.rst = false
  phase : s.phase = .busy
  op    : s.reqOp = opRev16 ∨ s.reqOp = opCrc32

/-! ### Two chunks in a row -/

section
variable {s : State} {j k : Nat} (hfit : s.off.toNat + j + k ≤ s.reqDlen.toNat)
include hfit

/-- The second chunk begins where the first one ended, and no address or offset wraps (40_call.md R115). -/
theorem cursor_after_chunk : s.reqData.toNat + (s.off + BitVec.ofNat 32 j).toNat = cursor s + j := by
  rw [off_add_toNat (by omega), cursor]
  omega

theorem rev16Chunk_rev16Chunk (heven : j % 2 = 0) : rev16Chunk k (rev16Chunk j s) = rev16Chunk (j + k) s := by
  have hcursor : cursor (rev16Chunk j s) = cursor s + j := cursor_after_chunk hfit
  have hunits : (j + k) / 2 = j / 2 + k / 2 := by omega
  have hunit : cursor s + j = cursor s + 2 * (j / 2) := by omega
  have hmem : swapUnits (cursor (rev16Chunk j s)) (k / 2) (rev16Chunk j s).mem = swapUnits (cursor s) ((j + k) / 2) s.mem := by
    rw [hcursor, hunits, swapUnits_add, hunit, rev16Chunk_mem]
  have hoff : (rev16Chunk j s).off + BitVec.ofNat 32 k = s.off + BitVec.ofNat 32 (j + k) := by
    rw [rev16Chunk_off, BitVec.ofNat_add, BitVec.add_assoc]
  rw [rev16Chunk, hmem, hoff]
  rfl

theorem crc32Chunk_crc32Chunk : crc32Chunk k (crc32Chunk j s) = crc32Chunk (j + k) s := by
  have hcursor : cursor (crc32Chunk j s) = cursor s + j := cursor_after_chunk hfit
  have hc : crcFold (crc32Chunk j s).mem (cursor (crc32Chunk j s)) k (crc32Chunk j s).c = crcFold s.mem (cursor s) (j + k) s.c := by
    rw [hcursor, crcFold_add, crc32Chunk_mem, crc32Chunk_c]
  have hoff : (crc32Chunk j s).off + BitVec.ofNat 32 k = s.off + BitVec.ofNat 32 (j + k) := by
    rw [crc32Chunk_off, BitVec.ofNat_add, BitVec.add_assoc]
  rw [crc32Chunk, hc, hoff]
  rfl

theorem chunk_chunk (hop : s.reqOp = opRev16 ∨ s.reqOp = opCrc32) (hok : chunkOk s.reqOp j = true) :
    chunk k (chunk j s) = chunk (j + k) s := by
  rcases hop with h | h
  · rw [chunk_of_rev16 h, chunk_of_rev16 h, chunk_of_rev16 (s := rev16Chunk j s) h]
    exact rev16Chunk_rev16Chunk hfit (even_of_chunkOk (h ▸ hok))
  · rw [chunk_of_crc32 h, chunk_of_crc32 h, chunk_of_crc32 (s := crc32Chunk j s) h]
    exact crc32Chunk_crc32Chunk hfit

end

/-- A chunk of no bytes issues no write that is still outstanding after the acknowledgement. -/
theorem ackWrites_chunk_zero (s : State) : ackWrites (chunk 0 s) = ackWrites s := by
  rcases chunk_cases 0 s with ⟨-, h⟩ | ⟨-, h⟩ | ⟨-, -, h⟩ <;> rw [h]
  · simp [ackWrites, rev16Chunk, swapUnits]
  · simp [ackWrites, crc32Chunk, crcFold]

/-! ### The run -/

theorem running_chunk {s : State} (h : Running s) (k : Nat) : Running (chunk k s) :=
  ⟨chunk_rst.trans h.rst, chunk_phase.trans h.phase, by simpa using h.op⟩

theorem Running.withSched {s : State} (h : Running s) (es : List Event) : Running { s with sched := es } := ⟨h.rst, h.phase, h.op⟩

/-- Allowed chunks, and then the acknowledgement, leave what one chunk of their sum leaves. -/
theorem runSteps_chunks (m : Nat) {es : List Event} : ∀ {ks : List Nat} {s : State}, Running s →
    (∀ k ∈ ks, 1 ≤ k ∧ chunkOk s.reqOp k = true) → s.off.toNat + ks.sum ≤ s.reqDlen.toNat →
    s.sched = ks.map Event.chunk ++ .writeAck :: es →
    runSteps (m + 1 + ks.length) s = runSteps m (ackWrites (chunk ks.sum { s with sched := es }))
  | [], s, _, _, _, hs => by
    rw [List.sum_nil, ackWrites_chunk_zero]
    exact runSteps_succ m (step_writeAck hs)
  | k :: ks, s, hrun, hok, hfit, hs => by
    rw [List.sum_cons] at hfit
    obtain ⟨⟨hpos, hk⟩, hoks⟩ := List.forall_mem_cons.1 hok
    have hcan : canChunk k s = true := canChunk_iff.2 ⟨hrun.rst, hrun.phase, hpos, by omega, hk⟩
    have hnext : step s = .next { chunk k s with sched := ks.map Event.chunk ++ .writeAck :: es }  :=
      (step_chunk hs hcan).trans (congrArg _ (chunk_withSched _).symm)
    have hrun' : Running { chunk k s with sched := ks.map Event.chunk ++ .writeAck :: es } := (running_chunk hrun k).withSched _
    have hoks' : ∀ k' ∈ ks, 1 ≤ k' ∧ chunkOk (chunk k s).reqOp k' = true := by simpa using hoks
    have hfit' : (chunk k s).off.toNat + ks.sum ≤ (chunk k s).reqDlen.toNat := by
      rw [chunk_off hrun.op, off_add_toNat (by omega), chunk_reqDlen]
      omega
    have hsum : chunk ks.sum { chunk k s with sched := es } = chunk (k + ks.sum) { s with sched := es } := by
      rw [← chunk_withSched, chunk_chunk (by omega) hrun.op hk, chunk_withSched]
    have hrest := runSteps_chunks m hrun' hoks' hfit' rfl
    rw [hsum] at hrest
    exact (runSteps_succ _ hnext).trans hrest

/-- exec of a legal call is ACCEPT, one chunk of the whole length, the acknowledgement and COMPLETE. -/
theorem exec_eq_complete_chunk {i : Instr} {s : State} (ha : canAccept s = true)
    (hl : Legal s.cfg (opOf i) (dataOf i).toNat (dlenOf i)) :
    exec i s = .next (complete (ackWrites (chunk (dlenOf i).toNat (accept (opOf i) (dataOf i) (dlenOf i) s)))) := by
  cases i with
  | rev16 data dlen => rw [exec_rev16_of_legal (data := data) (dlen := dlen) ha hl, chunk_of_rev16 rfl]; rfl
  | crc32 data dlen => rw [exec_crc32_of_legal (data := data) (dlen := dlen) ha hl, chunk_of_crc32 rfl]; rfl

/-- Once one chunk of all that was left is acknowledged, the move `complete` ends the call. -/
theorem step_complete_of_chunk {s : State} {n : Nat} {es : List Event} (hs : s.sched = .complete :: es) (hrun : Running s)
    (hn : s.off.toNat + n = s.reqDlen.toNat) :
    step (ackWrites (chunk n s)) = .next (complete (ackWrites (chunk n { s with sched := es }))) := by
  have hrun' := running_chunk hrun n
  have hoff : (chunk n s).off = (chunk n s).reqDlen := by
    apply BitVec.eq_of_toNat_eq
    rw [chunk_off hrun.op, off_add_toNat hn.le, chunk_reqDlen, hn]
  have hack : ({ ackWrites (chunk n s) with sched := es } : State) = ackWrites (chunk n { s with sched := es }) :=
    congrArg ackWrites (chunk_withSched es)
  have hcan : canComplete { ackWrites (chunk n s) with sched := es } = true := canComplete_iff.2 ⟨hrun'.rst, hrun'.phase, hoff, rfl⟩
  rw [step_complete (s := ackWrites (chunk n s)) (chunk_sched.trans hs), completeStep_of_canComplete hcan, hack]

/-- The move `accept 0` accepts the request that is first on the port, when it is legal. -/
theorem step_accept_first {s : State} {r : Request} {rest : List Request} {es : List Event} {i : Instr} (hs : s.sched = .accept 0 :: es)
    (ha : canAccept s = true) (hp : s.pending = r :: rest) (hf : fetch s = .instr i)
    (hl : Legal s.cfg (opOf i) (dataOf i).toNat (dlenOf i)) :
    step s = .next { accept (opOf i) (dataOf i) (dlenOf i) s with sched := es } := by
  have haccept := step_accept_of_sched hs ha (r := r) (by simp [hp])
  have hf' : fetch { s with sched := es } = .instr i := hf
  rw [hp, List.eraseIdx_cons_zero, ← hp, acceptHead_of_legal hf' hl] at haccept
  exact haccept

/-- Settles O37: ACCEPT leaves a running call, its chunks leave what one chunk of DLEN bytes leaves, and COMPLETE then ends it. -/
theorem stepByStepEqualsOneStep : Obligations.StepByStepEqualsOneStep := by
  unfold Obligations.StepByStepEqualsOneStep
  intro s r rest i ks es hr hidle hp hf hl hok hsum hs
  have ha : canAccept s = true := canAccept_iff.2 ⟨hr, hidle, by simp [hp]⟩
  have hs' : s.sched = .accept 0 :: (ks.map Event.chunk ++ .writeAck :: .complete :: es) := by simp [hs]
  have hrun : Running (accept (opOf i) (dataOf i) (dlenOf i) s) := ⟨hr, rfl, op_eq_or_eq i⟩
  have hdlen : (accept (opOf i) (dataOf i) (dlenOf i) s).off.toNat + ks.sum = (dlenOf i).toNat := by simp [hsum]
  have hchunks := runSteps_chunks 1 (hrun.withSched (ks.map Event.chunk ++ .writeAck :: .complete :: es)) hok hdlen.le rfl
  have hcomplete := step_complete_of_chunk rfl (hrun.withSched (.complete :: es)) hdlen
  rw [exec_eq_complete_chunk (s := { s with sched := es }) ha hl, runSteps_succ _ (step_accept_first hs' ha hp hf hl), Nat.add_comm,
    hchunks, runSteps_succ 0 hcomplete, hsum]
  rfl

end Sys2Proof.Machine
end

section
/-! PROOF. A running call that nothing interferes with reaches DONE (40_call.md R114, 70_reset_and_hazards.md R222): every step that processes a beat
leaves fewer bytes, and an acknowledgement and COMPLETE follow the last one. -/

namespace Sys2Proof.Machine

/-- The bytes of the buffer not processed yet. -/
def bytesLeft (s : State) : Nat := s.reqDlen.toNat - s.off.toNat

/-- The bytes the block processes next by itself: a beat, or what is left. -/
def nextBeat (s : State) : Nat := min (beatBytes s.cfg) (bytesLeft s)

/-- The block runs a call, out of reset, and its own moves are next. -/
structure RunningAlone (s : State) : Prop where
  inv   : BlockInv s
  rst   : s.rst = false
  phase : s.phase = .busy
  sched : s.sched = []

/-- At most `n` steps from `s` reach DONE, and raise no fault. -/
def ReachesDone (n : Nat) (s : State) : Prop :=
  ∃ m t, m ≤ n ∧ runSteps m s = .next t ∧ t.phase = .done ∧ t.fault = s.fault

theorem reachesDone_of_step {n : Nat} {s t : State} (h : step s = .next t) (hfault : t.fault = s.fault) (ht : ReachesDone n t) :
    ReachesDone (n + 1) s := by
  obtain ⟨m, u, hm, hrun, hdone, hu⟩ := ht
  exact ⟨m + 1, u, by omega, (runSteps_succ m h).trans hrun, hdone, hu.trans hfault⟩

theorem ReachesDone.mono {m n : Nat} {s : State} (h : ReachesDone m s) (hmn : m ≤ n) : ReachesDone n s := by
  obtain ⟨j, t, hj, ht⟩ := h
  exact ⟨j, t, hj.trans hmn, ht⟩

/-- With no move scheduled, a call that can complete does so in one step. -/
theorem reachesDone_of_canComplete {s : State} (hs : s.sched = []) (hc : canComplete s = true) : ReachesDone 1 s := by
  obtain ⟨hr, hb, hoff, hun⟩ := canComplete_iff.1 hc
  have hstep : step s = .next (complete s) := by
    rw [step_of_no_sched_of_busy hs hr hb, if_neg (by simp [hoff]), if_neg (by simp [hun]), completeStep_of_canComplete hc]
  exact ⟨1, complete s, le_rfl, runSteps_succ 0 hstep, rfl, rfl⟩

/-- A beat is an allowed chunk: `W` is even, and so is what is left of a REV16 buffer (40_call.md R107). -/
theorem chunkOk_nextBeat {s : State} (h : RequestInv s) : chunkOk s.reqOp (nextBeat s) = true := by
  obtain ⟨-, hl, -, -, hunit⟩ := h
  unfold chunkOk
  split
  · next hop =>
    have hdlen : s.reqDlen.toNat % 2 = 0 := by
      rw [hop] at hl
      exact hl.even
    have hbeat : beatBytes s.cfg % 2 = 0 := by
      rw [beatBytes, Nat.pow_succ]
      omega
    have hoff := hunit hop
    exact decide_eq_true (by unfold nextBeat bytesLeft; omega)
  · rfl

section
variable {s : State} (h : RunningAlone s)
include h

theorem RunningAlone.canChunk_nextBeat (hleft : 0 < bytesLeft s) : canChunk (nextBeat s) s = true := by
  obtain ⟨⟨-, -, hreq, -⟩, hrst, hb, -⟩ := h
  have hbeat : 0 < beatBytes s.cfg := Nat.two_pow_pos _
  have hpos : 1 ≤ nextBeat s := by unfold nextBeat; omega
  have hfit : s.off.toNat + nextBeat s ≤ s.reqDlen.toNat := by unfold nextBeat bytesLeft at *; omega
  exact canChunk_iff.2 ⟨hrst, hb, hpos, hfit, chunkOk_nextBeat hreq⟩

theorem RunningAlone.of_chunk {k : Nat} (hk : canChunk k s = true) : RunningAlone (chunk k s) :=
  ⟨blockInv_chunk h.inv hk, chunk_rst.trans h.rst, chunk_phase.trans h.phase, chunk_sched.trans h.sched⟩

/-- While bytes are left, a step processes a beat. -/
theorem RunningAlone.step_of_bytesLeft (hleft : 0 < bytesLeft s) : step s = .next (chunk (nextBeat s) s) := by
  have hlt : s.off.toNat < s.reqDlen.toNat := by unfold bytesLeft at hleft; omega
  rw [step_of_no_sched_of_busy h.sched h.rst h.phase, if_pos hlt]
  exact congrArg _ (if_pos (h.canChunk_nextBeat hleft))

theorem RunningAlone.bytesLeft_chunk_lt {k : Nat} (hk : canChunk k s = true) : bytesLeft (chunk k s) < bytesLeft s := by
  obtain ⟨⟨-, -, ⟨hop, -⟩, -⟩, -⟩ := h
  obtain ⟨-, -, hpos, hfit, -⟩ := canChunk_iff.1 hk
  rw [bytesLeft, chunk_off hop, off_add_of_canChunk hk, chunk_reqDlen, bytesLeft]
  omega

/-- After the last byte, an outstanding write is acknowledged in one step, and the call completes in the next. -/
theorem RunningAlone.reachesDone_of_processed (hleft : bytesLeft s = 0) : ReachesDone 2 s := by
  obtain ⟨⟨-, -, ⟨-, -, -, hoff, -⟩, -⟩, hrst, hb, hs⟩ := h
  have hall : s.off = s.reqDlen := BitVec.eq_of_toNat_eq (by unfold bytesLeft at hleft; omega)
  have hnotleft : ¬ s.off.toNat < s.reqDlen.toNat := by simp [hall]
  cases hun : s.unacked with
  | false => exact (reachesDone_of_canComplete hs (canComplete_iff.2 ⟨hrst, hb, hall, hun⟩)).mono (by omega)
  | true =>
    have hack : step s = .next (ackWrites s) := by rw [step_of_no_sched_of_busy hs hrst hb, if_neg hnotleft, if_pos hun]
    have hcan : canComplete (ackWrites s) = true := canComplete_iff.2 ⟨hrst, hb, hall, rfl⟩
    exact reachesDone_of_step hack rfl (reachesDone_of_canComplete hs hcan)

end

theorem RunningAlone.reachesDone : ∀ {n : Nat} {s : State}, RunningAlone s → bytesLeft s ≤ n → ReachesDone (n + 2) s
  | 0, _, h, hn => h.reachesDone_of_processed (by omega)
  | n + 1, s, h, hn => by
    rcases Nat.eq_zero_or_pos (bytesLeft s) with hz | hpos
    · exact (h.reachesDone_of_processed hz).mono (by omega)
    · have hk := h.canChunk_nextBeat hpos
      have hlt := h.bytesLeft_chunk_lt hk
      exact reachesDone_of_step (h.step_of_bytesLeft hpos) chunk_fault ((h.of_chunk hk).reachesDone (by omega))

/-- Settles O39: induction on the bytes left, of which each beat processes at least one; and RESPOND delivers RET of whatever call is in DONE. -/
theorem aRunningCallReachesDone : Obligations.ARunningCallReachesDone := by
  unfold Obligations.ARunningCallReachesDone
  refine ⟨fun s hinv hr hb hs => RunningAlone.reachesDone ⟨hinv, hr, hb, hs⟩ (Nat.sub_le _ _), fun s k hk hr hp hs => ?_⟩
  rw [step_of_no_sched_of_done hs hr hp, respond, responseObs, hk]
  rfl

end Sys2Proof.Machine
end

section
/-! PROOF. Requests taken from the port (40_call.md R101, R102, R105, R111, 60_exceptions.md R189, R199): which one a step takes, and what ACCEPT leaves of
it, alone or as the beginning of the one-step call. -/

namespace Sys2Proof.Machine

/-! ### The request that is run -/

theorem runHead_of_fetch {s : State} {i : Instr} (hf : fetch s = .instr i) : runHead s = exec i s := by
  rw [runHead, hf]

/-- With one pending request there is no choice. -/
theorem grantFree_of_single {s : State} {r : Request} (hp : s.pending = [r]) : grantFree s = s := by
  rw [grantFree, hp]

/-- Settles O6: in each case the step runs the head of the port after the arbiter's choice, and that is exec of what it decodes to. -/
theorem stepRunsTheDecodedRequest : Obligations.StepRunsTheDecodedRequest := by
  unfold Obligations.StepRunsTheDecodedRequest
  intro s i hr hidle
  have ha : s.pending ≠ [] → canAccept s = true := fun hp => canAccept_iff.2 ⟨hr, hidle, hp⟩
  refine ⟨fun r hs hp hf => ?_, fun n es hs hn hf => ?_, fun hs hp hf => ?_⟩
  · rw [step_of_no_sched_of_canAccept hs (ha (by simp [hp])), grantFree_of_single hp, runHead_of_fetch hf]
  · have hget := List.getElem?_eq_getElem hn
    rw [step_call_of_sched hs (ha (List.ne_nil_of_length_pos (by omega))) hget, ← runHead_of_fetch hf]
    exact congrArg runHead (grant_eq (u := { s with sched := es }) hget).symm
  · rw [step_of_no_sched_of_canAccept hs (ha hp), runHead_of_fetch hf]

/-! ### The request that leaves the port -/

theorem exists_exec (i : Instr) (s : State) : ∃ t, exec i s = .next t := by
  cases ha : canAccept s with
  | false => exact ⟨s, exec_of_not_canAccept i ha⟩
  | true =>
    rcases exec_of_canAccept (i := i) ha with ⟨reason, -, he⟩ | ⟨-, ⟨data, dlen, -, he⟩ | ⟨data, dlen, -, he⟩⟩ <;> exact ⟨_, he⟩

theorem exists_runHead (s : State) : ∃ t, runHead s = .next t := by
  unfold runHead
  split
  · next i _ => exact exists_exec i s
  · exact ⟨_, rfl⟩

/-- Whatever becomes of the request at the head of the port, it is the call in the block, and the others stay pending. -/
theorem HeadTaken.port {v t : State} (h : HeadTaken v t) :
    (∃ status, t.call = headCall status v) ∧ t.pending = v.pending.tail ∧ t.sched = v.sched := by
  cases h with
  | illegal | rejected _ _ => exact ⟨⟨.rejected, rfl⟩, rfl, rfl⟩
  | accepted _ _ | ranRev16 _ _ | ranCrc32 _ _ => exact ⟨⟨.legal, rfl⟩, rfl, rfl⟩

/-- Settles O13: the chosen request is at the head of the port, and running the head takes it and no other. -/
theorem arbiterMayChooseAnyRequest : Obligations.ArbiterMayChooseAnyRequest := by
  unfold Obligations.ArbiterMayChooseAnyRequest
  intro s n r es hs hr hidle hn
  have ha : canAccept s = true := canAccept_iff.2 ⟨hr, hidle, fun hp => by simp [hp] at hn⟩
  have hv : canAccept { s with sched := es, pending := r :: s.pending.eraseIdx n } = true := canAccept_iff.2 ⟨hr, hidle, by simp⟩
  obtain ⟨t, ht⟩ := exists_runHead { s with sched := es, pending := r :: s.pending.eraseIdx n }
  obtain ⟨⟨status, hcall⟩, hpend, hsched⟩ := (headTaken_runHead hv ht).port
  exact ⟨t, ⟨r, status⟩, (step_call_of_sched hs ha hn).trans ht, hcall, rfl, hpend, hsched, (endedAtOnce_runHead hv ht).1⟩

/-! ### ACCEPT -/

/-- Settles O31: the chosen request is at the head of the port, its check passes, and ACCEPT latches it. -/
theorem acceptLatchesTheRequest : Obligations.AcceptLatchesTheRequest := by
  unfold Obligations.AcceptLatchesTheRequest
  intro s n r i es hs hr hidle hn hd hl
  have ha : canAccept s = true := canAccept_iff.2 ⟨hr, hidle, fun hp => by simp [hp] at hn⟩
  have hf : fetch { s with sched := es, pending := r :: s.pending.eraseIdx n } = .instr i := hd
  rw [step_accept_of_sched hs ha hn, acceptHead_of_legal hf hl]
  rfl

theorem exists_reason_of_not_legal {cfg : Config} {op : BitVec 2} {data : Nat} {dlen : Word32} (h : ¬ Legal cfg op data dlen) :
    ∃ reason, check cfg op data dlen = some reason :=
  Option.ne_none_iff_exists'.1 (mt check_eq_none.1 h)

theorem acceptHead_of_check_eq_some {s : State} {i : Instr} {reason : FaultReason} (hf : fetch s = .instr i)
    (hc : check s.cfg (opOf i) (dataOf i).toNat (dlenOf i) = some reason) :
    acceptHead s = rejectCall (opOf i) (dataOf i) (dlenOf i) reason s := by
  simp [acceptHead, hf, hc]

/-- A request that does not decode is rejected alike by ACCEPT and by the one-step call (60_exceptions.md R182). -/
theorem acceptHead_of_undecodable {s : State} {e : DecodeError} (hf : fetch s = .reject e) :
    acceptHead s = rejectIllegal s ∧ runHead s = .next (rejectIllegal s) := by
  simp [acceptHead, runHead, hf]

/-- Settles O59: either move leaves what the check's reason makes of the request at the head of the port, or IllegalRequest where it does not decode. -/
theorem acceptRejectsAsTheOneStepCallDoes : Obligations.AcceptRejectsAsTheOneStepCallDoes := by
  unfold Obligations.AcceptRejectsAsTheOneStepCallDoes
  intro s n r es hr hidle hn
  have ha : canAccept s = true := canAccept_iff.2 ⟨hr, hidle, fun hp => by simp [hp] at hn⟩
  have hv : canAccept { s with sched := es, pending := r :: s.pending.eraseIdx n } = true := canAccept_iff.2 ⟨hr, hidle, by simp⟩
  have haccept := step_accept es ha hn
  have hcall := step_call es ha hn
  refine ⟨fun i hd hnl => ?_, fun e mv hd hmv => ?_⟩
  · have hf : fetch { s with sched := es, pending := r :: s.pending.eraseIdx n } = .instr i := hd
    obtain ⟨reason, hc⟩ := exists_reason_of_not_legal hnl
    have hexec := exec_of_check_eq_some hv hc
    rw [acceptHead_of_check_eq_some hf hc, ← hexec] at haccept
    rw [runHead_of_fetch hf] at hcall
    exact ⟨haccept.trans hcall.symm, haccept⟩
  · have hf : fetch { s with sched := es, pending := r :: s.pending.eraseIdx n } = .reject e := hd
    obtain ⟨hhead, hrun⟩ := acceptHead_of_undecodable hf
    rw [hhead] at haccept
    rw [hrun] at hcall
    rcases hmv with rfl | rfl
    · exact haccept
    · exact hcall

end Sys2Proof.Machine
end

section
/-! PROOF. The end of a call, by COMPLETE and RESPOND or by a bus error, and the arithmetic of the sequencer (40_call.md R109, R110, R113, R115). -/

namespace Sys2Proof.Machine

/-- Settles O34: COMPLETE is enabled exactly after the last byte and every acknowledgement, and RET follows the call's status and operation. -/
theorem completeSetsRet : Obligations.CompleteSetsRet := by
  unfold Obligations.CompleteSetsRet
  intro s es hs hr hb
  rw [step_complete hs]
  refine ⟨fun k hk hoff hun => ?_, fun hwait => ?_⟩
  · have hcan : canComplete { s with sched := es } = true := canComplete_iff.2 ⟨hr, hb, hoff, hun⟩
    rw [completeStep_of_canComplete hcan]
    refine ⟨fun hl hop => ?_, fun hl hop => ?_, fun hv => ?_⟩
    · rw [complete_of_legal (s := { s with sched := es }) hk hl, if_pos hop]
    · rw [complete_of_legal (s := { s with sched := es }) hk hl, if_neg (hop ▸ opRev16_ne_opCrc32)]
    · rw [complete_of_violated (s := { s with sched := es }) hk hv]
  · have hcan : ¬ canComplete { s with sched := es } = true := fun h => by
      obtain ⟨-, -, hoff, hun⟩ := canComplete_iff.1 h
      rcases hwait with hne | hu
      · exact hne hoff
      · simp [hu] at hun
    rw [completeStep, if_neg hcan]

theorem forbidden_of_no_call {s : State} (h : s.call = none) (a : Nat) (isWrite : Bool) : forbidden s a isWrite = false := by
  simp [forbidden, h]

/-- Settles O35: RESPOND delivers RET and takes the call out of the block, and without a call no byte is borrowed. -/
theorem respondDeliversRet : Obligations.RespondDeliversRet := by
  unfold Obligations.RespondDeliversRet
  intro s k es hk hr hp hs
  refine ⟨_, step_respond hs hr hp, ?_, forbidden_of_no_call rfl⟩
  rw [respond, responseObs, hk]
  rfl

/-- Settles O40: the length is not negative, the buffer ends at or below `2^ADDR_W`, and a chunk that is allowed ends inside it. -/
theorem sequencerArithmeticIsExact : Obligations.SequencerArithmeticIsExact := by
  unfold Obligations.SequencerArithmeticIsExact
  intro s h
  have hbuffer := buffer_le_addrLimit h
  obtain ⟨hop, ⟨hnonneg, -⟩, -, hoff, -⟩ := h
  have hlt : s.reqDlen.toInt < 2 ^ 31 := BitVec.toInt_lt
  refine ⟨hnonneg, by omega, hoff, fun j hj => by omega, fun k hk => ?_⟩
  have hadvance : (chunk k s).off.toNat = s.off.toNat + k := by rw [chunk_off hop, off_add_of_canChunk hk]
  obtain ⟨-, -, -, hfit, -⟩ := canChunk_iff.1 hk
  exact ⟨hadvance, hadvance ▸ hfit⟩

theorem canBusError_iff {a : Nat} {s : State} : canBusError a s = true ↔
    s.rst = false ∧ s.phase = .busy ∧ inBuffer s a = true ∧ (cursor s ≤ a ∨ s.unacked = true) := by
  simp [canBusError, and_assoc]

/-- Settles O44: the error is answered inside the buffer of the running call, and what a fault after ACCEPT leaves of memory is said once. -/
theorem busErrorEndsTheCall : Obligations.BusErrorEndsTheCall := by
  unfold Obligations.BusErrorEndsTheCall
  intro s k a es hs hk hr hb hlo hhi hopen
  have hcan : canBusError a s = true := canBusError_iff.2 ⟨hr, hb, inBuffer_iff.2 ⟨hlo, hhi⟩, hopen⟩
  refine ⟨violatedMem s, ?_, violatedMem_of_crc32, fun hop hw b hb hlt => read_violatedMem_of_inBuffer hop hw hb hlt,
    fun b hout => read_violatedMemOther hout⟩
  rw [step_busError hs hcan, violate_of_call (s := { s with sched := es }) hk]
  rfl

end Sys2Proof.Machine
end

section
/-! SUPPORT. REV16 on byte lists, unit by unit, on a buffer that is cut in two, and the state a legal REV16 call leaves (41_rev16.md R130, R131, R137). -/

namespace Sys2Proof.Machine

/-! ### The reference function -/

/-- Each byte of a unit comes from the other byte of the same unit; beyond the end of an even list there is neither. -/
theorem getElem?_rev16Ref : ∀ {x : List Byte} (k : Nat), x.length % 2 = 0 →
    (rev16Ref x)[2 * k]? = x[2 * k + 1]? ∧ (rev16Ref x)[2 * k + 1]? = x[2 * k]?
  | [], _, _ => by simp
  | [_], _, h => by simp at h
  | _ :: _ :: _, 0, _ => by simp
  | b0 :: b1 :: bs, k + 1, h => by
    have heven : bs.length % 2 = 0 := by
      rw [List.length_cons, List.length_cons] at h
      omega
    simpa [Nat.mul_add] using getElem?_rev16Ref k heven

theorem rev16Ref_perm : ∀ x : List Byte, (rev16Ref x).Perm x
  | [] => .nil
  | [_] => .refl _
  | b0 :: b1 :: bs => (List.Perm.swap b0 b1 _).trans (((rev16Ref_perm bs).cons b1).cons b0)

/-! ### The units of a memory -/

/-- Canonical memories that agree on a range, read as a list, and outside it are equal. -/
theorem Memory.ext_of_readBytes {m m' : Memory} {a n : Nat} (h : Memory.wf m = true) (h' : Memory.wf m' = true)
    (hin : Memory.readBytes m a n = Memory.readBytes m' a n)
    (hout : ∀ x, OutsideBuffer a n x → Memory.read m x = Memory.read m' x) : m = m' := by
  refine Memory.ext_of_wf h h' fun x => ?_
  by_cases hx : OutsideBuffer a n x
  · exact hout x hx
  · have hlo : a + (x - a) = x := by omega
    have hbyte := Memory.getElem_readBytes m a n (x - a) (by simp; omega)
    have hbyte' := Memory.getElem_readBytes m' a n (x - a) (by simp; omega)
    rw [hlo] at hbyte hbyte'
    rw [← hbyte, ← hbyte']
    simp only [hin]

/-- Swapping the units of a range twice restores the memory (41_rev16.md R136). -/
theorem swapUnits_swapUnits {m : Memory} (h : Memory.wf m = true) (a n : Nat) : swapUnits a n (swapUnits a n m) = m := by
  have hwf := wf_swapUnits a n h
  refine Memory.ext_of_readBytes (a := a) (n := 2 * n) (wf_swapUnits a n hwf) h ?_ fun x hx => ?_
  · rw [readBytes_swapUnits a n hwf, readBytes_swapUnits a n h, rev16Ref_rev16Ref]
  · rw [read_swapUnitsOther a n _ hx, read_swapUnitsOther a n _ hx]

/-! ### Legal buffers -/

/-- The contract of REV16 with its length read as the natural number it is. -/
theorem legal_rev16_iff {cfg : Config} {data : Nat} {dlen : Word32} : Legal cfg opRev16 data dlen ↔
    dlen.toNat < 2 ^ 31 ∧ dlen.toNat % 2 = 0 ∧ (0 < dlen.toNat → data + dlen.toNat ≤ addrLimit cfg) ∧
      ∀ k < dlen.toNat, memValid cfg .readWrite (data + k) = true := by
  constructor
  · intro h
    have heven := h.even
    have hfit := h.fits
    obtain ⟨hnonneg, -, -, hvalid⟩ := h
    have hlen := toInt_eq_toNat hnonneg
    have hlt : dlen.toInt < 2 ^ 31 := BitVec.toInt_lt
    exact ⟨by omega, heven, hfit, hvalid⟩
  · rintro ⟨hlt, heven, hfit, hvalid⟩
    have hlen : dlen.toInt = dlen.toNat := BitVec.toInt_eq_toNat_of_lt (by omega)
    exact ⟨by omega, fun _ => by omega, fun hpos => by have := hfit (by omega); omega, hvalid⟩

/-- A REV16 buffer of length zero is legal at every address (41_rev16.md R138). -/
theorem legal_rev16_zero (cfg : Config) (data : Nat) : Legal cfg opRev16 data 0#32 :=
  legal_rev16_iff.2 (by simp)

/-- An even part of a legal REV16 buffer is a legal REV16 buffer. -/
theorem legal_rev16_of_subrange {cfg : Config} {data data' : Nat} {dlen dlen' : Word32} (h : Legal cfg opRev16 data dlen)
    (heven : dlen'.toNat % 2 = 0) (hlo : data ≤ data') (hhi : data' + dlen'.toNat ≤ data + dlen.toNat) :
    Legal cfg opRev16 data' dlen' := by
  obtain ⟨hlt, -, hfit, hvalid⟩ := legal_rev16_iff.1 h
  refine legal_rev16_iff.2 ⟨by omega, heven, fun hpos => by have := hfit (by omega); omega, fun k hk => ?_⟩
  have hk' := hvalid (data' - data + k) (by omega)
  rwa [show data + (data' - data + k) = data' + k by omega] at hk'

theorem addrLimit_le (cfg : Config) : addrLimit cfg ≤ 2 ^ 64 := by
  unfold addrLimit
  cases cfg.addrWidth <;> decide

/-! ### The state a legal call leaves -/

/-- The state a REV16 call of the first request on the port leaves, field by field. -/
theorem runRev16_eq {s : State} {r : Request} {rest : List Request} (hp : s.pending = r :: rest) (data : BitVec 64) (dlen : Word32) :
    runRev16 data dlen s = { s with
      reqOp := opRev16
      reqData := data
      reqDlen := dlen
      off := dlen
      c := 0xFFFFFFFF#32
      ret := 0x00000000#32
      phase := .done
      unacked := false
      call := some ⟨r, .legal⟩
      pending := rest
      mem := swapUnits data.toNat (dlen.toNat / 2) s.mem } := by
  have hcall : (ackWrites (rev16Chunk dlen.toNat (accept opRev16 data dlen s))).call = some ⟨r, .legal⟩ := headCall_of_pending hp .legal
  rw [runRev16, complete_of_legal hcall rfl]
  simp [ackWrites, rev16Chunk, cursor, opRev16_ne_opCrc32, accept, headCall, hp]

/-- The memory a legal REV16 call answers with. -/
theorem mem_of_exec_rev16 {s t : State} {data : BitVec 64} {dlen : Word32} (ha : canAccept s = true)
    (hl : Legal s.cfg opRev16 data.toNat dlen) (h : exec (.rev16 data dlen) s = .next t) :
    t.mem = swapUnits data.toNat (dlen.toNat / 2) s.mem := by
  cases (exec_rev16_of_legal ha hl).symm.trans h
  exact runRev16_mem data dlen s

end Sys2Proof.Machine
end

section
/-! PROOF. The laws of REV16 (41_rev16.md R130 to R138): what Rev16Ref does to a list, what a call and a chunk do to the state, and that calls over one
buffer undo each other and over the parts of one buffer add up. -/

namespace Sys2Proof.Machine

/-- Settles O14: the bytes of each unit change places. -/
theorem rev16RefSwapsUnits : Obligations.Rev16RefSwapsUnits := by
  unfold Obligations.Rev16RefSwapsUnits
  exact fun x hx => ⟨length_rev16Ref x, fun k _ => getElem?_rev16Ref k hx⟩

/-- Settles O15: the call runs to DONE, and swapping the units of its buffer is Rev16Ref inside and nothing outside. -/
theorem rev16CompletesWithItsResult : Obligations.Rev16CompletesWithItsResult := by
  unfold Obligations.Rev16CompletesWithItsResult
  intro s r rest data dlen hr hidle hp hw hl
  have ha : canAccept s = true := canAccept_iff.2 ⟨hr, hidle, by simp [hp]⟩
  have heven := hl.even
  refine ⟨_, (exec_rev16_of_legal ha hl).trans (congrArg _ (runRev16_eq hp data dlen)), readBytes_swapUnits_of_even hw _ heven, fun a hout => ?_⟩
  exact read_swapUnitsOther _ _ _ (by omega)

/-- Settles O16: a call of length zero is legal and swaps no unit. -/
theorem rev16OfLengthZero : Obligations.Rev16OfLengthZero := by
  unfold Obligations.Rev16OfLengthZero
  intro s r rest data hr hidle hp
  have ha : canAccept s = true := canAccept_iff.2 ⟨hr, hidle, by simp [hp]⟩
  exact (exec_rev16_of_legal ha (legal_rev16_zero _ _)).trans (congrArg _ (runRev16_eq hp data 0#32))

/-- Settles O17: the second call is legal too, and it swaps the units of the first call's memory back. -/
theorem rev16IsAnInvolution : Obligations.Rev16IsAnInvolution := by
  unfold Obligations.Rev16IsAnInvolution
  refine ⟨fun x _ => rev16Ref_rev16Ref x, fun s t u v data dlen ha hw hl ht hau hcfg hmem hv => ?_⟩
  rw [mem_of_exec_rev16 hau (hcfg ▸ hl) hv, hmem, mem_of_exec_rev16 ha hl ht, swapUnits_swapUnits hw]

/-- The call over what is left of a legal buffer behind a cut swaps the units left. At a cut behind the last byte it has length zero, and its address,
which may wrap to 0, does not matter. -/
theorem mem_of_exec_rev16_rest {u t : State} {data : BitVec 64} {m dlen : Word32} (ha : canAccept u = true)
    (hl : Legal u.cfg opRev16 data.toNat dlen) (heven : m.toNat % 2 = 0) (hcut : m.toNat ≤ dlen.toNat)
    (h : exec (.rev16 (data + m.zeroExtend 64) (dlen - m)) u = .next t) :
    t.mem = swapUnits (data.toNat + m.toNat) ((dlen.toNat - m.toNat) / 2) u.mem := by
  have hdlen := hl.even
  have hlen : (dlen - m).toNat = dlen.toNat - m.toNat := BitVec.toNat_sub_of_le hcut
  rcases hcut.eq_or_lt with hend | hlt
  · have hzero : dlen - m = 0#32 := by rw [BitVec.eq_of_toNat_eq hend, BitVec.sub_self]
    rw [hzero] at h
    rw [mem_of_exec_rev16 ha (legal_rev16_zero _ _) h, hend, Nat.sub_self]
    rfl
  · have hfit := (hl.fits (by omega)).trans (addrLimit_le u.cfg)
    have hm := m.isLt
    have haddr : (data + m.zeroExtend 64).toNat = data.toNat + m.toNat := by
      rw [BitVec.toNat_add, BitVec.toNat_setWidth, Nat.mod_eq_of_lt (a := m.toNat) (by omega), Nat.mod_eq_of_lt (by omega)]
    have hl' : Legal u.cfg opRev16 (data + m.zeroExtend 64).toNat (dlen - m) := legal_rev16_of_subrange hl (by omega) (by omega) (by omega)
    rw [mem_of_exec_rev16 ha hl' h, haddr, hlen]

/-- Settles O18: the units of the buffer are the units before the cut and then those behind it. -/
theorem rev16IsLocal : Obligations.Rev16IsLocal := by
  unfold Obligations.Rev16IsLocal
  refine ⟨fun x y hx => rev16Ref_append y hx, rev16Ref_perm, fun s u t₁ t₂ t data m dlen ha _ hl heven hcut h₁ hau hcfg hmem h₂ h => ?_⟩
  have hl₁ : Legal s.cfg opRev16 data.toNat m := legal_rev16_of_subrange hl heven le_rfl (by omega)
  have hunits : dlen.toNat / 2 = m.toNat / 2 + (dlen.toNat - m.toNat) / 2 := by omega
  have hstart : data.toNat + m.toNat = data.toNat + 2 * (m.toNat / 2) := by omega
  rw [mem_of_exec_rev16 ha hl h, hunits, swapUnits_add, mem_of_exec_rev16_rest hau (hcfg ▸ hl) heven hcut h₂, hmem,
    mem_of_exec_rev16 ha hl₁ h₁, hstart]

/-- Settles O32: the chunk's bytes are whole units from the cursor on, and OFF advances without a wrap. -/
theorem rev16ChunkSwapsItsUnits : Obligations.Rev16ChunkSwapsItsUnits := by
  unfold Obligations.Rev16ChunkSwapsItsUnits
  intro s k es hs hop hk hw
  obtain ⟨-, -, -, -, hok⟩ := canChunk_iff.1 hk
  have heven := even_of_chunkOk (hop ▸ hok)
  refine ⟨swapUnits (cursor s) (k / 2) s.mem, ?_, off_add_of_canChunk hk, readBytes_swapUnits_of_even hw _ heven, fun a hout => ?_⟩
  · rw [step_chunk hs hk, chunk_of_rev16 (s := { s with sched := es }) hop]
    rfl
  · exact read_swapUnitsOther _ _ _ (by omega)

end Sys2Proof.Machine
end

section
/-! PROOF. The parallel swapper (41_rev16.md R134, 20_memory.md R55), bit by bit: a beat's bit `8i+b` is bit `b` of byte `i`, and SWAP16_W moves the low
byte of a lane up and the high one down. -/

namespace Sys2Proof.Machine

/-- `MLO` masks the low byte of every lane. -/
theorem testBit_mlo : ∀ lanes i : Nat, (mlo lanes).testBit i = decide (i < 16 * lanes ∧ i % 16 < 8)
  | 0, i => by simp [mlo]
  | lanes + 1, i => by
    have hsplit : mlo (lanes + 1) = 2 ^ 16 * mlo lanes + (2 ^ 8 - 1) := by
      rw [mlo]
      omega
    rw [hsplit, Nat.testBit_two_pow_mul_add _ (by decide), Nat.testBit_two_pow_sub_one, testBit_mlo lanes]
    split_ifs <;> rw [decide_eq_decide] <;> omega

/-- Each bit of SWAP16_W is the bit at the same place of the lane's other byte. -/
theorem getLsbD_swap16 {lanes i : Nat} (w : BitVec (16 * lanes)) (hi : i < 16 * lanes) :
    (swap16 lanes w).getLsbD i = if i % 16 < 8 then w.getLsbD (i + 8) else w.getLsbD (i - 8) := by
  simp only [swap16, BitVec.getLsbD_or, BitVec.getLsbD_shiftLeft, BitVec.getLsbD_and, BitVec.getLsbD_ushiftRight, BitVec.getLsbD_ofNat,
    testBit_mlo]
  by_cases hlow : i % 16 < 8
  · have hnone : i < 8 ∨ ¬ (i - 8 < 16 * lanes ∧ (i - 8) % 16 < 8) := by omega
    rw [if_pos hlow, Nat.add_comm 8 i]
    rcases hnone with hnone | hnone <;> simp [hi, hlow, hnone]
  · have hup : ¬ i < 8 ∧ i - 8 < 16 * lanes ∧ (i - 8) % 16 < 8 := by omega
    rw [if_neg hlow]
    simp [hi, hlow, hup]

theorem extractLsb'_swap16_low {lanes j : Nat} (w : BitVec (16 * lanes)) (hj : j < lanes) :
    (swap16 lanes w).extractLsb' (16 * j) 8 = w.extractLsb' (16 * j + 8) 8 := by
  refine BitVec.eq_of_getLsbD_eq fun b hb => ?_
  rw [BitVec.getLsbD_extractLsb', BitVec.getLsbD_extractLsb', getLsbD_swap16 w (by omega), if_pos (by omega), Nat.add_right_comm]

theorem extractLsb'_swap16_high {lanes j : Nat} (w : BitVec (16 * lanes)) (hj : j < lanes) :
    (swap16 lanes w).extractLsb' (16 * j + 8) 8 = w.extractLsb' (16 * j) 8 := by
  refine BitVec.eq_of_getLsbD_eq fun b hb => ?_
  rw [BitVec.getLsbD_extractLsb', BitVec.getLsbD_extractLsb', getLsbD_swap16 w (by omega), if_neg (by omega),
    show 16 * j + 8 + b - 8 = 16 * j + b by omega]

/-- Bit `8i+b` of `LE` of a byte list is bit `b` of byte `i`. -/
theorem testBit_leNat : ∀ (bs : List Byte) (i b : Nat), b < 8 → (leNat bs).testBit (8 * i + b) = (bs[i]?.getD 0#8).getLsbD b
  | [], i, b, _ => by simp [leNat]
  | x :: bs, i, b, hb => by
    have hsplit : leNat (x :: bs) = 2 ^ 8 * leNat bs + x.toNat := by
      rw [leNat]
      omega
    rw [hsplit, Nat.testBit_two_pow_mul_add _ x.isLt]
    cases i with
    | zero => simp [hb, BitVec.getLsbD]
    | succ i =>
      rw [if_neg (by omega), show 8 * (i + 1) + b - 8 = 8 * i + b by omega, testBit_leNat bs i b hb]
      simp

theorem getLsbD_beatWord {lanes i b : Nat} (bs : List Byte) (hi : i < 2 * lanes) (hb : b < 8) :
    (beatWord lanes bs).getLsbD (8 * i + b) = (bs[i]?.getD 0#8).getLsbD b := by
  rw [beatWord, BitVec.getLsbD_ofNat, testBit_leNat bs i b hb, decide_eq_true (by omega), Bool.true_and]

/-- SWAP16_W on the word of a beat's bytes: the bit of a byte is the bit of the other byte of its lane, which is where Rev16Ref takes it from. -/
theorem swap16_beatWord {lanes : Nat} {x : List Byte} (hx : x.length = 2 * lanes) :
    swap16 lanes (beatWord lanes x) = beatWord lanes (rev16Ref x) := by
  refine BitVec.eq_of_getLsbD_eq fun i hi => ?_
  have heven : x.length % 2 = 0 := by omega
  obtain ⟨k, b, hb, hbyte⟩ : ∃ k b, b < 8 ∧ (i = 8 * (2 * k) + b ∨ i = 8 * (2 * k + 1) + b) := ⟨i / 16, i % 8, by omega, by omega⟩
  obtain ⟨hfirst, hsecond⟩ := getElem?_rev16Ref k heven
  rcases hbyte with rfl | rfl <;> rw [getLsbD_swap16 _ hi, getLsbD_beatWord (rev16Ref x) (by omega) hb]
  · rw [if_pos (by omega), show 8 * (2 * k) + b + 8 = 8 * (2 * k + 1) + b by omega, getLsbD_beatWord x (by omega) hb, hfirst]
  · rw [if_neg (by omega), show 8 * (2 * k + 1) + b - 8 = 8 * (2 * k) + b by omega, getLsbD_beatWord x (by omega) hb, hsecond]

/-- Settles O19: each half of a lane is the other half, and on a beat's bytes that is what Rev16Ref does to a unit. -/
theorem swapperLanesExchangeBytes : Obligations.SwapperLanesExchangeBytes := by
  unfold Obligations.SwapperLanesExchangeBytes
  exact fun lanes => ⟨fun w j hj => ⟨extractLsb'_swap16_low w hj, extractLsb'_swap16_high w hj⟩, fun x hx => swap16_beatWord hx⟩

end Sys2Proof.Machine
end

section
/-! SUPPORT. The algebra of the checksum (42_crc32.md R152, R158, R159): Shift is linear over GF(2), loses no bit, and is a plain shift while the bits
that fall out are zero; what follows for ByteStep and Raw, and the number a byte list stands for. -/

namespace Sys2Proof.Machine

/-! ### Shift and its powers -/

theorem shift_of_even {c : Word32} (h : c.getLsbD 0 = false) : shift c = c >>> 1 := by
  rw [shift, h]
  exact BitVec.xor_zero

theorem shift_xor (a b : Word32) : shift (a ^^^ b) = shift a ^^^ shift b := by
  have hpoly : ∀ x y : Bool, (if x ^^ y then crcPoly else 0#32) = (if x then crcPoly else 0#32) ^^^ (if y then crcPoly else 0#32) := by
    decide
  rw [shift, shift, shift, BitVec.ushiftRight_xor_distrib, BitVec.getLsbD_xor, hpoly]
  ac_rfl

/-- Bit 31 of Shift is the bit that fell out: the polynomial has its bit 31 set, and the shifted word has not. -/
theorem getLsbD_shift_top (c : Word32) : (shift c).getLsbD 31 = c.getLsbD 0 := by
  unfold shift
  rw [BitVec.getLsbD_xor, BitVec.getLsbD_ushiftRight, BitVec.getLsbD_of_ge c _ (by omega), Bool.false_xor]
  cases c.getLsbD 0 <;> rfl

/-- Shift loses no bit. -/
theorem shift_eq_zero_iff {c : Word32} : shift c = 0#32 ↔ c = 0#32 := by
  refine ⟨fun h => ?_, fun h => by rw [h]; rfl⟩
  have hlow : c.getLsbD 0 = false := by rw [← getLsbD_shift_top, h]; rfl
  rw [shift_of_even hlow] at h
  refine BitVec.eq_of_getLsbD_eq fun i hi => ?_
  cases i with
  | zero => simpa using hlow
  | succ i => simpa [Nat.add_comm 1 i] using congrArg (·.getLsbD i) h

theorem shiftN_xor : ∀ (n : Nat) (a b : Word32), shiftN n (a ^^^ b) = shiftN n a ^^^ shiftN n b
  | 0, _, _ => rfl
  | n + 1, a, b => by rw [shiftN_succ, shiftN_xor n, shift_xor, ← shiftN_succ, ← shiftN_succ]

theorem shiftN_eq_zero_iff {c : Word32} : ∀ {n : Nat}, shiftN n c = 0#32 ↔ c = 0#32
  | 0 => Iff.rfl
  | n + 1 => by rw [shiftN_succ, shift_eq_zero_iff, shiftN_eq_zero_iff]

theorem shiftN_add : ∀ (m n : Nat) (c : Word32), shiftN (m + n) c = shiftN m (shiftN n c)
  | 0, n, c => by rw [Nat.zero_add, shiftN_zero]
  | m + 1, n, c => by rw [Nat.add_right_comm, shiftN_succ, shiftN_add m n, ← shiftN_succ]

/-- While only zeros fall out, Shift is a plain shift. -/
theorem shiftN_of_low_zero {c : Word32} : ∀ {n : Nat}, (∀ i < n, c.getLsbD i = false) → shiftN n c = c >>> n
  | 0, _ => by simp
  | n + 1, h => by
    have hlow : (c >>> n).getLsbD 0 = false := (BitVec.getLsbD_ushiftRight c n 0).trans (h n (by omega))
    rw [shiftN_succ, shiftN_of_low_zero fun i hi => h i (by omega), shift_of_even hlow, BitVec.shiftRight_add]

/-- A power of Shift on the low `k` bits of a word is the sum of its values on those bits. -/
theorem shiftN_low_bits (n : Nat) (c : Word32) : ∀ k, shiftN n ((c.setWidth k).setWidth 32) =
    (List.range k).foldl (fun acc i => if c.getLsbD i then acc ^^^ shiftN n (BitVec.twoPow 32 i) else acc) 0#32
  | 0 => by
    have hzero : (c.setWidth 0).setWidth 32 = 0#32 := BitVec.eq_of_toNat_eq (by simp [Nat.mod_one])
    rw [hzero]
    exact shiftN_eq_zero_iff.2 rfl
  | k + 1 => by
    rw [List.range_succ, List.foldl_append, ← shiftN_low_bits n c k, List.foldl_cons, List.foldl_nil]
    split
    · next hk =>
      rw [← shiftN_xor]
      congr 1
      refine BitVec.eq_of_getLsbD_eq fun i hi => ?_
      simp only [BitVec.getLsbD_xor, BitVec.getLsbD_setWidth, BitVec.getLsbD_twoPow, hi, decide_true, Bool.true_and]
      rcases Nat.lt_trichotomy i k with h | rfl | h
      · simp [h, h.ne', h.le]
      · simp [hk, hi]
      · simp [h.not_gt, h.ne, h.not_ge]
    · next hk =>
      rw [BitVec.setWidth_setWidth_succ_eq_setWidth_setWidth_of_getLsbD_false (by simpa using hk)]

/-! ### ByteStep by the table -/

/-- Eight shifts look up the low byte and shift the others down (42_crc32.md R158). -/
theorem shiftN_eight (x : Word32) : shiftN 8 x = crcTable (x.extractLsb' 0 8) ^^^ (x >>> 8) := by
  have hbit : ∀ i, ((x.extractLsb' 0 8).zeroExtend 32 ^^^ x).getLsbD i = (decide (8 ≤ i) && x.getLsbD i) := fun i => by
    by_cases hi : i < 8
    · simp [hi, show i < 32 by omega]
    · simp [hi]
      omega
  have hhigh : ((x.extractLsb' 0 8).zeroExtend 32 ^^^ x) >>> 8 = x >>> 8 := BitVec.eq_of_getLsbD_eq fun i _ => by
    rw [BitVec.getLsbD_ushiftRight, BitVec.getLsbD_ushiftRight, hbit, decide_eq_true (by omega), Bool.true_and]
  have hlow : ∀ i < 8, ((x.extractLsb' 0 8).zeroExtend 32 ^^^ x).getLsbD i = false := fun i hi => by
    rw [hbit, decide_eq_false (by omega), Bool.false_and]
  calc shiftN 8 x = shiftN 8 ((x.extractLsb' 0 8).zeroExtend 32 ^^^ ((x.extractLsb' 0 8).zeroExtend 32 ^^^ x)) := by
        rw [← BitVec.xor_assoc, BitVec.xor_self, BitVec.zero_xor]
    _ = crcTable (x.extractLsb' 0 8) ^^^ (x >>> 8) := by rw [shiftN_xor, shiftN_of_low_zero hlow, hhigh, crcTable]

theorem byteStep_eq_byteStepTable (c : Word32) (b : Byte) : byteStep c b = byteStepTable c b := by
  have hb : b.zeroExtend 32 >>> 8 = 0#32 := by ext i; simp 
  rw [byteStep, shiftN_eight, BitVec.ushiftRight_xor_distrib, hb, BitVec.xor_zero, byteStepTable]

/-! ### Raw -/

theorem byteStep_xor (c d : Word32) (b e : Byte) :
    byteStep (c ^^^ d) (b ^^^ e) = byteStep c b ^^^ shiftN 8 (d ^^^ e.zeroExtend 32) := by
  have hzext : (b ^^^ e).zeroExtend 32 = b.zeroExtend 32 ^^^ e.zeroExtend 32 := BitVec.setWidth_xor
  rw [byteStep, byteStep, ← shiftN_xor, hzext]
  congr 1
  ac_rfl

/-- A difference in the accumulator is shifted by the bytes that follow. -/
theorem raw_xor : ∀ (x : List Byte) (c d : Word32), raw (c ^^^ d) x = raw c x ^^^ shiftN (8 * x.length) d
  | [], _, _ => rfl
  | b :: x, c, d => by
    have hstep : byteStep (c ^^^ d) b = byteStep c b ^^^ shiftN 8 d := by simpa using byteStep_xor c d b 0#8
    rw [raw_cons, raw_cons, hstep, raw_xor x, ← shiftN_add, List.length_cons, Nat.mul_succ]

/-! ### The number of a byte list -/

theorem leNat_lt : ∀ bs : List Byte, leNat bs < 2 ^ (8 * bs.length)
  | [] => by simp [leNat]
  | b :: bs => by
    have hb := b.isLt
    have ih := leNat_lt bs
    rw [leNat, List.length_cons, Nat.mul_succ, Nat.pow_add]
    omega

theorem ofNat_leNat_le4 (r : Word32) : BitVec.ofNat 32 (leNat (le4 r)) = r := by
  have hr := r.isLt
  apply BitVec.eq_of_toNat_eq
  simp only [le4, leNat, BitVec.extractLsb'_toNat, Nat.shiftRight_eq_div_pow, BitVec.toNat_ofNat]
  omega

/-- Eight shifts of a word with a number of up to four bytes added in take out the first byte. -/
theorem shiftN_eight_xor_leNat (c : Word32) (b : Byte) {bs : List Byte} (h : bs.length ≤ 3) :
    shiftN 8 (c ^^^ BitVec.ofNat 32 (leNat (b :: bs))) = byteStep c b ^^^ BitVec.ofNat 32 (leNat bs) := by
  have hb := b.isLt
  have hbs : leNat bs < 2 ^ 24 := (leNat_lt bs).trans_le (Nat.pow_le_pow_right (by decide) (by omega))
  have hhigh : BitVec.ofNat 32 (leNat (b :: bs)) >>> 8 = BitVec.ofNat 32 (leNat bs) := by
    apply BitVec.eq_of_toNat_eq
    simp only [leNat, BitVec.toNat_ushiftRight, Nat.shiftRight_eq_div_pow, BitVec.toNat_ofNat]
    omega
  have hlow : (BitVec.ofNat 32 (leNat (b :: bs))).extractLsb' 0 8 = (b.zeroExtend 32).extractLsb' 0 8 := by
    apply BitVec.eq_of_toNat_eq
    simp only [leNat, BitVec.extractLsb'_toNat, Nat.shiftRight_zero, BitVec.toNat_ofNat, BitVec.truncate_eq_setWidth, BitVec.toNat_setWidth]
    omega
  rw [byteStep_eq_byteStepTable, byteStepTable, shiftN_eight, BitVec.ushiftRight_xor_distrib, hhigh, BitVec.extractLsb'_xor, hlow,
    ← BitVec.extractLsb'_xor, BitVec.xor_assoc]

end Sys2Proof.Machine
end

section
/-! PROOF. The laws of Raw on byte lists (42_crc32.md R153, R158 to R161, R163, R164): the table and the bit matrix, the word law and
the engine, one flipped bit, and the residue. -/

namespace Sys2Proof.Machine

/-- Settles O24: eight shifts look up the low byte and shift the others down, and the entries are computed. -/
theorem byteStepByTable : Obligations.ByteStepByTable := by
  unfold Obligations.ByteStepByTable
  exact ⟨byteStep_eq_byteStepTable, by decide, by decide, by decide, by decide, by decide⟩

/-- Settles O25: a word is the sum of its 32 bits, and every power of Shift is linear. -/
theorem shiftIsLinear : Obligations.ShiftIsLinear := by
  unfold Obligations.ShiftIsLinear
  refine ⟨shift_xor, shiftN_xor, fun n c => ?_⟩
  rw [← shiftN_low_bits, BitVec.setWidth_eq, BitVec.setWidth_eq]

/-! ### Grouping the bytes -/

/-- The word law: up to four bytes folded at once, by taking out one byte after the other. -/
theorem raw_eq_foldWord : ∀ (x : List Byte) (c : Word32), x.length ≤ 4 → raw c x = foldWord c x
  | [], c, _ => (BitVec.xor_zero (x := c)).symm
  | b :: x, c, h => by
    have hx : x.length ≤ 3 := Nat.le_of_succ_le_succ h
    calc raw c (b :: x) = shiftN (8 * x.length) (byteStep c b ^^^ BitVec.ofNat 32 (leNat x)) := raw_eq_foldWord x _ (by omega)
      _ = foldWord c (b :: x) := by
        rw [← shiftN_eight_xor_leNat c b hx, ← shiftN_add, foldWord, List.length_cons, Nat.mul_succ]

theorem raw_eq_crcBeat : ∀ (c : Word32) (x : List Byte), raw c x = crcBeat c x
  | c, b0 :: b1 :: b2 :: b3 :: x => by
    have hword : raw c [b0, b1, b2, b3] = foldWord c [b0, b1, b2, b3] := raw_eq_foldWord _ c (by simp)
    calc raw c (b0 :: b1 :: b2 :: b3 :: x) = raw (raw c [b0, b1, b2, b3]) x := rfl
      _ = crcBeat c (b0 :: b1 :: b2 :: b3 :: x) := by rw [hword, raw_eq_crcBeat, crcBeat]
  | c, [] => raw_eq_foldWord _ c (by simp)
  | c, [_] => raw_eq_foldWord _ c (by simp)
  | c, [_, _] => raw_eq_foldWord _ c (by simp)
  | c, [_, _, _] => raw_eq_foldWord _ c (by simp)

/-- Settles O27: the word law, its iteration on groups of four, and five bytes of which the one-step form loses the last. -/
theorem wordLaw : Obligations.WordLaw := by
  unfold Obligations.WordLaw
  refine ⟨fun c x _ hx => raw_eq_foldWord x c hx, raw_eq_crcBeat, fun c x y hx hy => ?_,
    0#32, [0#8, 0#8, 0#8, 0#8, 1#8], rfl, by decide⟩
  rw [raw_append, raw_eq_foldWord x c hx.le, raw_eq_foldWord y _ hy.le, foldWord, foldWord, hx, hy]

/-- Enough beats of any width fold the whole list. -/
theorem crcBeats_eq_raw {w : Nat} (hw : 0 < w) : ∀ (fuel : Nat) (c : Word32) (x : List Byte), x.length ≤ fuel → crcBeats w fuel c x = raw c x
  | 0, c, x, h => by
    rw [List.length_eq_zero_iff.1 (Nat.le_zero.1 h)]
    rfl
  | fuel + 1, c, x, h => by
    rw [crcBeats]
    split
    · next hx => rw [List.isEmpty_iff.1 hx, raw_nil]
    · have hrest : (x.drop w).length ≤ fuel := by
        rw [List.length_drop]
        omega
      rw [crcBeats_eq_raw hw fuel _ _ hrest, ← raw_eq_crcBeat, ← raw_append, List.take_append_drop]

/-- Settles O26: Raw goes through a list from left to right, and each beat of the engine is Raw of the bytes it takes. -/
theorem groupingDoesNotMatter : Obligations.GroupingDoesNotMatter := by
  unfold Obligations.GroupingDoesNotMatter
  exact ⟨raw_append, fun w c x hw => crcBeats_eq_raw hw x.length c x le_rfl⟩

/-! ### A flipped bit, and the residue -/

/-- A difference in one byte is shifted by that byte and the bytes behind it. -/
theorem raw_xor_raw_of_byte (c : Word32) (x : List Byte) (b e : Byte) (y : List Byte) :
    raw c (x ++ (b ^^^ e) :: y) ^^^ raw c (x ++ b :: y) = shiftN (8 * (y.length + 1)) (e.zeroExtend 32) := by
  have hstep : byteStep (raw c x) (b ^^^ e) = byteStep (raw c x) b ^^^ shiftN 8 (e.zeroExtend 32) := by
    simpa using byteStep_xor (raw c x) 0#32 b e
  rw [raw_append, raw_append, raw_cons, raw_cons, hstep, raw_xor, ← shiftN_add, ← Nat.mul_succ, BitVec.xor_comm, ← BitVec.xor_assoc,
    BitVec.xor_self, BitVec.zero_xor]

theorem zeroExtend_twoPow_ne_zero {p : Nat} (hp : p < 8) : (BitVec.twoPow 8 p : Byte).zeroExtend 32 ≠ 0#32 := fun h => by
  have hbit := congrArg (·.getLsbD p) h
  simp [hp, show p < 32 by omega] at hbit

/-- Settles O29: the difference the flipped bit leaves is not zero, since Shift loses no bit. -/
theorem oneFlippedBitChangesTheChecksum : Obligations.OneFlippedBitChangesTheChecksum := by
  unfold Obligations.OneFlippedBitChangesTheChecksum
  refine fun x y b p hp => ⟨fun h => ?_, fun c => raw_xor_raw_of_byte c x b _ y⟩
  have hraw := (BitVec.xor_left_inj _).1 h
  have hdiff := raw_xor_raw_of_byte 0xFFFFFFFF#32 x b (BitVec.twoPow 8 p) y
  rw [hraw, BitVec.xor_self] at hdiff
  exact zeroExtend_twoPow_ne_zero hp (shiftN_eq_zero_iff.1 hdiff.symm)

/-- Settles O30: the four bytes of the checksum turn the accumulator into all ones, which 32 shifts take to the residue. -/
theorem residueOfAMessageWithItsChecksum : Obligations.ResidueOfAMessageWithItsChecksum := by
  unfold Obligations.ResidueOfAMessageWithItsChecksum
  intro m
  have hraw : raw 0xFFFFFFFF#32 (m ++ le4 (crc32Ref m)) = 0xDEBB20E3#32 := by
    have hlen : (le4 (crc32Ref m)).length = 4 := rfl
    rw [raw_append, raw_eq_foldWord _ _ hlen.le, foldWord, hlen, ofNat_leNat_le4, crc32Ref, ← BitVec.xor_assoc, BitVec.xor_self,
      BitVec.zero_xor]
    decide
  exact ⟨hraw, by rw [crc32Ref, hraw]; rfl⟩

end Sys2Proof.Machine
end

section
/-! PROOF. CRC32 calls and chunks (42_crc32.md R150 to R157, R162): what they leave of the state, that RET is the checksum of the buffer's bytes alone, and
that memory is never written. -/

namespace Sys2Proof.Machine

/-! ### The state a legal call leaves -/

/-- The state a CRC32 call of the first request on the port leaves, field by field. -/
theorem runCrc32_eq {s : State} {r : Request} {rest : List Request} (hp : s.pending = r :: rest) (data : BitVec 64) (dlen : Word32) :
    runCrc32 data dlen s = { s with
      reqOp := opCrc32
      reqData := data
      reqDlen := dlen
      off := dlen
      c := raw 0xFFFFFFFF#32 (Memory.readBytes s.mem data.toNat dlen.toNat)
      ret := crc32Ref (Memory.readBytes s.mem data.toNat dlen.toNat)
      phase := .done
      unacked := false
      call := some ⟨r, .legal⟩
      pending := rest } := by
  have hcall : (crc32Chunk dlen.toNat (accept opCrc32 data dlen s)).call = some ⟨r, .legal⟩ := headCall_of_pending hp .legal
  rw [runCrc32, complete_of_legal hcall rfl]
  simp [crc32Chunk, cursor, accept, headCall, hp, crcFold_eq_raw, crc32Ref]

/-- Settles O20: the call is legal, so it runs to DONE. -/
theorem crc32CompletesWithItsResult : Obligations.Crc32CompletesWithItsResult := by
  unfold Obligations.Crc32CompletesWithItsResult
  intro s r rest data dlen hr hidle hp hl
  have ha : canAccept s = true := canAccept_iff.2 ⟨hr, hidle, by simp [hp]⟩
  exact (exec_crc32_of_legal ha hl).trans (congrArg _ (runCrc32_eq hp data dlen))

/-- A CRC32 buffer of length zero is legal at every address (42_crc32.md R156). -/
theorem legal_crc32_zero (cfg : Config) (data : Nat) : Legal cfg opCrc32 data 0#32 :=
  ⟨le_rfl, fun _ => rfl, fun h => absurd h (lt_irrefl _), fun _ h => absurd h (Nat.not_lt_zero _)⟩

/-- Settles O21: a call of length zero is legal, and folds no byte. -/
theorem crc32OfLengthZero : Obligations.Crc32OfLengthZero := by
  unfold Obligations.Crc32OfLengthZero
  intro s r rest data hr hidle hp
  have ha : canAccept s = true := canAccept_iff.2 ⟨hr, hidle, by simp [hp]⟩
  have hempty : crc32Ref [] = 0x00000000#32 := BitVec.xor_self
  rw [exec_crc32_of_legal ha (legal_crc32_zero _ _), runCrc32_eq hp, show (0#32 : Word32).toNat = 0 from rfl, Memory.readBytes, hempty, raw_nil]

/-! ### RET -/

/-- Bytes read at two places of two memories are one list where they agree one by one. -/
theorem Memory.readBytes_eq_readBytes {m m' : Memory} {a a' n : Nat} (h : ∀ k, k < n → Memory.read m (a + k) = Memory.read m' (a' + k)) :
    Memory.readBytes m a n = Memory.readBytes m' a' n :=
  List.ext_getElem (by simp) fun k hk _ => by
    rw [Memory.getElem_readBytes, Memory.getElem_readBytes]
    exact h k (by simpa using hk)

/-- Settles O28: RET is the checksum of the list of bytes read. -/
theorem crc32IsAFunctionOfTheBytes : Obligations.Crc32IsAFunctionOfTheBytes := by
  unfold Obligations.Crc32IsAFunctionOfTheBytes
  intro s s' data data' dlen ha ha' hl hl' hbytes
  refine ⟨_, _, exec_crc32_of_legal ha hl, exec_crc32_of_legal ha' hl', ?_⟩
  rw [runCrc32_ret, runCrc32_ret, Memory.readBytes_eq_readBytes hbytes]

theorem crc32Ref_check : crc32Ref [0x31#8, 0x32#8, 0x33#8, 0x34#8, 0x35#8, 0x36#8, 0x37#8, 0x38#8, 0x39#8] = 0xCBF43926#32 := by
  decide +kernel

/-- Settles O23: RET is the checksum of the nine bytes, which is computed. -/
theorem crcCheckValue : Obligations.CrcCheckValue := by
  unfold Obligations.CrcCheckValue
  refine ⟨fun s data ha hl hbytes => ⟨_, exec_crc32_of_legal ha hl, ?_⟩, by decide +kernel, rfl⟩
  rw [runCrc32_ret, show (9#32 : Word32).toNat = 9 from rfl, hbytes, crc32Ref_check]

/-! ### Chunks -/

/-- Settles O33: the chunk folds the bytes read from the cursor on, and OFF advances without a wrap. -/
theorem crc32ChunkFoldsItsBytes : Obligations.Crc32ChunkFoldsItsBytes := by
  unfold Obligations.Crc32ChunkFoldsItsBytes
  intro s k es hs hop hk
  refine ⟨?_, off_add_of_canChunk hk⟩
  rw [step_chunk hs hk, chunk_of_crc32 (s := { s with sched := es }) hop, crc32Chunk, crcFold_eq_raw]
  rfl

/-! ### Memory -/

/-- A rejected CRC32 call leaves memory alone, whatever the reason (60_exceptions.md R191 (d)). -/
theorem rejectedMem_crc32 (data : Nat) (dlen : Word32) (reason : FaultReason) (s : State) : rejectedMem opCrc32 data dlen reason s = s.mem := by
  simp [rejectedMem, opRev16_ne_opCrc32.symm]

theorem exec_crc32_mem {s t : State} {data : BitVec 64} {dlen : Word32} (h : exec (.crc32 data dlen) s = .next t) : t.mem = s.mem := by
  cases ha : canAccept s with
  | false =>
    cases (exec_of_not_canAccept _ ha).symm.trans h
    rfl
  | true =>
    rcases exec_of_canAccept (i := .crc32 data dlen) ha with ⟨reason, -, he⟩ | ⟨-, ⟨_, _, hi, -⟩ | ⟨data', dlen', -, he⟩⟩
    · cases he.symm.trans h
      exact rejectedMem_crc32 data.toNat dlen reason s
    · cases hi
    · cases he.symm.trans h
      exact runCrc32_mem _ _ _

/-- A reset leaves memory alone while a CRC32 request is latched (70_reset_and_hazards.md R212 (d)). -/
theorem resetMem_of_crc32 {s : State} (hop : s.reqOp = opCrc32) : resetMem s = s.mem := by
  cases hc : s.call <;> simp [resetMem, hc, hop, opRev16_ne_opCrc32.symm]

theorem loadByte_mem_of_crc32 {s : State} (hop : s.reqOp = opCrc32) (agent a : Nat) : (loadByte agent a s).mem = s.mem := by
  rcases loadByte_cases agent a s with ⟨-, h⟩ | ⟨-, -, h⟩ | ⟨-, -, h⟩ <;> rw [h]
  exact violatedMem_of_crc32 hop

/-- While a CRC32 request is latched and the block is not idle, only a store of another agent changes memory. -/
theorem Moved.mem_of_crc32 {e : Option Event} {u t : State} (hm : Moved e u t) (hp : u.phase ≠ .idle) (hop : u.reqOp = opCrc32)
    (hstore : ∀ agent a b, e ≠ some (.store agent a b)) (hstoreVar : ∀ agent a v, e ≠ some (.storeVar agent a v)) : t.mem = u.mem := by
  cases hm with
  | run hg ha _ => exact absurd (idle_of_granted hg ha).2 hp
  | accept _ hg ha => exact absurd (idle_of_granted hg ha).2 hp
  | chunk _ => rw [chunk_of_crc32 hop, crc32Chunk_mem]
  | busError _ _ => exact violatedMem_of_crc32 hop
  | load _ _ => exact loadByte_mem_of_crc32 hop _ _
  | store he _ => exact absurd he (hstore _ _ _)
  | storeVar he _ => exact absurd he (hstoreVar _ _ _)
  | rstAssert _ => exact resetMem_of_crc32 hop
  | stutter | ack | complete _ | respond _ _ | present _ | rstRelease => rfl

/-- Settles O22: exec of CRC32 leaves memory alone whether it holds, rejects or runs the call, and so does every move but a store. -/
theorem crc32WritesNoMemory : Obligations.Crc32WritesNoMemory := by
  unfold Obligations.Crc32WritesNoMemory
  exact ⟨fun s t data dlen h => exec_crc32_mem h, fun s t hp hop h hstore hstoreVar => (step_moved h).mem_of_crc32 hp hop hstore hstoreVar⟩

end Sys2Proof.Machine
end

section
/-! PROOF. Requests that ACCEPT refuses (60_exceptions.md R182 to R186, R189, R191): what each answer of the contract check means, what exec records of it,
and what the refused call leaves of memory. -/

namespace Sys2Proof.Machine

/-! ### The answers of the contract check -/

section
variable {cfg : Config} {op : BitVec 2} {data : Nat} {dlen : Word32}

theorem check_of_odd (hnonneg : 0 ≤ dlen.toInt) (hodd : dlen.toInt % 2 = 1) : check cfg opRev16 data dlen = some .oddLength := by
  simp [check, not_lt.2 hnonneg, hodd]

/-- Past the checks of the length alone, the range is checked before the bytes in it (60_exceptions.md R189). -/
theorem check_of_even (hpos : 0 < dlen.toInt) (heven : op = opRev16 → dlen.toInt % 2 = 0) :
    check cfg op data dlen = if data + dlen.toInt > addrLimit cfg then some .rangeWrap
      else (firstInvalid cfg (kindOf op) data dlen.toNat).map .invalidBuffer := by
  have hodd : ¬ (op = opRev16 ∧ dlen.toInt % 2 = 1) := fun ⟨hop, h⟩ => by have := heven hop; omega
  rw [check, if_neg (not_lt.2 hpos.le), if_neg hodd]
  cases firstInvalid cfg (kindOf op) data dlen.toNat <;> simp [hpos]

theorem check_of_wrap (hpos : 0 < dlen.toInt) (heven : op = opRev16 → dlen.toInt % 2 = 0) (hwrap : data + dlen.toInt > addrLimit cfg) :
    check cfg op data dlen = some .rangeWrap := by
  rw [check_of_even hpos heven, if_pos hwrap]

theorem check_of_invalid {a : Nat} (hpos : 0 < dlen.toInt) (heven : op = opRev16 → dlen.toInt % 2 = 0)
    (hfits : data + dlen.toInt ≤ addrLimit cfg) (hlo : data ≤ a) (hhi : a < data + dlen.toNat) (hbad : memValid cfg (kindOf op) a = false)
    (hlowest : ∀ b, data ≤ b → b < a → memValid cfg (kindOf op) b = true) : check cfg op data dlen = some (.invalidBuffer a) := by
  rw [check_of_even hpos heven, if_neg (not_lt.2 hfits), (firstInvalid_eq_some cfg (kindOf op)).2 ⟨hlo, hhi, hbad, hlowest⟩]
  rfl

/-- OddLength is an answer to REV16 alone, and RangeWrap one to a range that runs past `2^ADDR_W`. -/
theorem cause_of_check_eq_some {reason : FaultReason} (h : check cfg op data dlen = some reason) :
    (reason = .oddLength → op = opRev16) ∧ (reason = .rangeWrap → 0 < dlen.toInt ∧ data + dlen.toInt > addrLimit cfg) := by
  unfold check at h
  split at h
  · cases h; exact ⟨nofun, nofun⟩
  · split at h
    · next hodd => cases h; exact ⟨fun _ => hodd.1, nofun⟩
    · split at h
      · next hwrap => cases h; exact ⟨nofun, fun _ => hwrap⟩
      · split at h
        · cases h; exact ⟨nofun, nofun⟩
        · cases h

end

/-! ### The memory of a refused call -/

section
variable {s : State} {data : Nat} {dlen : Word32} {reason : FaultReason}

theorem rejectedMem_of_no_access (h : leavesBytes reason = false) (op : BitVec 2) : rejectedMem op data dlen reason s = s.mem := by
  simp [rejectedMem, h]

theorem rejectedMem_of_crc32 : rejectedMem opCrc32 data dlen reason s = s.mem := by
  simp [rejectedMem, opRev16_ne_opCrc32.symm]

/-- A refused REV16 call that may write its buffer leaves each byte of it with a free value (60_exceptions.md R191 (e)). -/
theorem read_rejectedMem_of_not_outside {a : Nat} (h : leavesBytes reason = true) (hw : Memory.wf s.mem = true)
    (ha : ¬ OutsideBuffer data dlen.toNat a) (hlt : a < addrLimit s.cfg) :
    Memory.read (rejectedMem opRev16 data dlen reason s) a = Config.freeByte s.draws a := by
  have hmem : rejectedMem opRev16 data dlen reason s = scramble (addrLimit s.cfg) s.draws data dlen.toNat s.mem := by
    simp [rejectedMem, h]
  rw [hmem, read_scramble hw (by omega) (by omega) hlt]

end

/-! ### What exec and the step answer -/

section
variable {s t : State} {r : Request} {rest : List Request} {i : Instr} {reason : FaultReason}

theorem headWords_of_pending (hp : s.pending = r :: rest) : headWords s = wireWords s.cfg.addrWidth r.desc := by
  rw [headWords, hp]

theorem reject_of_pending (hp : s.pending = r :: rest) (m : Memory) :
    reject reason m s = { s with
      fault := s.fault ++ [⟨reason, wireWords s.cfg.addrWidth r.desc⟩]
      mem := m
      ret := Config.freeWord s.draws
      draws := s.draws + 1
      phase := .done
      call := some ⟨r, .rejected⟩
      pending := rest } := by
  simp [reject, headWords_of_pending hp, headCall_of_pending hp, hp]

/-- Whatever the reason, the call is in DONE with a free RET and its descriptor recorded (60_exceptions.md R191 (a), (b)). -/
theorem exec_of_refused (hr : s.rst = false) (hidle : s.phase = .idle) (hp : s.pending = r :: rest)
    (hc : check s.cfg (opOf i) (dataOf i).toNat (dlenOf i) = some reason) :
    exec i s = .next { s with
      fault := s.fault ++ [⟨reason, wireWords s.cfg.addrWidth r.desc⟩]
      mem := rejectedMem (opOf i) (dataOf i).toNat (dlenOf i) reason s
      ret := Config.freeWord s.draws
      draws := s.draws + 1
      phase := .done
      call := some ⟨r, .rejected⟩
      pending := rest } := by
  have ha : canAccept s = true := canAccept_iff.2 ⟨hr, hidle, by simp [hp]⟩
  rw [exec_of_check_eq_some ha hc, rejectCall, reject_of_pending hp]

theorem fault_exec_of_check (ha : canAccept s = true) (hc : check s.cfg (opOf i) (dataOf i).toNat (dlenOf i) = some reason)
    (ht : exec i s = .next t) : t.fault = s.fault ++ [⟨reason, headWords s⟩] := by
  cases (exec_of_check_eq_some ha hc).symm.trans ht
  rfl

theorem fault_exec_of_legal (hl : Legal s.cfg (opOf i) (dataOf i).toNat (dlenOf i)) (ht : exec i s = .next t) : t.fault = s.fault := by
  cases ha : canAccept s with
  | false => cases (exec_of_not_canAccept i ha).symm.trans ht; rfl
  | true =>
    cases i with
    | rev16 data dlen => cases (exec_rev16_of_legal ha hl).symm.trans ht; rfl
    | crc32 data dlen => cases (exec_crc32_of_legal ha hl).symm.trans ht; rfl

/-- exec records nothing, or the one reason that the contract check gives. -/
theorem fault_exec (ht : exec i s = .next t) :
    t.fault = s.fault ∨
      ∃ e, t.fault = s.fault ++ [e] ∧ check s.cfg (opOf i) (dataOf i).toNat (dlenOf i) = some e.reason := by
  cases ha : canAccept s with
  | false => cases (exec_of_not_canAccept i ha).symm.trans ht; exact .inl rfl
  | true =>
    cases hc : check s.cfg (opOf i) (dataOf i).toNat (dlenOf i) with
    | none => exact .inl (fault_exec_of_legal (check_eq_none.1 hc) ht)
    | some reason => exact .inr ⟨_, fault_exec_of_check ha hc ht, rfl⟩

end

/-! ### The statements -/

/-- Settles O8: the odd length passes the first check and fails the second, which CRC32 does not have. -/
theorem oddLengthFaultsRev16Only : Obligations.OddLengthFaultsRev16Only := by
  unfold Obligations.OddLengthFaultsRev16Only
  refine ⟨fun s r rest data dlen hr hidle hp hw hnonneg hodd => ?_, fun s t data dlen ht => ?_⟩
  · exact ⟨_, exec_of_refused (i := .rev16 data dlen) hr hidle hp (check_of_odd hnonneg hodd),
      fun a hout => read_rejectedMemOther .oddLength s hout, fun a hin hlt => read_rejectedMem_of_not_outside rfl hw hin hlt⟩
  · refine (fault_exec ht).imp_right fun ⟨e, he, hc⟩ => ⟨e, he, fun hreason => ?_⟩
    exact opRev16_ne_opCrc32 ((cause_of_check_eq_some hc).1 hreason).symm

/-- Settles O9: the range is checked once the length passes, and RangeWrap is never the answer to a range that fits. -/
theorem rangeWrapFaults : Obligations.RangeWrapFaults := by
  unfold Obligations.RangeWrapFaults
  refine ⟨fun s r rest data dlen hr hidle hp hpos hwrap i hi => ?_, fun s t i hfits ht => ?_⟩
  · have hc : check s.cfg (opOf i) (dataOf i).toNat (dlenOf i) = some .rangeWrap := by
      rcases hi with ⟨rfl, heven⟩ | rfl
      · exact check_of_wrap hpos (fun _ => heven) hwrap
      · exact check_of_wrap hpos (fun hop => absurd hop opRev16_ne_opCrc32.symm) hwrap
    rw [exec_of_refused hr hidle hp hc, rejectedMem_of_no_access rfl]
  · refine (fault_exec ht).imp_right fun ⟨e, he, hc⟩ => ⟨e, he, fun hreason => ?_⟩
    obtain ⟨hpos, hwrap⟩ := (cause_of_check_eq_some hc).2 hreason
    omega

/-- Settles O10: the last check answers with the lowest failing address, and the buffer it lies in ends inside the address space. -/
theorem invalidBufferFaults : Obligations.InvalidBufferFaults := by
  unfold Obligations.InvalidBufferFaults
  intro s r rest i a hr hidle hp hpos heven hfits hlo hhi hbad hlowest
  have hlen := toInt_eq_toNat hpos.le
  refine ⟨_, exec_of_refused hr hidle hp (check_of_invalid hpos heven hfits hlo hhi hbad hlowest), fun hop => ?_, fun hop hw b hin => ?_,
    fun b hout => read_rejectedMemOther (.invalidBuffer a) s hout⟩
  · rw [hop, rejectedMem_of_crc32]
  · rw [hop, read_rejectedMem_of_not_outside rfl hw hin (by omega)]

/-- Settles O11: in each case `check` answers with that reason, and exec records the answer. -/
theorem theFirstFailingCheckIsRecorded : Obligations.TheFirstFailingCheckIsRecorded := by
  unfold Obligations.TheFirstFailingCheckIsRecorded
  intro s i ha
  obtain ⟨t, ht⟩ := exists_exec i s
  refine ⟨t, ht, fun hneg => ?_, fun hnonneg hop hodd => ?_, fun hpos heven => ⟨fun hwrap => ?_, fun a hfits hlo hhi hbad hlowest => ?_⟩,
    fun hl => fault_exec_of_legal hl ht⟩
  · exact fault_exec_of_check ha (check_of_negative hneg) ht
  · exact fault_exec_of_check ha (hop ▸ check_of_odd hnonneg hodd) ht
  · exact fault_exec_of_check ha (check_of_wrap hpos heven hwrap) ht
  · exact fault_exec_of_check ha (check_of_invalid hpos heven hfits hlo hhi hbad hlowest) ht

/-- Settles O5: the decoder rejects the one pending request, which the block takes up as IllegalRequest. -/
theorem illegalRequestIsRecorded : Obligations.IllegalRequestIsRecorded := by
  unfold Obligations.IllegalRequestIsRecorded
  intro s r hs hr hidle hp hctrl
  have ha : canAccept s = true := canAccept_iff.2 ⟨hr, hidle, by simp [hp]⟩
  have hf : fetch s = .reject .illegalRequest := by
    rw [fetch, headWords_of_pending hp]
    exact (illegalExactlyByCtrl s.cfg.addrWidth r.desc).1.2 hctrl
  rw [step_of_no_sched_of_canAccept hs ha, grantFree_of_single hp, (acceptHead_of_undecodable hf).2, rejectIllegal, reject_of_pending hp]

/-- Settles O7: a negative length fails the first check, after which nothing is accessed. -/
theorem negativeLengthFaults : Obligations.NegativeLengthFaults := by
  unfold Obligations.NegativeLengthFaults
  intro s r rest data dlen hr hidle hp hneg i hi
  have hdlen : dlenOf i = dlen := by rcases hi with rfl | rfl <;> rfl
  rw [exec_of_refused hr hidle hp (check_of_negative (hdlen ▸ hneg)), rejectedMem_of_no_access rfl]

end Sys2Proof.Machine
end

section
/-! PROOF. Accesses of other agents to a borrowed or unsettled buffer (60_exceptions.md R187, R189, R191, 20_memory.md R60): what one load or store of a byte
there does, and how the four stores of an st32le add up. -/

namespace Sys2Proof.Machine

/-! ### One access -/

section
variable {s : State} {k : Call} {a : Nat}

theorem outsideBuffer_of_inBuffer_eq_false (h : inBuffer s a = false) : OutsideBuffer s.reqData.toNat s.reqDlen.toNat a := by
  have hnot := mt inBuffer_iff.2 (Bool.eq_false_iff.1 h)
  omega

theorem inBuffer_eq_false_of_outsideBuffer (h : OutsideBuffer s.reqData.toNat s.reqDlen.toNat a) : inBuffer s a = false :=
  Bool.eq_false_iff.2 fun hin => by have := inBuffer_iff.1 hin; omega

theorem unsettled_of_not_rejected (hk : s.call = some k) (hs : k.status ≠ .rejected) (a : Nat) : unsettled s a = false := by
  simp [unsettled, hk, hs]

theorem forbidden_of_rejected (hk : s.call = some k) (hs : k.status = .rejected) (a : Nat) (isWrite : Bool) :
    forbidden s a isWrite = false := by
  simp [forbidden, hk, hs]

theorem loadByte_of_borrowed (hk : s.call = some k) (hs : k.status ≠ .rejected) (hin : inBuffer s a = true) (hop : s.reqOp = opRev16)
    (agent : Nat) : loadByte agent a s = { s with
      fault := s.fault ++ [⟨.concurrentAccess a agent, wireWords s.cfg.addrWidth k.req.desc⟩]
      mem := violatedMem s
      ret := Config.freeWord s.draws
      draws := s.draws + 2
      call := some ⟨k.req, .violated⟩
      obs := .loaded agent a (Config.freeByte (s.draws + 1) a) :: s.obs } := by
  have hf : forbidden s a false = true := forbidden_eq_true.2 ⟨k, hk, hs, hin, .inl hop⟩
  rw [loadByte, if_pos hf, violate_of_call hk]

theorem storeByte_of_borrowed (hk : s.call = some k) (hs : k.status ≠ .rejected) (hin : inBuffer s a = true) (agent : Nat) (b : Byte) :
    storeByte agent a b s = { s with
      fault := s.fault ++ [⟨.concurrentAccess a agent, wireWords s.cfg.addrWidth k.req.desc⟩]
      mem := Memory.write (violatedMem s) a (Config.freeByte (s.draws + 1) a)
      ret := Config.freeWord s.draws
      draws := s.draws + 2
      call := some ⟨k.req, .violated⟩ } := by
  have hf : forbidden s a true = true := forbidden_eq_true.2 ⟨k, hk, hs, hin, .inr rfl⟩
  rw [storeByte, if_pos hf, violate_of_call hk]

theorem storeByte_of_not_borrowed (hk : s.call = some k) (hs : k.status ≠ .rejected) (hout : inBuffer s a = false) (agent : Nat)
    (b : Byte) : storeByte agent a b s = { s with mem := Memory.write s.mem a b } :=
  storeByte_of_plain (by simp [forbidden, hk, hout]) (unsettled_of_not_rejected hk hs a) agent b

/-- A fault after ACCEPT leaves every byte alone but those of a REV16 buffer (60_exceptions.md R191 (d)). -/
theorem read_violatedMem_kept (h : inBuffer s a = false ∨ s.reqOp ≠ opRev16) : Memory.read (violatedMem s) a = Memory.read s.mem a := by
  rcases h with hout | hop
  · exact read_violatedMemOther (outsideBuffer_of_inBuffer_eq_false hout)
  · rw [violatedMem, if_neg hop]

end

/-- Settles O41: the byte lies in the buffer of a call that passed ACCEPT, so the access is forbidden, but for a load when the call is CRC32. -/
theorem forbiddenAccessesFault : Obligations.ForbiddenAccessesFault := by
  unfold Obligations.ForbiddenAccessesFault
  intro s k agent a es hk hst hin hlt
  refine ⟨fun hs hop => ?_, fun v hs => ?_, fun hs hop => ?_⟩
  · exact ⟨violatedMem s, by rw [step_load hs hlt, loadByte_of_borrowed (s := { s with sched := es }) hk hst hin hop]; rfl,
      fun b hout => read_violatedMemOther hout, fun hw b hb hblt => read_violatedMem_of_inBuffer hop hw hb hblt⟩
  · refine ⟨Memory.write (violatedMem s) a (Config.freeByte (s.draws + 1) a),
      by rw [step_store hs hlt, storeByte_of_borrowed (s := { s with sched := es }) hk hst hin]; rfl,
      fun b hout => ?_, fun hw => ?_, fun hw hop b hb hne hblt => ?_, fun hop b hne => ?_⟩
    · have hne : a ≠ b := by have := inBuffer_iff.1 hin; omega
      rw [Memory.read_writeOther hne, read_violatedMemOther hout]
    · rw [Memory.read_write (wf_violatedMem hw), if_pos rfl]
    · rw [Memory.read_writeOther hne.symm, read_violatedMem_of_inBuffer hop hw hb hblt]
    · rw [Memory.read_writeOther hne.symm, violatedMem_of_crc32 hop]
  · have hf : forbidden s a false = false := by simp [forbidden, hk, hop, opRev16_ne_opCrc32.symm]
    rw [step_load hs hlt, loadByte_of_plain (s := { s with sched := es }) hf (unsettled_of_not_rejected hk hst a)]

/-- Settles O58: a rejected call borrows nothing, so no fault is raised, and the byte is unsettled by its descriptor and its reason. -/
theorem rejectedRev16BytesAreUnspecified : Obligations.RejectedRev16BytesAreUnspecified := by
  unfold Obligations.RejectedRev16BytesAreUnspecified
  intro s k data dlen reason agent a es hk hst hd hc hreason hlo hhi hlt hw
  have hleaves : leavesBytes reason = true := by rcases hreason with rfl | ⟨b, rfl⟩ <;> rfl
  have hu : unsettled { s with sched := es } a = true :=
    unsettled_eq_true.2 ⟨k, data, dlen, reason, hk, hst, hd, hlo, hhi, hc, hleaves⟩
  have hf : ∀ isWrite, forbidden { s with sched := es } a isWrite = false := forbidden_of_rejected (s := { s with sched := es }) hk hst a
  refine ⟨fun hs => ?_, fun v hs => ⟨Memory.write s.mem a (Config.freeByte s.draws a), ?_, fun b => ?_⟩⟩
  · simp [step_load hs hlt, loadByte, hf, hu]
  · simp [step_store hs hlt, storeByte, hf, hu]
  · exact (Memory.read_write hw a _ b).trans (if_congr eq_comm rfl rfl)

/-! ### Four stores in a row -/

/-- Which of the `n` bytes from `a` on lie in the buffer of the call in the block, by their offsets. -/
def insideOf (s : State) (a n : Nat) : List Nat := (List.range n).filter fun j => inBuffer s (a + j)

/-- Byte `b` of `m` holds a free value drawn in state `s` or later. -/
def IsFree (s : State) (m : Memory) (b : Nat) : Prop := ∃ d, s.draws ≤ d ∧ Memory.read m b = Config.freeByte d b

/-- The memory after `n` stores of the bytes `bs` from `a` on, the first of them made in state `s`: each byte inside the borrowed buffer is free, each other
one is stored, and once a byte was inside, a REV16 buffer is free. -/
structure BytesStored (s : State) (a : Nat) (bs : List Byte) (n : Nat) (m : Memory) : Prop where
  wf     : Memory.wf m = true
  stored : ∀ j < n, inBuffer s (a + j) = false → some (Memory.read m (a + j)) = bs[j]?
  free   : ∀ j < n, inBuffer s (a + j) = true → IsFree s m (a + j)
  rev16  : insideOf s a n ≠ [] → s.reqOp = opRev16 → ∀ b, inBuffer s b = true → b < addrLimit s.cfg → IsFree s m b
  kept   : ∀ b, OutsideBuffer a n b → inBuffer s b = false ∨ s.reqOp ≠ opRev16 → Memory.read m b = Memory.read s.mem b

/-- `s` with the faults and draws that `n` stores from `a` on make. -/
def afterStores (s : State) (k : Call) (agent a n : Nat) (m : Memory) (ret : Word32) (status : CallStatus) : State :=
  { s with
    fault := s.fault ++ (insideOf s a n).map fun j => ⟨.concurrentAccess (a + j) agent, wireWords s.cfg.addrWidth k.req.desc⟩
    mem := m
    ret := ret
    draws := s.draws + 2 * (insideOf s a n).length
    call := some ⟨k.req, status⟩ }

/-- `t` is what `n` stores of the bytes `bs` from `a` on leave of `s`: once a byte was inside, the call is violated and RET free. -/
def WordStored (s : State) (k : Call) (agent a : Nat) (bs : List Byte) (n : Nat) (t : State) : Prop :=
  ∃ m ret status, t = afterStores s k agent a n m ret status ∧ status ≠ .rejected ∧ BytesStored s a bs n m ∧
    (insideOf s a n ≠ [] → status = .violated ∧
      ∃ d, s.draws ≤ d ∧ d < s.draws + 2 * (insideOf s a n).length ∧ ret = Config.freeWord d)

section
variable {s t : State} {k : Call} {agent a n : Nat} {bs : List Byte} {b : Byte} {m : Memory} {ret : Word32}
  {status : CallStatus}

theorem insideOf_succ_of_inside (h : inBuffer s (a + n) = true) : insideOf s a (n + 1) = insideOf s a n ++ [n] := by
  simp [insideOf, List.range_succ, h]

theorem insideOf_succ_of_outside (h : inBuffer s (a + n) = false) : insideOf s a (n + 1) = insideOf s a n := by
  simp [insideOf, List.range_succ, h]

theorem IsFree.write {x : Nat} (h : IsFree s m x) {y : Nat} (hne : y ≠ x) (b : Byte) : IsFree s (Memory.write m y b) x := by
  obtain ⟨d, hd, hread⟩ := h
  exact ⟨d, hd, (Memory.read_writeOther hne b m).trans hread⟩

/-- A store beside the buffer adds its byte. -/
theorem BytesStored.store_outside (h : BytesStored s a bs n m) (hout : inBuffer s (a + n) = false) (hb : bs[n]? = some b) :
    BytesStored s a bs (n + 1) (Memory.write m (a + n) b) where
  wf := Memory.wf_write h.wf _ _
  stored j hj hjout := by
    rcases Nat.lt_succ_iff_lt_or_eq.1 hj with hlt | rfl
    · rw [Memory.read_writeOther (by omega), h.stored j hlt hjout]
    · rw [Memory.read_write h.wf, if_pos rfl, hb]
  free j hj hin := by
    have hne : a + n ≠ a + j := fun he => by simp [← he, hout] at hin
    exact (h.free j (by omega) hin).write hne b
  rev16 hne hop x hin hlt := by
    have hx : a + n ≠ x := fun he => by simp [← he, hout] at hin
    exact (h.rev16 (insideOf_succ_of_outside hout ▸ hne) hop x hin hlt).write hx b
  kept x hx hkept := by rw [Memory.read_writeOther (by omega), h.kept x (by omega) hkept]

/-- A fault frees a REV16 buffer and leaves the bytes stored so far beside it alone. -/
theorem BytesStored.violated (h : BytesStored s a bs n m) (hlim : a + n ≤ addrLimit s.cfg) (ht : t = afterStores s k agent a n m ret status) :
    BytesStored s a bs n (violatedMem t) ∧
      (s.reqOp = opRev16 → ∀ x, inBuffer s x = true → x < addrLimit s.cfg → IsFree s (violatedMem t) x) := by
  subst ht
  have hkept : ∀ x, inBuffer s x = false ∨ s.reqOp ≠ opRev16 →
      Memory.read (violatedMem (afterStores s k agent a n m ret status)) x = Memory.read m x := fun x hx =>
    read_violatedMem_kept (s := afterStores s k agent a n m ret status) hx
  have hfree : s.reqOp = opRev16 → ∀ x, inBuffer s x = true → x < addrLimit s.cfg →
      IsFree s (violatedMem (afterStores s k agent a n m ret status)) x := fun hrev x hx hlt =>
    ⟨_, Nat.le_add_right _ _, read_violatedMem_of_inBuffer (s := afterStores s k agent a n m ret status) hrev h.wf hx hlt⟩
  refine ⟨⟨wf_violatedMem h.wf, fun j hj hout => ?_, fun j hj hj' => ?_, fun _ => hfree, fun x hx hx' => ?_⟩, hfree⟩
  · rw [hkept _ (.inl hout), h.stored j hj hout]
  · by_cases hrev : s.reqOp = opRev16
    · exact hfree hrev _ hj' (by omega)
    · obtain ⟨d, hd, hread⟩ := h.free j hj hj'
      exact ⟨d, hd, (hkept _ (.inr hrev)).trans hread⟩
  · rw [hkept x hx', h.kept x hx hx']

/-- A free value left inside the buffer, where a REV16 buffer is free already, adds its byte. -/
theorem BytesStored.store_inside (h : BytesStored s a bs n m)
    (hrev : s.reqOp = opRev16 → ∀ x, inBuffer s x = true → x < addrLimit s.cfg → IsFree s m x) (hin : inBuffer s (a + n) = true)
    {d : Nat} (hd : s.draws ≤ d) : BytesStored s a bs (n + 1) (Memory.write m (a + n) (Config.freeByte d (a + n))) := by
  have hfree : IsFree s (Memory.write m (a + n) (Config.freeByte d (a + n))) (a + n) :=
    ⟨d, hd, by rw [Memory.read_write h.wf, if_pos rfl]⟩
  refine ⟨Memory.wf_write h.wf _ _, fun j hj hout => ?_, fun j hj hj' => ?_, fun _ hop x hx hlt => ?_, fun x hx hkept => ?_⟩
  · have hne : a + n ≠ a + j := fun he => by simp [← he, hin] at hout
    rw [Memory.read_writeOther hne, h.stored j (by omega) hout]
  · rcases Nat.lt_succ_iff_lt_or_eq.1 hj with hlt | rfl
    · exact (h.free j hlt hj').write (by omega) _
    · exact hfree
  · rcases eq_or_ne (a + n) x with rfl | hne
    · exact hfree
    · exact (hrev hop x hx hlt).write hne _
  · rw [Memory.read_writeOther (by omega), h.kept x (by omega) hkept]

theorem wordStored_zero (hk : s.call = some k) (hst : k.status ≠ .rejected) (hw : Memory.wf s.mem = true) (agent a : Nat) (bs : List Byte) :
    WordStored s k agent a bs 0 s := by
  refine ⟨s.mem, s.ret, k.status, ?_, hst, ⟨hw, nofun, nofun, fun h => absurd rfl h, fun _ _ _ => rfl⟩, fun h => absurd rfl h⟩
  simp [afterStores, insideOf, ← hk]

/-- Each store adds its byte: a forbidden one records its ConcurrentAccess and makes RET free, any other writes memory alone. -/
theorem WordStored.succ (h : WordStored s k agent a bs n t) (hb : bs[n]? = some b) (hlim : a + n < addrLimit s.cfg) :
    WordStored s k agent a bs (n + 1) (storeByte agent (a + n) b t) := by
  obtain ⟨m, ret, status, rfl, hst, hbytes, hviolated⟩ := h
  cases hin : inBuffer s (a + n) with
  | false =>
    refine ⟨_, ret, status, ?_, hst, hbytes.store_outside hin hb, ?_⟩
    · rw [storeByte_of_not_borrowed (s := afterStores s k agent a n m ret status) rfl hst hin]
      simp [afterStores, insideOf_succ_of_outside hin]
    · rwa [insideOf_succ_of_outside hin]
  | true =>
    have hdraws : s.draws ≤ (afterStores s k agent a n m ret status).draws := Nat.le_add_right _ _
    obtain ⟨hfaulted, hrev⟩ := hbytes.violated (k := k) (agent := agent) (ret := ret) (status := status) hlim.le rfl
    refine ⟨_, _, .violated, ?_, nofun, hfaulted.store_inside hrev hin (hdraws.trans (Nat.le_succ _)), fun _ => ⟨rfl, _, hdraws, ?_, rfl⟩⟩
    · rw [storeByte_of_borrowed (s := afterStores s k agent a n m ret status) rfl hst hin]
      simp [afterStores, insideOf_succ_of_inside hin, Nat.mul_add, Nat.add_assoc]
    · simp [afterStores, insideOf_succ_of_inside hin]

/-- An st32le is the stores of its word's four bytes. -/
theorem wordStored_storeWord (hk : s.call = some k) (hst : k.status ≠ .rejected) (hw : Memory.wf s.mem = true)
    (hlim : a + 3 < addrLimit s.cfg) (agent : Nat) (w : Word32) : WordStored s k agent a (le4 w) 4 (storeWord agent a w s) := by
  have h0 := wordStored_zero hk hst hw agent a (le4 w)
  have h1 := h0.succ (b := w.extractLsb' 0 8) rfl (by omega)
  have h2 := h1.succ (b := w.extractLsb' 8 8) rfl (by omega)
  have h3 := h2.succ (b := w.extractLsb' 16 8) rfl (by omega)
  exact h3.succ rfl hlim

end

/-- Settles O60: the four stores add up byte by byte, and as one of the bytes is inside, the call is violated. -/
theorem forbiddenWordStoresFaultByteByByte : Obligations.ForbiddenWordStoresFaultByteByByte := by
  unfold Obligations.ForbiddenWordStoresFaultByteByByte
  intro s k agent a v es hk hst hlim hw hs ⟨j, hj, hin⟩
  obtain ⟨m, ret, status, he, -, hbytes, hviolated⟩ :=
    wordStored_storeWord (s := { s with sched := es }) hk hst hw hlim agent (varValue s.obs agent v)
  have hne : insideOf { s with sched := es } a 4 ≠ [] := List.ne_nil_of_mem (List.mem_filter.2 ⟨List.mem_range.2 hj, hin⟩)
  obtain ⟨rfl, d, hle, hlt, rfl⟩ := hviolated hne
  exact ⟨m, d, hle, hlt, (step_storeVar hs hlim).trans (congrArg _ he),
    fun b hout hword => hbytes.kept b hword (.inl (inBuffer_eq_false_of_outsideBuffer (s := { s with sched := es }) hout)), hbytes.stored,
    hbytes.free, hbytes.rev16 hne, fun hop b hword => hbytes.kept b hword (.inr (hop ▸ opRev16_ne_opCrc32.symm))⟩

end Sys2Proof.Machine
end

section
/-! PROOF. What a reset leaves (70_reset_and_hazards.md R211, R212): the reset values, and memory as it was but for the buffer of a legal REV16 call, each
byte of which has its value at ACCEPT or its final one, whatever moves of the call came before the reset. -/

namespace Sys2Proof.Machine

/-! ### The memory a reset leaves -/

theorem Memory.getElem?_readBytes {n j : Nat} (m : Memory) (a : Nat) (h : j < n) :
    (Memory.readBytes m a n)[j]? = some (Memory.read m (a + j)) := by
  rw [List.getElem?_eq_getElem (by simpa using h), Memory.getElem_readBytes]

theorem Memory.read_writeBytes {m : Memory} {bs : List Byte} {a j : Nat} (hw : Memory.wf m = true) (h : j < bs.length) :
    some (Memory.read (Memory.writeBytes m a bs) (a + j)) = bs[j]? := by
  rw [← Memory.getElem?_readBytes _ a h, Memory.readBytes_writeBytes bs a hw]

section
variable {s : State} (hoff : s.off.toNat ≤ s.reqDlen.toNat)
include hoff

theorem read_resetMem_of_outside {a : Nat} (h : OutsideBuffer s.reqData.toNat s.reqDlen.toNat a) :
    Memory.read (resetMem s) a = Memory.read s.mem a := by
  rcases resetMem_cases hoff with he | ⟨-, bs, -, -, -, hlen, he⟩ <;> rw [he]
  exact Memory.read_writeBytesOther bs s.mem (by omega)

/-- Each byte of the buffer of a legal REV16 call is drawn from its value at ACCEPT and its final value (70_reset_and_hazards.md R212 (c)). -/
theorem read_resetMem_of_rev16 {k : Call} {j : Nat} (hw : Memory.wf s.mem = true) (hk : s.call = some k) (hs : k.status = .legal)
    (hop : s.reqOp = opRev16) (hj : j < s.reqDlen.toNat) :
    some (Memory.read (resetMem s) (s.reqData.toNat + j)) = (bufferAtAccept s)[j]? ∨
      some (Memory.read (resetMem s) (s.reqData.toNat + j)) = (bufferAtEnd s)[j]? := by
  have hold : j < (bufferAtAccept s).length := by rwa [length_bufferAtAccept hoff]
  have hnew : j < (bufferAtEnd s).length := by rwa [length_bufferAtEnd hoff]
  have hmem : resetMem s =
      Memory.writeBytes s.mem s.reqData.toNat (drawBytes s.draws s.reqData.toNat (bufferAtAccept s) (bufferAtEnd s)) := by
    simp [resetMem, hk, hs, hop]
  rw [hmem, Memory.read_writeBytes hw (by simp [hold, hnew])]
  exact getElem_drawBytes _ _ _ _ j hold hnew

end

/-! ### A REV16 call from ACCEPT to a reset -/

/-- In `u` the block holds the legal REV16 call on `dlen` bytes from `data` on that it accepted in `s`: since then no agent has learnt anything, no fault has
been raised, the buffer is on its way from its bytes in `s` to Rev16Ref of them, and no byte outside it has changed. -/
structure Rev16Since (s : State) (data : BitVec 64) (dlen : Word32) (u : State) : Prop where
  legal        : ∃ k, u.call = some k ∧ k.status = .legal
  reqOp        : u.reqOp = opRev16
  reqData      : u.reqData = data
  reqDlen      : u.reqDlen = dlen
  off_le       : u.off.toNat ≤ u.reqDlen.toNat
  off_even     : u.off.toNat % 2 = 0
  wf           : Memory.wf u.mem = true
  obs          : u.obs = s.obs
  fault        : u.fault = s.fault
  at_accept    : bufferAtAccept u = Memory.readBytes s.mem data.toNat dlen.toNat
  at_end       : bufferAtEnd u = rev16Ref (Memory.readBytes s.mem data.toNat dlen.toNat)
  read_outside : ∀ a, OutsideBuffer data.toNat dlen.toNat a → Memory.read u.mem a = Memory.read s.mem a

section
variable {s u : State} {data : BitVec 64} {dlen : Word32}

theorem rev16Since_accept {r : Request} {rest : List Request} (hp : s.pending = r :: rest) (hw : Memory.wf s.mem = true)
    (data : BitVec 64) (dlen : Word32) : Rev16Since s data dlen (accept opRev16 data dlen s) where
  legal := ⟨_, headCall_of_pending hp .legal, rfl⟩
  reqOp := rfl
  reqData := rfl
  reqDlen := rfl
  off_le := Nat.zero_le _
  off_even := rfl
  wf := hw
  obs := rfl
  fault := rfl
  at_accept := bufferAtAccept_of_unprocessed rfl
  at_end := bufferAtEnd_of_unprocessed rfl
  read_outside _ _ := rfl

theorem rev16Since_withSched (h : Rev16Since s data dlen u) (es : List Event) : Rev16Since s data dlen { u with sched := es } := { h with }

theorem rev16Since_ackWrites (h : Rev16Since s data dlen u) : Rev16Since s data dlen (ackWrites u) := { h with }

theorem rev16Since_complete (h : Rev16Since s data dlen u) : Rev16Since s data dlen (complete u) := { h with }

theorem rev16Since_rev16Chunk {k : Nat} (h : Rev16Since s data dlen u) (hk : u.off.toNat + k ≤ u.reqDlen.toNat) (heven : k % 2 = 0) :
    Rev16Since s data dlen (rev16Chunk k u) := by
  have hoff : (rev16Chunk k u).off.toNat = u.off.toNat + k := off_add_toNat hk
  obtain ⟨haccept, hend⟩ := buffer_rev16Chunk hk h.wf h.off_even heven
  have hread : ∀ a, OutsideBuffer data.toNat dlen.toNat a → Memory.read (rev16Chunk k u).mem a = Memory.read u.mem a := fun a ha => by
    rw [← h.reqData, ← h.reqDlen] at ha
    exact read_swapUnitsOther _ _ _ (by unfold cursor; omega)
  exact { h with
    off_le := hoff.trans_le hk
    off_even := by rw [hoff, Nat.add_mod, h.off_even, heven]
    wf := wf_swapUnits _ _ h.wf
    at_accept := haccept.trans h.at_accept
    at_end := hend.trans h.at_end
    read_outside := fun a ha => (hread a ha).trans (h.read_outside a ha) }

/-- The call run as one step is one chunk of its whole length, acknowledged and completed. -/
theorem rev16Since_runRev16 {r : Request} {rest : List Request} (hp : s.pending = r :: rest) (hw : Memory.wf s.mem = true)
    (heven : dlen.toNat % 2 = 0) : Rev16Since s data dlen (runRev16 data dlen s) := by
  have haccept := rev16Since_accept hp hw data dlen
  exact rev16Since_complete (rev16Since_ackWrites (rev16Since_rev16Chunk haccept (by simp) heven))

theorem rev16Since_chunkStep (h : Rev16Since s data dlen u) (k : Nat) : Rev16Since s data dlen (chunkStep k u) := by
  unfold chunkStep
  split
  · next hc =>
    obtain ⟨-, -, -, hk, hok⟩ := canChunk_iff.1 hc
    rw [h.reqOp] at hok
    rw [chunk_of_rev16 h.reqOp]
    exact rev16Since_rev16Chunk h hk (even_of_chunkOk hok)
  · exact h

theorem rev16Since_completeStep (h : Rev16Since s data dlen u) : Rev16Since s data dlen (completeStep u) := by
  unfold completeStep
  split
  · exact rev16Since_complete h
  · exact h

end

/-! ### The moves of the call -/

section
variable {s u : State} {data : BitVec 64} {dlen : Word32} {es : List Event}

@[simp] theorem chunkStep_sched (k : Nat) (s : State) : (chunkStep k s).sched = s.sched := by
  unfold chunkStep
  split
  · exact chunk_sched
  · rfl

@[simp] theorem completeStep_sched (s : State) : (completeStep s).sched = s.sched := by
  unfold completeStep
  split <;> rfl

/-- A move of the call itself, after ACCEPT and before RESPOND: CHUNK, the acknowledgement of its writes, or COMPLETE. -/
abbrev IsCallMove (e : Event) : Prop := e = .writeAck ∨ e = .complete ∨ ∃ k, e = .chunk k

/-- A move of the call, enabled or not, leaves it on its way. -/
theorem rev16Since_step {e : Event} (h : Rev16Since s data dlen u) (he : IsCallMove e) (hs : u.sched = e :: es) :
    ∃ v, step u = .next v ∧ v.sched = es ∧ Rev16Since s data dlen v := by
  have hu := rev16Since_withSched h es
  rcases he with rfl | rfl | ⟨k, rfl⟩
  · exact ⟨_, step_writeAck hs, rfl, rev16Since_ackWrites hu⟩
  · exact ⟨_, step_complete hs, by simp, rev16Since_completeStep hu⟩
  · have hstep : step u = .next (chunkStep k { u with sched := es }) := by simp [step, nextMove, hs, eventMove]
    exact ⟨_, hstep, by simp, rev16Since_chunkStep hu k⟩

/-- Any number of moves of the call leaves it on its way, whatever `n` steps come after them. -/
theorem rev16Since_runSteps (n : Nat) : ∀ {ms : List Event} {u : State}, Rev16Since s data dlen u → (∀ e ∈ ms, IsCallMove e) →
    u.sched = ms ++ es → ∃ v, runSteps (ms.length + n) u = runSteps n v ∧ v.sched = es ∧ Rev16Since s data dlen v
  | [], u, h, _, hs => ⟨u, by simp, hs, h⟩
  | e :: ms, u, h, hms, hs => by
    obtain ⟨he, hms⟩ := List.forall_mem_cons.1 hms
    obtain ⟨v, hstep, hv, hsince⟩ := rev16Since_step h he hs
    obtain ⟨w, hrun, hw, hsince⟩ := rev16Since_runSteps n hsince hms hv
    exact ⟨w, by rw [List.length_cons, Nat.add_right_comm, runSteps_succ _ hstep, hrun], hw, hsince⟩

/-- A legal REV16 request that is first on the port starts by either move, ACCEPT alone or the call as one step. -/
theorem rev16Since_start {r : Request} {rest : List Request} {start : Event} (ha : canAccept s = true) (hp : s.pending = r :: rest)
    (hw : Memory.wf s.mem = true) (hf : fetch s = .instr (.rev16 data dlen)) (hl : Legal s.cfg opRev16 data.toNat dlen)
    (hstart : start = .accept 0 ∨ start = .call 0) (hs : s.sched = start :: es) :
    ∃ v, step s = .next v ∧ v.sched = es ∧ Rev16Since s data dlen v := by
  rcases hstart with rfl | rfl
  · exact ⟨_, step_accept_first hs ha hp hf hl, rfl, rev16Since_withSched (rev16Since_accept hp hw data dlen) es⟩
  · have hexec := exec_rev16_of_legal (s := { s with sched := es }) ha hl
    exact ⟨_, (step_call_first hs ha hp hf).trans hexec, rfl, rev16Since_withSched (rev16Since_runRev16 hp hw hl.even) es⟩

/-- A reset leaves each byte of the buffer with the value it had in `s` or with its value under Rev16Ref (70_reset_and_hazards.md R212 (c)). -/
theorem read_resetMem_of_rev16Since (h : Rev16Since s data dlen u) {j : Nat} (hj : j < dlen.toNat) :
    some (Memory.read (resetMem u) (data.toNat + j)) = (Memory.readBytes s.mem data.toNat dlen.toNat)[j]? ∨
      some (Memory.read (resetMem u) (data.toNat + j)) = (rev16Ref (Memory.readBytes s.mem data.toNat dlen.toNat))[j]? := by
  obtain ⟨k, hk, hlegal⟩ := h.legal
  rw [← h.at_end, ← h.at_accept, ← h.reqData]
  exact read_resetMem_of_rev16 h.off_le h.wf hk hlegal h.reqOp (by rwa [h.reqDlen])

theorem read_resetMem_outside_of_rev16Since (h : Rev16Since s data dlen u) {a : Nat} (ha : OutsideBuffer data.toNat dlen.toNat a) :
    Memory.read (resetMem u) a = Memory.read s.mem a := by
  have hreset := read_resetMem_of_outside h.off_le (a := a) (by rwa [h.reqData, h.reqDlen])
  exact hreset.trans (h.read_outside a ha)

end

/-! ### The obligations -/

/-- Settles O47: they are the fields the reset step and the state after reset write. -/
theorem resetLeavesTheResetValues : Obligations.ResetLeavesTheResetValues := by
  unfold Obligations.ResetLeavesTheResetValues
  refine ⟨fun s es hs => ⟨_, step_rstAssert hs, ?_⟩, rfl, rfl, rfl, rfl, rfl, rfl, rfl, rfl, rfl, rfl⟩
  simp [pendingResponse]

/-- Settles O50: a reset writes only over the buffer of a legal REV16 call, and the invariant gives what that needs, canonical memory and OFF inside the
buffer. -/
theorem resetTouchesOnlyARev16Buffer : Obligations.ResetTouchesOnlyARev16Buffer := by
  unfold Obligations.ResetTouchesOnlyARev16Buffer
  rintro s es ⟨⟨hw, -⟩, -, ⟨-, -, -, hoff, -⟩, -⟩ hs
  refine ⟨_, step_rstAssert hs, fun hnone => ?_, fun a ha => read_resetMem_of_outside hoff ha,
    fun k hk hlegal hop j hj => read_resetMem_of_rev16 hoff hw hk hlegal hop hj⟩
  rcases hnone with hcall | hop
  · exact resetMem_of_no_call (s := { s with sched := es }) hcall
  · exact resetMem_of_crc32 (s := { s with sched := es }) hop

/-- Settles O49: the call starts, its moves leave it on its way, and the reset then draws each byte of its buffer. -/
theorem resetCutsRev16PerByte : Obligations.ResetCutsRev16PerByte := by
  unfold Obligations.ResetCutsRev16PerByte
  intro s r rest data dlen start ms es hr hidle hp hw hf hl hstart hms hs
  have ha : canAccept s = true := canAccept_iff.2 ⟨hr, hidle, by simp [hp]⟩
  obtain ⟨u, hstep, hu, hsince⟩ := rev16Since_start ha hp hw hf hl hstart hs
  obtain ⟨v, hrun, hv, hsince⟩ := rev16Since_runSteps 1 hsince hms hu
  have hcut := rev16Since_withSched hsince es
  refine ⟨rstAssertStep { v with sched := es }, ?_, rfl, rfl, rfl, hcut.obs, hcut.fault,
    fun j hj => read_resetMem_of_rev16Since hcut hj, fun a ha => read_resetMem_outside_of_rev16Since hcut ha⟩
  rw [runSteps_succ _ hstep, hrun, runSteps_succ 0 (step_rstAssert hv), runSteps_zero]

end Sys2Proof.Machine
end

section
/-! PROOF. Other agents' accesses outside the address space (20_memory.md R50; notes/assumptions/9, 22): each one answers its lowest address that does not
exist, and no next state. -/

namespace Sys2Proof.Machine

section
variable {s : State} {agent a v : Nat} {es : List Event}

theorem step_load_outside (hs : s.sched = .load agent a :: es) (ha : addrLimit s.cfg ≤ a) :
    step s = .fault (.noSuchAddress a) := by
  simp [step, nextMove, hs, eventMove, loadStep, Nat.not_lt.2 ha]

theorem step_store_outside {b : Byte} (hs : s.sched = .store agent a b :: es) (ha : addrLimit s.cfg ≤ a) :
    step s = .fault (.noSuchAddress a) := by
  simp [step, nextMove, hs, eventMove, storeStep, Nat.not_lt.2 ha]

/-- The last of the four bytes decides whether the word exists; its first byte outside is its own first byte or the first address past the space. -/
theorem step_storeVar_outside (hs : s.sched = .storeVar agent a v :: es) (ha : addrLimit s.cfg ≤ a + 3) :
    step s = .fault (.noSuchAddress (max a (addrLimit s.cfg))) := by
  simp [step, nextMove, hs, eventMove, storeVarStep, Nat.not_lt.2 ha]

end

/-- Settles O43: each access that reaches past the space stops the machine, and where a word starts says which of the two addresses is the greater. -/
theorem accessesOutsideTheSpaceStop : Obligations.AccessesOutsideTheSpaceStop := by
  unfold Obligations.AccessesOutsideTheSpaceStop
  refine fun s agent a es => ⟨fun ha => ⟨fun hs => step_load_outside hs ha, fun v hs => step_store_outside hs ha, fun v hs => ?_⟩,
    fun hlt hend v hs => ?_⟩
  · rw [step_storeVar_outside hs (Nat.le_add_right_of_le ha), max_eq_left ha]
  · rw [step_storeVar_outside hs hend, max_eq_right hlt.le]

end Sys2Proof.Machine
end
